-- ==== Sys2Proof/Word.lean ====
section
/-! DEFINITION. The word types of the FXP24 block: bytes, 24-bit wire words, 32-bit bus words, 9-bit
lengths, 14-bit aperture offsets and binary64 patterns (00_scope.md R8, R10; 30_encoding.md R109). -/

namespace Sys2Proof

/-- One byte of a wire stream (`u8`, 00_scope.md R10). -/
abbrev Byte := BitVec 8

/-- A 24-bit wire word (W_WIRE, 00_scope.md R8). -/
abbrev Wire := BitVec 24

/-- A 32-bit bus word, and the width of a register and of a command word (10_state.md §3). -/
abbrev Word := BitVec 32

/-- The 64-bit pattern of an IEEE 754 binary64 value (30_encoding.md R109). -/
abbrev F64 := BitVec 64

/-- A byte offset into the 16 KiB aperture, [0x0000, 0x4000) (20_memory.md R70). -/
abbrev Offset := BitVec 14

end Sys2Proof
end

