-- ==== Sys2Proof/Config.lean ====
section
/-! DEFINITION. What an implementation fixes (00_scope.md R9): the parameters that have a value in the
spec, and the free values, constants with no body, for those that the spec leaves OPEN. -/

namespace Sys2Proof

/-- The binary64 operations that can produce or propagate a NaN (41_spectral.md R163). -/
inductive FOp where
  | add | sub | mul | div | sqrt
deriving DecidableEq, Repr

/-- The readings of UNTANGLE_BIN0 (00_scope.md R9, 41_spectral.md R174). -/
inductive Bin0Rule where
  /-- `sqrt(r0^2 + rN^2)`, the spec's value. -/
  | hypot
  /-- `|r0 + rN|`. -/
  | absSum
  /-- `|r0|`. -/
  | absDc
deriving DecidableEq, Repr

/-- SIN64 before its range is kept (00_scope.md R9: OPEN). A free value, a function of the argument;
log entry 8. -/
opaque Config.sin64 : F64 → F64

/-- COS64 before its range is kept (00_scope.md R9: OPEN). A free value, a function of the argument;
log entry 8. -/
opaque Config.cos64 : F64 → F64

/-- NAN_GEN (00_scope.md R9: OPEN, any quiet NaN): bit 51 is the sign and bits 50..0 are the payload of
the quiet NaN that an operation creates from operands that are no NaN. A free value; log entry 9. -/
opaque Config.nanGen : FOp → F64 → F64 → BitVec 52

/-- NAN_PROP (00_scope.md R9: OPEN, any NaN): bit 52 is the sign and bits 51..0 are the fraction of the
NaN that an operation on a NaN returns. A free value; log entry 9. -/
opaque Config.nanProp : FOp → F64 → F64 → BitVec 53

/-- BASE, the bus address at which the platform places the aperture (20_memory.md R70: OPEN). A free
value; log entry 15. -/
opaque Config.base : Nat

/-- PI64, the binary64 value of pi (00_scope.md R9). -/
def Config.pi64 : F64 := 0x400921FB54442D18#64

/-- ID_VALUE (00_scope.md R9, 10_state.md R33). -/
def Config.idValue : Word := 0x46583234#32

/-- UNTANGLE_BIN0 = HYPOT (00_scope.md R9, 41_spectral.md R174, 90_conflicts.md C6); log entry 10. -/
def Config.untangleBin0 : Bin0Rule := .hypot

/-- EXC_FREQ_OFFSET = 1 (00_scope.md R9, 42_transcoder.md R194, 90_conflicts.md C2); log entry 10. -/
def Config.excFreqOffset : Nat := 1

end Sys2Proof
end

