-- ==== Sys2Proof/Syntax.lean ====
section
/-! DEFINITION. The ten commands of the FXP24 block, one constructor per row of
spec/opcode_table.json (00_scope.md R3, 30_encoding.md R110). -/

namespace Sys2Proof

/-- A command. An 8-bit operand is the word's ARG field, read as an unsigned integer
(30_encoding.md R111). -/
inductive Instr where
  /-- NOP (44_control.md R220). -/
  | nop
  /-- ENC24 c: encode WORDS[0..c-1] to BYTES (40_codec.md R140). -/
  | enc24 (c : BitVec 8)
  /-- DEC24: decode BYTES[0..LEN-1] to WORDS (40_codec.md R142). -/
  | dec24
  /-- FFT n with n = 2^m (41_spectral.md R160). -/
  | fft (m : BitVec 8)
  /-- LEAKF h (41_spectral.md R170). -/
  | leakf (h : BitVec 8)
  /-- UNTANGLE n with n = 2^m (41_spectral.md R172). -/
  | untangle (m : BitVec 8)
  /-- UNTANGLE_LEAK n with n = 2^m (41_spectral.md R175). -/
  | untangleLeak (m : BitVec 8)
  /-- DECODE_MODEL.IMP (42_transcoder.md R192). -/
  | decodeModelImp
  /-- DECODE_MODEL.EXC (42_transcoder.md R193). -/
  | decodeModelExc
  /-- ENCODE_MODEL (42_transcoder.md R196). -/
  | encodeModel
deriving DecidableEq, Repr

end Sys2Proof
end

