-- ==== Sys2Proof/WellFormed.lean ====
section
/-! DEFINITION. The commands an assembler accepts (30_encoding.md R114): FFT, UNTANGLE and
UNTANGLE_LEAK take a power of two in [4, 128], the other operands are any 8-bit number. A command that
is not well formed still has a word (`.cmd w`), is still decoded, and completes with E_NPARAM. -/

namespace Sys2Proof

/-- The ARG of a legal transform length n = 2^m, n in {4, ..., 128} (30_encoding.md R111, R114). -/
def legalLog2 (m : BitVec 8) : Bool := decide (2 ≤ m.toNat) && decide (m.toNat ≤ 7)

/-- What the assembler of 30_encoding.md R114 accepts. -/
def Instr.wellFormed : Instr → Bool
  | .nop => true
  | .enc24 _ => true
  | .dec24 => true
  | .fft m => legalLog2 m
  | .leakf _ => true
  | .untangle m => legalLog2 m
  | .untangleLeak m => legalLog2 m
  | .decodeModelImp => true
  | .decodeModelExc => true
  | .encodeModel => true

end Sys2Proof
end

