-- ==== Sys2Proof/Decode.lean ====
section
/-! DEFINITION. Command words: the fields of 30_encoding.md R100, the decoder (R110, R112, total by
R113), the encoder (R110, R114), and the rows of the opcode table (mask and match). -/

namespace Sys2Proof

/-- Why a command word is illegal (30_encoding.md R112). Each completes with E_ILLEGAL
(60_exceptions.md R246). -/
inductive DecodeError where
  /-- R112 (a): OP is not in the table of R110. -/
  | unknownOp
  /-- R112 (b): RSV is not 0. -/
  | reservedNotZero
  /-- R112 (c): ARG is not 0 for a command that takes none. -/
  | argNotZero
  /-- R112 (d): T is 1 for an OP other than 0x20. -/
  | typeNotZero
deriving DecidableEq, Repr

/-- OP, bits [7:0] of a command word (R100). -/
def opField (w : Word) : BitVec 8 := w.extractLsb' 0 8

/-- ARG, bits [15:8] (R100). -/
def argField (w : Word) : BitVec 8 := w.extractLsb' 8 8

/-- T, bit 16 (R100). -/
def typeField (w : Word) : BitVec 1 := w.extractLsb' 16 1

/-- RSV, bits [31:17] (R100). -/
def rsvField (w : Word) : BitVec 15 := w.extractLsb' 17 15

/-- The command, when the word's RSV and T are 0 (R112 (b), (d)). -/
def requirePlain (w : Word) (i : Instr) : Except DecodeError Instr :=
  if rsvField w ≠ 0 then .error .reservedNotZero
  else if typeField w ≠ 0 then .error .typeNotZero
  else .ok i

/-- The command, when the word's RSV, T and ARG are 0 (R112 (b), (c), (d)). -/
def requireBare (w : Word) (i : Instr) : Except DecodeError Instr :=
  if argField w ≠ 0 then .error .argNotZero else requirePlain w i

/-- OP 0x20: T selects the model kind (R110), RSV and ARG must be 0 (R112 (b), (c)). -/
def decodeModelForm (w : Word) : Except DecodeError Instr :=
  if rsvField w ≠ 0 then .error .reservedNotZero
  else if argField w ≠ 0 then .error .argNotZero
  else if typeField w = 0 then .ok .decodeModelImp
  else .ok .decodeModelExc

/-- The decoder (30_encoding.md R110 to R113): total, every illegal word is rejected by name. An ARG
out of a command's range is legal here and is a matter for execution (R111). -/
def decode (w : Word) : Except DecodeError Instr :=
  match opField w with
  | 0x00#8 => requireBare w .nop
  | 0x01#8 => requirePlain w (.enc24 (argField w))
  | 0x02#8 => requireBare w .dec24
  | 0x10#8 => requirePlain w (.fft (argField w))
  | 0x11#8 => requirePlain w (.leakf (argField w))
  | 0x12#8 => requirePlain w (.untangle (argField w))
  | 0x13#8 => requirePlain w (.untangleLeak (argField w))
  | 0x20#8 => decodeModelForm w
  | 0x21#8 => requireBare w .encodeModel
  | _ => .error .unknownOp

/-- R112 as it is written, apart from the decoder: (a) OP is not in the table of R110, (b) RSV is not 0,
(c) ARG is not 0 for NOP, DEC24, DECODE_MODEL or ENCODE_MODEL, (d) T is 1 for an OP other than 0x20. -/
def illegalWord (w : Word) : Bool :=
  !([0x00#8, 0x01#8, 0x02#8, 0x10#8, 0x11#8, 0x12#8, 0x13#8, 0x20#8, 0x21#8].contains (opField w))
    || decide (rsvField w ≠ 0)
    || (decide (argField w ≠ 0) && [0x00#8, 0x02#8, 0x20#8, 0x21#8].contains (opField w))
    || (decide (typeField w = 1) && decide (opField w ≠ 0x20#8))

/-- A command word from its fields (R100). -/
def commandWord (t : BitVec 1) (arg : BitVec 8) (op : BitVec 8) : Word :=
  0#15 ++ t ++ arg ++ op

/-- The encoder (30_encoding.md R110, R114). -/
def encode : Instr → Word
  | .nop => commandWord 0 0 0x00
  | .enc24 c => commandWord 0 c 0x01
  | .dec24 => commandWord 0 0 0x02
  | .fft m => commandWord 0 m 0x10
  | .leakf h => commandWord 0 h 0x11
  | .untangle m => commandWord 0 m 0x12
  | .untangleLeak m => commandWord 0 m 0x13
  | .decodeModelImp => commandWord 0 0 0x20
  | .decodeModelExc => commandWord 1 0 0x20
  | .encodeModel => commandWord 0 0 0x21

/-- A row of spec/opcode_table.json: a word is the row's when its masked bits equal `pattern`
(30_encoding.md R113). -/
structure OpcodeRow where
  mnemonic : String
  mask : Word
  pattern : Word
deriving DecidableEq, Repr

/-- `(w & mask) == match` (30_encoding.md R113). -/
def OpcodeRow.fits (r : OpcodeRow) (w : Word) : Bool := w &&& r.mask == r.pattern

/-- The ten rows of spec/opcode_table.json, in its order. -/
def opcodeTable : List OpcodeRow :=
  [⟨"NOP", 0xFFFFFFFF#32, 0x00000000#32⟩,
   ⟨"ENC24", 0xFFFF00FF#32, 0x00000001#32⟩,
   ⟨"DEC24", 0xFFFFFFFF#32, 0x00000002#32⟩,
   ⟨"FFT", 0xFFFF00FF#32, 0x00000010#32⟩,
   ⟨"LEAKF", 0xFFFF00FF#32, 0x00000011#32⟩,
   ⟨"UNTANGLE", 0xFFFF00FF#32, 0x00000012#32⟩,
   ⟨"UNTANGLE_LEAK", 0xFFFF00FF#32, 0x00000013#32⟩,
   ⟨"DECODE_MODEL.IMP", 0xFFFFFFFF#32, 0x00000020#32⟩,
   ⟨"DECODE_MODEL.EXC", 0xFFFFFFFF#32, 0x00010020#32⟩,
   ⟨"ENCODE_MODEL", 0xFFFFFFFF#32, 0x00000021#32⟩]

/-- The mnemonic of a command as spec/opcode_table.json spells it. -/
def Instr.mnemonic : Instr → String
  | .nop => "NOP"
  | .enc24 _ => "ENC24"
  | .dec24 => "DEC24"
  | .fft _ => "FFT"
  | .leakf _ => "LEAKF"
  | .untangle _ => "UNTANGLE"
  | .untangleLeak _ => "UNTANGLE_LEAK"
  | .decodeModelImp => "DECODE_MODEL.IMP"
  | .decodeModelExc => "DECODE_MODEL.EXC"
  | .encodeModel => "ENCODE_MODEL"

/-- The command word whose low `nbits` bits are those of `w` and whose other bits are 0. -/
def tableWord (nbits w : Nat) : Word := BitVec.ofNat 32 (w % 2 ^ nbits)

/-- What the decoder reads from the word of a row of spec/opcode_table.json: the word is one 32-bit
command word, numbered as the table numbers it (30_encoding.md R100). -/
def decodeTableWord (nbits w : Nat) : Option Instr :=
  match decode (tableWord nbits w) with
  | .ok i => some i
  | .error _ => none

end Sys2Proof
end

