-- ==== Sys2Proof/Machine/State.lean ====
section
/-! DEFINITION. The state of the FXP24 block as plain data (10_state.md), the host's accesses
(20_memory.md), the reasons a step can stop, and the state after power-on reset (R51, R270). -/

namespace Sys2Proof.Machine

/-- The sequencer's position (10_state.md R32). -/
inductive Seq where
  | idle | busy
deriving DecidableEq, Repr

/-- The buffers, the block's register files (10_state.md R39 to R46). -/
inductive Buffer where
  | bytes | words | data | mag | freq | leak | tap | param
deriving DecidableEq, Repr

/-- The error codes of STATUS.ERRCODE (60_exceptions.md R240); 0 is E_NONE. -/
inductive ErrorCode where
  /-- E_FORMAT, code 1: wrong byte length. -/
  | format
  /-- E_ILLEGAL, code 2: illegal command word. -/
  | illegal
  /-- E_NPARAM, code 3: FFT length out of {4, ..., 128}. -/
  | nparam
  /-- E_RANGE, code 4: count beyond buffer capacity. -/
  | range
  /-- E_NAN, code 5: ENCODE_MODEL input is a NaN. -/
  | nan
deriving DecidableEq, Repr

/-- The width of a host access; only 32 bits is served (20_memory.md R71). -/
inductive AccessWidth where
  | w8 | w16 | w32 | w64
deriving DecidableEq, Repr

/-- One host bus access (00_scope.md R13: BusRead, BusWrite). The offset is relative to BASE. -/
inductive BusOp where
  | read (width : AccessWidth) (off : Offset)
  | write (width : AccessWidth) (off : Offset) (value : Word)
deriving DecidableEq, Repr

/-- What the bus answers to the host (20_memory.md R71, R79). -/
inductive BusAnswer where
  /-- The value a read returned. -/
  | data (value : Word)
  /-- A write was performed. -/
  | done
  /-- The access was of another width or misaligned: no effect, no data (R71). -/
  | busError
deriving DecidableEq, Repr

/-- One entry of the total order of 20_memory.md R82: the next host access, or the sequencer's step.
DESIGN CHOICE, safe: log entry 3. -/
inductive Turn where
  | host (op : BusOp)
  | sequencer
deriving DecidableEq, Repr

/-- The storage of the buffers: (offset in the aperture, byte) pairs, offsets strictly rising. A stored
byte that is not listed is unwritten (10_state.md R47): it has no value. -/
abbrev Memory := List Host.Cell

/-- Why a step stops. -/
inductive Fault where
  /-- A host read or a command read of an element that nothing has written since power-on or since a
  soft reset cancelled its write (10_state.md R47, 93 U7). Raised by the reads of Machine/Ops.lean
  and Machine/Bus.lean. Safe: the spec asks the model to stop here, and no value is invented. -/
  | unwritten (buffer : Buffer) (index : Nat)
deriving DecidableEq, Repr

/-- Why an instruction is turned away. -/
inductive Refusal where
  /-- The instruction of this mnemonic has no meaning yet. Raised by an arm of `exec` only; no arm
  raises it now. Safe. -/
  | notModelled (mnemonic : String)
deriving DecidableEq, Repr

/-- The state of the block. STATUS.BUSY is `seq = .busy` (10_state.md R35); ID is a constant
(`Config.idValue`, R33); IRQ is derived (R50). -/
structure State where
  /-- SEQ (10_state.md R32). -/
  seq : Seq
  /-- CMDL, the last accepted command word (10_state.md R32, R34). -/
  cmdl : Word
  /-- STATUS.DONE (10_state.md R35). -/
  done : Bool
  /-- STATUS.ERR (10_state.md R35). -/
  err : Bool
  /-- STATUS.OVR (10_state.md R35). -/
  ovr : Bool
  /-- STATUS.ERRCODE (10_state.md R35, 60_exceptions.md R240). -/
  errcode : BitVec 4
  /-- LEN (10_state.md R36). -/
  len : BitVec 9
  /-- LEAKAGE, a binary64 pattern (10_state.md R37). -/
  leakage : F64
  /-- CTRL.IE (10_state.md R38). -/
  ie : Bool
  /-- The buffers (10_state.md R39 to R47). -/
  mem : Memory
  /-- The MODEL's own field: the turns still to come (log entry 3). -/
  agenda : List Turn
  /-- The MODEL's own field: the bus's answer to the last access (log entry 4). -/
  answer : Option BusAnswer
deriving DecidableEq, Repr

/-- The state after power-on reset (10_state.md R51, 70_reset_and_hazards.md R270): every register at
its reset value, every buffer element unwritten. `agenda` and `answer` are the model's own fields
(DESIGN CHOICE: log entries 3 and 4). -/
def State.reset : State where
  seq := .idle
  cmdl := 0x00000000#32
  done := false
  err := false
  ovr := false
  errcode := 0#4
  len := 0#9
  leakage := 0x0000000000000000#64
  ie := false
  mem := []
  agenda := []
  answer := none

end Sys2Proof.Machine
end

