-- ==== Sys2Proof/Machine/Memory.lean ====
section
/-! DEFINITION. The buffer storage: the map of the buffer windows (20_memory.md R72), the layout of
an element (R75 to R77), and reading, writing and forgetting bytes and elements (10_state.md R47). -/

namespace Sys2Proof.Machine

/-- The canonical form: offsets strictly rising. (An unlisted byte has no value, so no listed entry can
equal what an unlisted one reads as.) -/
abbrev Memory.wf (m : Memory) : Prop := m.Pairwise (fun c d => c.1 < d.1)

/-- The byte stored at an offset; none where nothing has written it. -/
def Memory.read : Memory → Nat → Option Byte
  | [], _ => none
  | (k, b) :: rest, a => if k = a then some b else Memory.read rest a

/-- Replace what is listed in [lo, hi) by `new`, whose offsets lie there and rise strictly. -/
def Memory.put (lo hi : Nat) (new m : Memory) : Memory :=
  m.filter (fun c => decide (c.1 < lo)) ++ (new ++ m.filter (fun c => decide (hi ≤ c.1)))

/-- Bytes at consecutive offsets. -/
def cellsFrom : Nat → List Byte → Memory
  | _, [] => []
  | a, b :: bs => (a, b) :: cellsFrom (a + 1) bs

/-- The `k` low bytes of a number, the least significant first. Within an element the model puts bits
[7:0] at the lowest offset; no bus access can see it (20_memory.md R78; log entry 7). -/
def leBytes : Nat → Nat → List Byte
  | 0, _ => []
  | k + 1, v => BitVec.ofNat 8 v :: leBytes k (v / 256)

/-- The number held in `k` consecutive bytes; none if one of them is unwritten. -/
def Memory.readLe (m : Memory) : Nat → Nat → Option Nat
  | _, 0 => some 0
  | a, k + 1 =>
    match Memory.read m a, Memory.readLe m (a + 1) k with
    | some b, some v => some (b.toNat + 256 * v)
    | _, _ => none

/-- The first offset of a buffer's window (20_memory.md R72). -/
def Buffer.base : Buffer → Nat
  | .bytes => 0x0400
  | .words => 0x0C00
  | .data => 0x1000
  | .mag => 0x1400
  | .freq => 0x1600
  | .leak => 0x1800
  | .tap => 0x2000
  | .param => 0x2400

/-- The number of elements (10_state.md R39 to R46). -/
def Buffer.count : Buffer → Nat
  | .bytes => 423
  | .words => 141
  | .data => 128
  | .mag => 64
  | .freq => 64
  | .leak => 64
  | .tap => 128
  | .param => 13

/-- The distance between elements: one bus word for BYTES and WORDS, two for a binary64 buffer
(20_memory.md R72, R75 to R77). -/
def Buffer.stride : Buffer → Nat
  | .bytes => 4
  | .words => 4
  | _ => 8

/-- The bytes an element stores: 8 bits for BYTES, 32 for WORDS, 64 for a binary64 buffer. -/
def Buffer.width : Buffer → Nat
  | .bytes => 1
  | .words => 4
  | _ => 8

/-- The offset of element i (20_memory.md R72). -/
def Buffer.addr (b : Buffer) (i : Nat) : Nat := b.base + b.stride * i

/-- The first offset past a buffer's window (20_memory.md R72). -/
def Buffer.limit (b : Buffer) : Nat := b.addr b.count

/-- The stored bytes of consecutive elements, from element i on. -/
def elemCells (b : Buffer) : Nat → List Nat → Memory
  | _, [] => []
  | i, v :: vs => cellsFrom (b.addr i) (leBytes b.width v) ++ elemCells b (i + 1) vs

/-- Element i of a buffer as a number; none where the element is unwritten, that is, where one of its
bytes is (10_state.md R47, 44_control.md R228). -/
def Memory.readElem (m : Memory) (b : Buffer) (i : Nat) : Option Nat :=
  Memory.readLe m (b.addr i) b.width

/-- Elements i, i+1, ..., i+n-1; the index of the first unwritten one where there is one. -/
def Memory.readElems (m : Memory) (b : Buffer) : Nat → Nat → Except Nat (List Nat)
  | _, 0 => .ok []
  | i, n + 1 =>
    match Memory.readElem m b i with
    | none => .error i
    | some v =>
      match Memory.readElems m b (i + 1) n with
      | .error k => .error k
      | .ok vs => .ok (v :: vs)

/-- Write elements 0, 1, ..., one for each value. Every command writes a prefix of a buffer. -/
def Memory.writePrefix (m : Memory) (b : Buffer) (vals : List Nat) : Memory :=
  Memory.put b.base (b.addr vals.length) (elemCells b 0 vals) m

/-- Make elements 0, ..., n-1 unwritten (70_reset_and_hazards.md R272). -/
def Memory.forgetPrefix (m : Memory) (b : Buffer) (n : Nat) : Memory :=
  Memory.put b.base (b.addr n) [] m

/-- Write one element's bytes, or one half's, from an offset on. -/
def Memory.writeAt (m : Memory) (a : Nat) (bytes : List Byte) : Memory :=
  Memory.put a (a + bytes.length) (cellsFrom a bytes) m

/-- Element i of BYTES (10_state.md R39). -/
def State.byteAt (s : State) (i : Nat) : Option Byte :=
  (Memory.readElem s.mem .bytes i).map (BitVec.ofNat 8)

/-- Element i of WORDS, its 32-bit two's-complement pattern (10_state.md R40, 20_memory.md R76). -/
def State.wordAt (s : State) (i : Nat) : Option Word :=
  (Memory.readElem s.mem .words i).map (BitVec.ofNat 32)

/-- Element i of a binary64 buffer (10_state.md R41 to R46). -/
def State.f64At (s : State) (b : Buffer) (i : Nat) : Option F64 :=
  (Memory.readElem s.mem b i).map (BitVec.ofNat 64)

/-- BUF[i] is written (10_state.md R47). -/
def State.written (s : State) (b : Buffer) (i : Nat) : Bool :=
  (Memory.readElem s.mem b i).isSome

end Sys2Proof.Machine
end

