-- ==== Sys2Proof/Machine/Flags.lean ====
section
/-! DEFINITION. The STATUS register and the interrupt line: their values as registers (10_state.md R35,
R50; 44_control.md R225), and every write of a flag: acceptance (R221), a dropped submission (R222),
completion (60_exceptions.md R241, R242) and write-one-to-clear (R225). -/

namespace Sys2Proof.Machine

/-- One bit of a register. -/
def flagBit (b : Bool) : BitVec 1 := if b then 1#1 else 0#1

/-- STATUS.BUSY: 1 while SEQ = BUSY (10_state.md R35). -/
def State.busy (s : State) : Bool := decide (s.seq = .busy)

/-- `{24'b0, ERRCODE, OVR, ERR, DONE, BUSY}` (44_control.md R225, 10_state.md R35). -/
def State.status (s : State) : Word :=
  0#24 ++ s.errcode ++ flagBit s.ovr ++ flagBit s.err ++ flagBit s.done ++ flagBit s.busy

/-- `{30'b0, 0, IE}` (44_control.md R226). -/
def State.ctrl (s : State) : Word := 0#31 ++ flagBit s.ie

/-- IRQ = CTRL.IE and STATUS.DONE (10_state.md R50, 60_exceptions.md R245). -/
def State.irq (s : State) : Bool := s.ie && s.done

/-- The number of an error code (60_exceptions.md R240). -/
def ErrorCode.code : ErrorCode → BitVec 4
  | .format => 1
  | .illegal => 2
  | .nparam => 3
  | .range => 4
  | .nan => 5

/-- `complete_ok()` (60_exceptions.md R241). -/
def State.completeOk (s : State) : State :=
  { s with seq := .idle, done := true, err := false, errcode := 0#4 }

/-- `complete_err(code)` (60_exceptions.md R242): the block's whole handling of an error; no state is
saved and no vector is taken (R243). -/
def State.completeErr (s : State) (e : ErrorCode) : State :=
  { s with seq := .idle, done := true, err := true, errcode := e.code }

/-- Acceptance of a command word when SEQ = IDLE (44_control.md R221). -/
def State.accept (s : State) (w : Word) : State :=
  { s with cmdl := w, seq := .busy, done := false, err := false, errcode := 0#4 }

/-- A CMD write when SEQ = BUSY is dropped (44_control.md R222). -/
def State.dropSubmission (s : State) : State := { s with ovr := true }

/-- A write to STATUS clears DONE, ERR and OVR where the value has a 1 (44_control.md R225). -/
def State.clearFlags (s : State) (v : Word) : State :=
  { s with
    done := s.done && !v.getLsbD 1
    err := s.err && !v.getLsbD 2
    ovr := s.ovr && !v.getLsbD 3 }

end Sys2Proof.Machine
end

