-- ==== Sys2Proof/Machine/Float.lean ====
section
/-! DEFINITION. IEEE 754 binary64 arithmetic on 64-bit patterns (00_scope.md R12, 30_encoding.md R109,
41_spectral.md R163): an operand is unpacked to an exact value, the result is computed exactly (with a
sticky bit for the quotient and the root) and rounded once, to nearest, ties to even, with gradual
underflow. No operation records an exception flag (10_state.md R48). -/

namespace Sys2Proof.Machine

/-- What a binary64 pattern stands for: a NaN, an infinity, or `(-1)^neg * mant * 2^exp`. -/
inductive FClass where
  | nan
  | inf (neg : Bool)
  | fin (neg : Bool) (mant : Nat) (exp : Int)
deriving DecidableEq, Repr

/-- Bit 63, the sign (30_encoding.md R109). -/
def fSign (x : F64) : Bool := x.getLsbD 63

/-- Bits [62:52], the biased exponent (R109). -/
def fExp (x : F64) : Nat := (x.extractLsb' 52 11).toNat

/-- Bits [51:0], the fraction (R109). -/
def fFrac (x : F64) : Nat := (x.extractLsb' 0 52).toNat

/-- Read a pattern (30_encoding.md R109, bias 1023). -/
def fClass (x : F64) : FClass :=
  if fExp x = 2047 then (if fFrac x = 0 then .inf (fSign x) else .nan)
  else if fExp x = 0 then .fin (fSign x) (fFrac x) (-1074)
  else .fin (fSign x) (2 ^ 52 + fFrac x) ((fExp x : Int) - 1075)

/-- The pattern is a NaN. -/
def fIsNaN (x : F64) : Bool := decide (fClass x = .nan)

/-- The pattern is a finite number. -/
def fIsFinite (x : F64) : Bool := decide (fExp x ≠ 2047)

/-- The exact value of a finite pattern; 0 for a NaN or an infinity. -/
def fVal (x : F64) : ℚ :=
  match fClass x with
  | .fin neg m e => (if neg then -1 else 1) * (m : ℚ) * (2 : ℚ) ^ e
  | _ => 0

/-- The pattern of +infinity without its sign bit. -/
def infMag : Nat := 0x7FF0000000000000

/-- A sign and the 63 bits below it. -/
def packMag (neg : Bool) (mag : Nat) : F64 := BitVec.ofNat 64 (mag + if neg then 2 ^ 63 else 0)

/-- `m / 2^d` rounded to the nearest integer, ties to even. -/
def roundShift (m d : Nat) : Nat :=
  let hi := m / 2 ^ d
  let rest := m % 2 ^ d
  if 2 ^ d < 2 * rest ∨ (2 * rest = 2 ^ d ∧ hi % 2 = 1) then hi + 1 else hi

/-- The exponent of the last place of the binary64 number nearest to `m * 2^e`, m > 0: 53 significant
bits, but never below 2^-1074 (gradual underflow, 00_scope.md R12). -/
def lastPlace (m : Nat) (e : Int) : Int := max (e + (Nat.log2 m : Int) - 52) (-1074)

/-- `m * 2^e` rounded to binary64, without the sign: the exponent field and the fraction as one number,
so that a carry out of the fraction steps the exponent; beyond the largest number it is infinity. -/
def roundMag (m : Nat) (e : Int) : Nat :=
  if m = 0 then 0
  else
    let q := lastPlace m e
    let sig := if q ≤ e then m * 2 ^ (e - q).toNat else roundShift m (q - e).toNat
    min infMag ((q + 1074).toNat * 2 ^ 52 + sig)

/-- `(-1)^neg * m * 2^e` rounded to binary64, to nearest, ties to even (00_scope.md R12). -/
def roundPack (neg : Bool) (m : Nat) (e : Int) : F64 := packMag neg (roundMag m e)

/-- NAN_GEN: the quiet NaN an operation creates from operands that are no NaN (41_spectral.md R163);
log entry 9. -/
def genNaN (op : FOp) (x y : F64) : F64 :=
  let p := Config.nanGen op x y
  p.extractLsb' 51 1 ++ 0xFFF#12 ++ p.extractLsb' 0 51

/-- NAN_PROP: the NaN that an operation on a NaN returns (41_spectral.md R163); log entry 9. -/
def propNaN (op : FOp) (x y : F64) : F64 :=
  let p := Config.nanProp op x y
  let frac := p.extractLsb' 0 52
  p.extractLsb' 52 1 ++ 0x7FF#11 ++ (if frac = 0 then 1#52 else frac)

/-- `-x` flips the sign bit only (00_scope.md R12). -/
def fneg (x : F64) : F64 := x ^^^ 0x8000000000000000#64

/-- A magnitude with its sign. -/
def signedInt (neg : Bool) (m : Nat) : Int := if neg then -(m : Int) else (m : Int)

/-- The rounded sum of two finite values. An exact zero is +0 unless both operands are negative. -/
def addFinite (s : Bool) (m : Nat) (e : Int) (t : Bool) (n : Nat) (f : Int) : F64 :=
  let g := min e f
  let sum := signedInt s (m * 2 ^ (e - g).toNat) + signedInt t (n * 2 ^ (f - g).toNat)
  if sum = 0 then packMag (s && t) 0 else roundPack (decide (sum < 0)) sum.natAbs g

/-- `x + y` (00_scope.md R12). -/
def fadd (x y : F64) : F64 :=
  match fClass x, fClass y with
  | .nan, _ => propNaN .add x y
  | _, .nan => propNaN .add x y
  | .inf s, .inf t => if s = t then x else genNaN .add x y
  | .inf _, .fin _ _ _ => x
  | .fin _ _ _, .inf _ => y
  | .fin s m e, .fin t n f => addFinite s m e t n f

/-- `x - y` (00_scope.md R12). -/
def fsub (x y : F64) : F64 :=
  match fClass x, fClass y with
  | .nan, _ => propNaN .sub x y
  | _, .nan => propNaN .sub x y
  | .inf s, .inf t => if s = t then genNaN .sub x y else x
  | .inf _, .fin _ _ _ => x
  | .fin _ _ _, .inf _ => fneg y
  | .fin s m e, .fin t n f => addFinite s m e (!t) n f

/-- `x * y` (00_scope.md R12). -/
def fmul (x y : F64) : F64 :=
  match fClass x, fClass y with
  | .nan, _ => propNaN .mul x y
  | _, .nan => propNaN .mul x y
  | .inf s, .inf t => packMag (s ^^ t) infMag
  | .inf s, .fin t n _ => if n = 0 then genNaN .mul x y else packMag (s ^^ t) infMag
  | .fin s m _, .inf t => if m = 0 then genNaN .mul x y else packMag (s ^^ t) infMag
  | .fin s m e, .fin t n f => roundPack (s ^^ t) (m * n) (e + f)

/-- The quotient bits kept below a dividend before rounding: more than twice the significand. -/
def quotientBits : Nat := 120

/-- A truncated result with one bit below it that says whether anything was cut off. -/
def withSticky (q : Nat) (exact : Bool) : Nat := 2 * q + (if exact then 0 else 1)

/-- `x / y` (00_scope.md R12); 1/+0 is +infinity, 0/0 a NaN (41_spectral.md R163). -/
def fdiv (x y : F64) : F64 :=
  match fClass x, fClass y with
  | .nan, _ => propNaN .div x y
  | _, .nan => propNaN .div x y
  | .inf _, .inf _ => genNaN .div x y
  | .inf s, .fin t _ _ => packMag (s ^^ t) infMag
  | .fin s _ _, .inf t => packMag (s ^^ t) 0
  | .fin s m e, .fin t n f =>
    if n = 0 then (if m = 0 then genNaN .div x y else packMag (s ^^ t) infMag)
    else
      let a := m * 2 ^ quotientBits
      roundPack (s ^^ t) (withSticky (a / n) (decide (a % n = 0))) (e - f - quotientBits - 1)

/-- The integer square root found bit by bit: the largest r below 2^k above `r0` with r*r at most m. -/
def isqrtFrom : Nat → Nat → Nat → Nat
  | 0, _, r => r
  | k + 1, m, r =>
    isqrtFrom k m (if (r + 2 ^ k) * (r + 2 ^ k) ≤ m then r + 2 ^ k else r)

/-- The root bits computed: enough for every radicand below 2^180. -/
def rootBits : Nat := 90

/-- `sqrt(x)` (00_scope.md R12); the root of -0 is -0, of a negative number a NaN (41_spectral.md
R163). The radicand is scaled to an even exponent first. -/
def fsqrt (x : F64) : F64 :=
  match fClass x with
  | .nan => propNaN .sqrt x 0
  | .inf neg => if neg then genNaN .sqrt x 0 else x
  | .fin neg m e =>
    if m = 0 then x
    else if neg then genNaN .sqrt x 0
    else
      let odd := e % 2
      let a := m * 2 ^ odd.toNat * 2 ^ quotientBits
      let r := isqrtFrom rootBits a 0
      roundPack false (withSticky r (decide (r * r = a)))
        ((e - odd - quotientBits) / 2 - 1)

/-- `i2f(k)`, exact for |k| < 2^53 (00_scope.md R12). -/
def i2f (k : Int) : F64 := roundPack (decide (k < 0)) k.natAbs 0

/-- `ldexp(x, k)`, `x * 2^k`, exact when the result is normal (00_scope.md R12). -/
def ldexp (x : F64) (k : Int) : F64 :=
  match fClass x with
  | .fin neg m e => roundPack neg m (e + k)
  | _ => x

/-- The pattern without its sign bit. Magnitudes that are no NaN are ordered as these numbers are. -/
def fMag (x : F64) : Nat := x.toNat % 2 ^ 63

/-- A value kept within a magnitude, with its sign (log entry 8). -/
def keepMag (bound : Nat) (x : F64) : F64 := if fMag x ≤ bound then x else packMag (fSign x) bound

/-- The magnitude of 1.0. -/
def oneMag : Nat := 0x3FF0000000000000

/-- The largest magnitude of the sine of an angle of magnitude `a`: the angle itself, 1 - 2^-12 up to the
angle 99/64, and 1.0 beyond it (log entry 8). Every angle of the leakage filter is below 99/64, so its
values for a leakage in (-1, 1] are above 0 (41_spectral.md R170, 42_transcoder.md R193). -/
def sinBound (a : Nat) : Nat :=
  min a (if a ≤ 0x3FF8C00000000000 then 0x3FEFFE0000000000 else oneMag)

/-- SIN64 (00_scope.md R9, R12): open, but a sine (log entry 8). -/
def fsin (x : F64) : F64 := keepMag (sinBound (fMag x)) (Config.sin64 x)

/-- COS64 (00_scope.md R9, R12): open, but a cosine (log entry 8). -/
def fcos (x : F64) : F64 := keepMag oneMag (Config.cos64 x)

/-- 1.0 -/
def fOne : F64 := 0x3FF0000000000000#64

/-- 2.0 -/
def fTwo : F64 := 0x4000000000000000#64

/-- 3.0 -/
def fThree : F64 := 0x4008000000000000#64

/-- 4.0 -/
def fFour : F64 := 0x4010000000000000#64

/-- 62.5, BIN_HZ (00_scope.md R8). -/
def fBinHz : F64 := 0x404F400000000000#64

end Sys2Proof.Machine
end

