-- ==== Sys2Proof/Machine/Ops.lean ====
section
/-! DEFINITION. The named operations a command is built from: reading operands out of a buffer (an
unwritten element is a fault, 10_state.md R47), writing a prefix of a buffer, writing LEN, and ending
the command. Taking an error is the one shared operation `finishErr` (60_exceptions.md R242, R243);
the block has no trap entry and so no return from one (R243, R248). -/

namespace Sys2Proof.Machine

/-- The outcome of a step of the block. -/
abbrev Result := Host.Outcome State Fault Refusal

/-- Read BUF[0], ..., BUF[n-1] as numbers and go on with them; fault at the first unwritten one. -/
def State.withElems (s : State) (b : Buffer) (n : Nat) (k : List Nat → Result) : Result :=
  match Memory.readElems s.mem b 0 n with
  | .error i => .fault (.unwritten b i)
  | .ok vs => k vs

/-- Read BYTES[0..n-1] (10_state.md R39). -/
def State.withBytes (s : State) (n : Nat) (k : List Byte → Result) : Result :=
  s.withElems .bytes n (fun vs => k (vs.map (BitVec.ofNat 8)))

/-- Read WORDS[0..n-1] (10_state.md R40). -/
def State.withWords (s : State) (n : Nat) (k : List Word → Result) : Result :=
  s.withElems .words n (fun vs => k (vs.map (BitVec.ofNat 32)))

/-- Read the first n elements of a binary64 buffer (10_state.md R41 to R46). -/
def State.withF64s (s : State) (b : Buffer) (n : Nat) (k : List F64 → Result) : Result :=
  s.withElems b n (fun vs => k (vs.map (BitVec.ofNat 64)))

/-- Write BYTES[0], BYTES[1], ... -/
def State.setBytes (s : State) (vs : List Byte) : State :=
  { s with mem := Memory.writePrefix s.mem .bytes (vs.map BitVec.toNat) }

/-- Write WORDS[0], WORDS[1], ... -/
def State.setWords (s : State) (vs : List Word) : State :=
  { s with mem := Memory.writePrefix s.mem .words (vs.map BitVec.toNat) }

/-- Write the first elements of a binary64 buffer. -/
def State.setF64s (s : State) (b : Buffer) (vs : List F64) : State :=
  { s with mem := Memory.writePrefix s.mem b (vs.map BitVec.toNat) }

/-- Write LEN (10_state.md R36). -/
def State.setLen (s : State) (n : Nat) : State := { s with len := BitVec.ofNat 9 n }

/-- A buffer's first n elements become unspecified and unwritten (70_reset_and_hazards.md R272). -/
def State.forget (s : State) (b : Buffer) (n : Nat) : State :=
  { s with mem := Memory.forgetPrefix s.mem b n }

/-- End a command without error (60_exceptions.md R241). -/
def finishOk (s : State) : Result := .next s.completeOk

/-- End a command with an error: nothing but STATUS and SEQ changes (60_exceptions.md R242, 44_control.md
R224). -/
def finishErr (e : ErrorCode) (s : State) : Result := .next (s.completeErr e)

/-- Make the checks of 60_exceptions.md R246 first: an error ends the command, no error lets it run. -/
def checked (c : Option ErrorCode) (s : State) (run : Result) : Result :=
  match c with
  | some e => finishErr e s
  | none => run

end Sys2Proof.Machine
end

