-- ==== Sys2Proof/Machine/Operands.lean ====
section
/-! DEFINITION. The operand forms of the commands (30_encoding.md R111) and the checks made on them
before a command runs (60_exceptions.md R244, R246). -/

namespace Sys2Proof.Machine

/-- ARG as a count or as n_half: an unsigned integer, never sign-extended or scaled (R111). -/
def argCount (a : BitVec 8) : Nat := a.toNat

/-- ARG as the log2 of a length: n = 2^a (R111). -/
def argLength (a : BitVec 8) : Nat := 2 ^ a.toNat

/-- LEN as a number of bytes (10_state.md R36). -/
def State.lenBytes (s : State) : Nat := s.len.toNat

/-- N_BYTES, the length of a wire record (00_scope.md R8). -/
def recordBytes : Nat := 423

/-- N_WORDS, the words of a wire record (00_scope.md R8). -/
def recordWords : Nat := 141

/-- N_TAPS (00_scope.md R8). -/
def tapCount : Nat := 128

/-- N_PARAMS (00_scope.md R8). -/
def paramCount : Nat := 13

/-- N_FFT_MAX (00_scope.md R8). -/
def fftMax : Nat := 128

/-- N_MAG (00_scope.md R8). -/
def magCount : Nat := 64

/-- E_RANGE when a count is above a buffer's capacity (R240 code 4, R246). -/
def checkCount (n capacity : Nat) : Option ErrorCode := if capacity < n then some .range else none

/-- E_NPARAM when the length 2^a is not in {4, ..., 128} (R240 code 3, R246). -/
def checkLength (a : BitVec 8) : Option ErrorCode :=
  if a.toNat < 2 ∨ 7 < a.toNat then some .nparam else none

/-- DEC24: E_RANGE when LEN > 423, then E_FORMAT when LEN is no multiple of 3 (R244, R246). -/
def checkStream (len : Nat) : Option ErrorCode :=
  if recordBytes < len then some .range
  else if len % 3 ≠ 0 then some .format
  else none

/-- DECODE_MODEL: E_FORMAT when LEN is not 423 (R246). -/
def checkRecord (len : Nat) : Option ErrorCode := if len ≠ recordBytes then some .format else none

/-- ENCODE_MODEL: E_NAN when an input is a NaN (R246). -/
def checkNaN (xs : List F64) : Option ErrorCode := if xs.any fIsNaN then some .nan else none

end Sys2Proof.Machine
end

