-- ==== Sys2Proof/Machine/Bus.lean ====
section
/-! DEFINITION. The host's side of the block: what stands at an offset (20_memory.md R72), the value a
read returns and the effect of a write (44_control.md R221 to R228), which accesses are held (R81), bus
errors (R71), and the soft reset with the write set of a cancelled command (70_reset_and_hazards.md
R272). -/

namespace Sys2Proof.Machine

/-- What a bus word of the aperture holds (20_memory.md R72). -/
inductive Slot where
  | id | cmd | status | len | leakageLo | leakageHi | ctrl
  /-- Element i of a buffer; `half` is 1 for bits [63:32] of a binary64 element, else 0. -/
  | elem (b : Buffer) (i : Nat) (half : Nat)
  /-- A reserved offset (20_memory.md R74). -/
  | reserved
deriving DecidableEq, Repr

/-- The buffers in the order of the map (20_memory.md R72). -/
def allBuffers : List Buffer := [.bytes, .words, .data, .mag, .freq, .leak, .tap, .param]

/-- The buffer whose window holds an offset. -/
def bufferAt (a : Nat) : Option Buffer :=
  allBuffers.find? fun b => decide (b.base ≤ a) && decide (a < b.limit)

/-- The slot at an offset (20_memory.md R72). -/
def slotAt (a : Nat) : Slot :=
  if a = 0x000 then .id
  else if a = 0x004 then .cmd
  else if a = 0x008 then .status
  else if a = 0x00C then .len
  else if a = 0x010 then .leakageLo
  else if a = 0x014 then .leakageHi
  else if a = 0x018 then .ctrl
  else match bufferAt a with
    | some b => .elem b ((a - b.base) / b.stride) ((a - b.base) % b.stride / 4)
    | none => .reserved

/-- The offset of a bus address inside the aperture at BASE; none outside it (20_memory.md R70). -/
def busOffset (address : Nat) : Option Offset :=
  if Config.base ≤ address ∧ address < Config.base + 0x4000 then
    some (BitVec.ofNat 14 (address - Config.base))
  else none

/-- The offset an access names. -/
def BusOp.offset : BusOp → Offset
  | .read _ off => off
  | .write _ off _ => off

/-- The width of an access. -/
def BusOp.accessWidth : BusOp → AccessWidth
  | .read w _ => w
  | .write w _ _ => w

/-- The block serves 32-bit accesses at multiples of 4 only (20_memory.md R71). -/
def BusOp.served (op : BusOp) : Bool :=
  decide (op.accessWidth = .w32) && decide (op.offset.toNat % 4 = 0)

/-- The offsets whose accesses are held while BUSY (20_memory.md R81). -/
def heldOffset (a : Nat) : Bool :=
  decide (a = 0x00C) || decide (a = 0x010) || decide (a = 0x014) || decide (0x0400 ≤ a)

/-- The access cannot be performed now: the command in progress completes first (20_memory.md R81). An
access that is answered with a bus error is not held (log entry 2). -/
def State.holds (s : State) (op : BusOp) : Bool :=
  s.busy && op.served && heldOffset op.offset.toNat

/-! ### Soft reset -/

/-- A binary64 buffer holds a NaN among its first n written elements. -/
def State.anyNaN (s : State) (b : Buffer) (n : Nat) : Bool :=
  (List.range n).any fun i => (s.f64At b i).any fIsNaN

/-- Forget a prefix of a buffer, unless the cancelled command would have ended with an error: then it
would have written nothing (70_reset_and_hazards.md R272). -/
def State.forgetUnless (s : State) (c : Option ErrorCode) (b : Buffer) (n : Nat) : State :=
  match c with
  | some _ => s
  | none => s.forget b n

/-- Forget the write set of a cancelled command (70_reset_and_hazards.md R272). -/
def State.cancel (s : State) : Instr → State
  | .nop => s
  | .enc24 c => s.forgetUnless (checkCount (argCount c) recordWords) .bytes (3 * argCount c)
  | .dec24 => s.forgetUnless (checkStream s.lenBytes) .words (s.lenBytes / 3)
  | .fft m => s.forgetUnless (checkLength m) .data (argLength m)
  | .leakf h => s.forgetUnless (checkCount (argCount h) magCount) .leak (argCount h)
  | .untangle m => s.forgetUnless (checkLength m) .mag (argLength m / 2)
  | .untangleLeak m => s.forgetUnless (checkLength m) .mag (argLength m / 2)
  | .decodeModelImp => forgetModel s
  | .decodeModelExc => forgetModel s
  | .encodeModel =>
    if s.anyNaN .tap tapCount || s.anyNaN .param paramCount then s
    else (s.forget .words recordWords).forget .bytes recordBytes
where
  /-- DECODE_MODEL writes all of WORDS, TAP, PARAM, DATA, MAG and FREQ. -/
  forgetModel (s : State) : State :=
    match checkRecord s.lenBytes with
    | some _ => s
    | none =>
      (((((s.forget .words recordWords).forget .tap tapCount).forget .param paramCount).forget .data
        fftMax).forget .mag magCount).forget .freq magCount

/-- The command in progress is cancelled; an illegal word would have written nothing. -/
def State.cancelCommand (s : State) : State :=
  match s.seq, decode s.cmdl with
  | .busy, .ok i => s.cancel i
  | _, _ => s

/-- Every register at its reset value (10_state.md R51), the buffers as they are. -/
def State.resetRegisters (s : State) : State :=
  { s with
    seq := .idle, cmdl := 0#32, done := false, err := false, ovr := false, errcode := 0#4
    len := 0#9, leakage := 0#64, ie := false }

/-- The soft reset (70_reset_and_hazards.md R272). -/
def State.softReset (s : State) : State := s.cancelCommand.resetRegisters

/-! ### Host accesses -/

/-- One half of a 64-bit value, or the whole of a narrower one, as a bus word. -/
def halfWord (v half : Nat) : Word := BitVec.ofNat 32 (v / 2 ^ (32 * half))

/-- The value a read of a slot returns (44_control.md R225 to R228, 20_memory.md R74 to R77). -/
def State.readSlot (s : State) : Slot → Except Fault Word
  | .id => .ok Config.idValue
  | .cmd => .ok s.cmdl
  | .status => .ok s.status
  | .len => .ok (s.len.setWidth 32)
  | .leakageLo => .ok (s.leakage.extractLsb' 0 32)
  | .leakageHi => .ok (s.leakage.extractLsb' 32 32)
  | .ctrl => .ok s.ctrl
  | .elem b i half =>
    match Memory.readElem s.mem b i with
    | some v => .ok (halfWord v half)
    | none => .error (.unwritten b i)
  | .reserved => .ok 0#32

/-- The bytes a bus word of a buffer stores: the low 8 bits for BYTES, all 32 for the others
(20_memory.md R75 to R77). -/
def storedBytes (b : Buffer) (v : Word) : List Byte := leBytes (min b.width 4) v.toNat

/-- Write one bus word of a buffer: an element, or one half of a binary64 element (44_control.md
R228). -/
def State.writeElem (s : State) (b : Buffer) (i half : Nat) (v : Word) : State :=
  { s with mem := Memory.writeAt s.mem (b.addr i + 4 * half) (storedBytes b v) }

/-- A CMD write: accepted when SEQ = IDLE, dropped when BUSY (44_control.md R221, R222). -/
def State.submit (s : State) (w : Word) : State :=
  match s.seq with
  | .idle => s.accept w
  | .busy => s.dropSubmission

/-- A CTRL write: IE, then the soft reset where bit 1 is set (44_control.md R226). -/
def State.writeCtrl (s : State) (v : Word) : State :=
  let s' := { s with ie := v.getLsbD 0 }
  if v.getLsbD 1 then s'.softReset else s'

/-- The effect of a write to a slot (44_control.md R221 to R228, 20_memory.md R74). -/
def State.writeSlot (s : State) (v : Word) : Slot → State
  | .id => s
  | .cmd => s.submit v
  | .status => s.clearFlags v
  | .len => { s with len := v.extractLsb' 0 9 }
  | .leakageLo => { s with leakage := s.leakage.extractLsb' 32 32 ++ v }
  | .leakageHi => { s with leakage := v ++ s.leakage.extractLsb' 0 32 }
  | .ctrl => s.writeCtrl v
  | .elem b i half => s.writeElem b i half v
  | .reserved => s

/-- The bus answers the host. -/
def State.reply (s : State) (a : BusAnswer) : State := { s with answer := some a }

/-- Perform one host access (20_memory.md R71 to R80). An access that is not served changes nothing and
is answered with a bus error (R71, 60_exceptions.md R247; log entry 1). -/
def hostAccess (op : BusOp) (s : State) : Result :=
  if op.served then
    match op with
    | .read _ off =>
      match s.readSlot (slotAt off.toNat) with
      | .ok v => .next (s.reply (.data v))
      | .error f => .fault f
    | .write _ off v => .next ((s.writeSlot v (slotAt off.toNat)).reply .done)
  else .next (s.reply .busError)

end Sys2Proof.Machine
end

