-- ==== Sys2Proof/Machine/Codec.lean ====
section
/-! DEFINITION. The fixed-point codec (40_codec.md): the functions encode24 (R141) and decode24 (R143)
and the commands ENC24 (R140) and DEC24 (R142). -/

namespace Sys2Proof.Machine

/-- `clamp24(v)` (00_scope.md R11). -/
def clamp24 (v : Int) : Int := max (-2 ^ 23) (min (2 ^ 23 - 1) v)

/-- `sat32(v)` (00_scope.md R11). -/
def sat32 (v : Int) : Int := max (-2 ^ 31) (min (2 ^ 31 - 1) v)

/-- `u24(v)`, the 24-bit two's-complement pattern (00_scope.md R11). -/
def u24 (v : Int) : Wire := BitVec.ofInt 24 v

/-- The three bytes of a wire word, the most significant first (30_encoding.md R105). -/
def wireBytes (p : Wire) : List Byte := [p.extractLsb' 16 8, p.extractLsb' 8 8, p.extractLsb' 0 8]

/-- The wire word of three bytes in stream order (30_encoding.md R105). -/
def wireWord (b0 b1 b2 : Byte) : Wire := b0 ++ b1 ++ b2

/-- `sext_24`, as an i32 pattern (00_scope.md R11, 40_codec.md R143). -/
def sext24 (p : Wire) : Word := BitVec.ofInt 32 p.toInt

/-- The bytes of one value: clamped to 24 bits, most significant byte first (40_codec.md R141). -/
def encodeOne (v : Word) : List Byte := wireBytes (u24 (clamp24 v.toInt))

/-- `encode24` (40_codec.md R141). -/
def encode24 (vs : List Word) : List Byte := vs.flatMap encodeOne

/-- `decode24` (40_codec.md R143): defined when the length is a multiple of 3. -/
def decode24 : List Byte → Option (List Word)
  | [] => some []
  | b0 :: b1 :: b2 :: rest => (decode24 rest).map (sext24 (wireWord b0 b1 b2) :: ·)
  | _ => none

/-- ENC24 c (40_codec.md R140). -/
def execEnc24 (c : BitVec 8) (s : State) : Result :=
  checked (checkCount (argCount c) recordWords) s <|
    s.withWords (argCount c) fun vs =>
      finishOk ((s.setBytes (encode24 vs)).setLen (3 * argCount c))

/-- DEC24 (40_codec.md R142). The length was checked, so `decode24` is defined. -/
def execDec24 (s : State) : Result :=
  checked (checkStream s.lenBytes) s <|
    s.withBytes s.lenBytes fun bs =>
      match decode24 bs with
      | some vs => finishOk (s.setWords vs)
      | none => finishErr .format s

end Sys2Proof.Machine
end

