-- ==== Sys2Proof/Machine/Control.lean ====
section
/-! DEFINITION. The NOP command (44_control.md R220). -/

namespace Sys2Proof.Machine

/-- NOP: `complete_ok()` (44_control.md R220). -/
def execNop (s : State) : Result := finishOk s

end Sys2Proof.Machine
end

