-- ==== Sys2Proof/Machine/Spectral.lean ====
section
/-! DEFINITION. The spectral engine (41_spectral.md): the FFT's operation sequence (R162), the leakage
filter (R171), untangle (R173, R174, R176) and the commands FFT, LEAKF, UNTANGLE and UNTANGLE_LEAK.
The functions take the sine and the cosine as arguments; the commands give them SIN64 and COS64
(00_scope.md R9). The buffer's local copy `D` of R162 is a list; `repeat` and `while` carry a bound on
their rounds, which the lengths of R162 never reach. -/

namespace Sys2Proof.Machine

/-- `D[i]`. -/
def dGet (d : List F64) (i : Nat) : F64 := d.getD i 0#64

/-- `D[i] <- x`. -/
def dSet (d : List F64) (i : Nat) (x : F64) : List F64 := d.set i x

/-! ### R162 (1): the bit-reversal permutation -/

/-- `while k <= j: j <- j - k; k <- k/2`, then `j <- j + k`. -/
def nextReversed : Nat → Nat → Nat → Nat
  | 0, j, k => j + k
  | fuel + 1, j, k => if k ≤ j then nextReversed fuel (j - k) (k / 2) else j + k

/-- `if i < j: (D[i], D[j]) <- (D[j], D[i])`. -/
def swapIfBelow (i j : Nat) (d : List F64) : List F64 :=
  if i < j then dSet (dSet d i (dGet d j)) j (dGet d i) else d

/-- The loop over i of R162 (1), `rounds` rounds from index i with the reversed index j. -/
def permuteFrom (n : Nat) : Nat → Nat → Nat → List F64 → List F64
  | 0, _, _, d => d
  | rounds + 1, i, j, d =>
    permuteFrom n rounds (i + 1) (nextReversed n j (n / 2)) (swapIfBelow i j d)

/-- R162 (1). -/
def bitReverse (n : Nat) (d : List F64) : List F64 := permuteFrom n (n - 1) 0 0 d

/-! ### The index pattern shared by R162 (2) and (3) -/

/-- `while i < limit: body; i <- i + step`. -/
def strideLoop (limit step : Nat) (body : Nat → List F64 → List F64) :
    Nat → Nat → List F64 → List F64
  | 0, _, d => d
  | fuel + 1, i, d =>
    if i < limit then strideLoop limit step body fuel (i + step) (body i d) else d

/-- `repeat: (while i < limit ...); i <- 2*id - off; id <- 4*id until i >= limit`. -/
def lShapedLoop (limit off : Nat) (body : Nat → List F64 → List F64) :
    Nat → Nat → Nat → List F64 → List F64
  | 0, _, _, d => d
  | fuel + 1, i, id, d =>
    let d' := strideLoop limit id body limit i d
    let i' := 2 * id - off
    if i' < limit then lShapedLoop limit off body fuel i' (4 * id) d' else d'

/-! ### R162 (2): length-2 butterflies -/

/-- The butterfly of D[i0] and D[i0+1]. -/
def butterfly2 (i0 : Nat) (d : List F64) : List F64 :=
  let t1 := dGet d i0
  let d := dSet d i0 (fadd t1 (dGet d (i0 + 1)))
  dSet d (i0 + 1) (fsub t1 (dGet d (i0 + 1)))

/-- R162 (2). -/
def length2Stage (n : Nat) (d : List F64) : List F64 := lShapedLoop (n - 1) 2 butterfly2 n 0 4 d

/-! ### R162 (3): L-shaped butterflies -/

/-- `SQRT2 <- sqrt(2.0)`. -/
def sqrt2 : F64 := fsqrt fTwo

/-- The part of a stage's first loop before `if n4 != 1`. -/
def combineEdge (n4 i1 : Nat) (d : List F64) : List F64 :=
  let i3 := i1 + n4 + n4
  let i4 := i3 + n4
  let t1 := fadd (dGet d i4) (dGet d i3)
  let d := dSet d i4 (fsub (dGet d i4) (dGet d i3))
  let d := dSet d i3 (fsub (dGet d i1) t1)
  dSet d i1 (fadd (dGet d i1) t1)

/-- The part under `if n4 != 1`: the middle elements, divided by sqrt(2). -/
def combineMiddle (n4 n8 i1 : Nat) (d : List F64) : List F64 :=
  let i0 := i1 + n8
  let i2 := i1 + n4 + n8
  let i3 := i1 + n4 + n4 + n8
  let i4 := i1 + n4 + n4 + n4 + n8
  let t1 := fdiv (fadd (dGet d i3) (dGet d i4)) sqrt2
  let t2 := fdiv (fsub (dGet d i3) (dGet d i4)) sqrt2
  let d := dSet d i4 (fsub (dGet d i2) t1)
  let d := dSet d i3 (fsub (fneg (dGet d i2)) t1)
  let d := dSet d i2 (fsub (dGet d i0) t2)
  dSet d i0 (fadd (dGet d i0) t2)

/-- The body of a stage's first loop. -/
def combine (n4 n8 i1 : Nat) (d : List F64) : List F64 :=
  let d := combineEdge n4 i1 d
  if n4 ≠ 1 then combineMiddle n4 n8 i1 d else d

/-- The twiddle factors cc1, ss1, cc3, ss3 of one index (R162). -/
structure Twiddle where
  cc1 : F64
  ss1 : F64
  cc3 : F64
  ss3 : F64
deriving DecidableEq, Repr

/-- The twiddle factors of the angle a: `a3 <- 3.0 * a`, then the cosines and sines of a and a3. -/
def twiddleAt (sn cs : F64 → F64) (a : F64) : Twiddle :=
  let a3 := fmul fThree a
  { cc1 := cs a, ss1 := sn a, cc3 := cs a3, ss3 := sn a3 }

/-- The body of the twiddle loop for the index jj and the position i. -/
def rotate (n4 jj : Nat) (w : Twiddle) (i : Nat) (d : List F64) : List F64 :=
  let i1 := i + jj - 1
  let i2 := i1 + n4
  let i3 := i2 + n4
  let i4 := i3 + n4
  let i5 := i + n4 - jj + 1
  let i6 := i5 + n4
  let i7 := i6 + n4
  let i8 := i7 + n4
  let t1 := fadd (fmul (dGet d i3) w.cc1) (fmul (dGet d i7) w.ss1)
  let t2 := fsub (fmul (dGet d i7) w.cc1) (fmul (dGet d i3) w.ss1)
  let t3 := fadd (fmul (dGet d i4) w.cc3) (fmul (dGet d i8) w.ss3)
  let t4 := fsub (fmul (dGet d i8) w.cc3) (fmul (dGet d i4) w.ss3)
  let t5 := fadd t1 t3
  let t6 := fadd t2 t4
  let t3 := fsub t1 t3
  let t4 := fsub t2 t4
  let t2 := fadd (dGet d i6) t6
  let d := dSet d i3 (fsub t6 (dGet d i6))
  let d := dSet d i8 t2
  let t2 := fsub (dGet d i2) t3
  let d := dSet d i7 (fsub (fneg (dGet d i2)) t3)
  let d := dSet d i4 t2
  let t1 := fadd (dGet d i1) t5
  let d := dSet d i6 (fsub (dGet d i1) t5)
  let d := dSet d i1 t1
  let t1 := fadd (dGet d i5) t4
  let d := dSet d i5 (fsub (dGet d i5) t4)
  dSet d i2 t1

/-- The loop over jj of a stage: `rounds` rounds from jj on, with the angle a of the current round; the
next round's angle is `i2f(jj) * e`. -/
def twiddleLoop (sn cs : F64 → F64) (n n2 n4 : Nat) (e : F64) :
    Nat → Nat → F64 → List F64 → List F64
  | 0, _, _, d => d
  | rounds + 1, jj, a, d =>
    let w := twiddleAt sn cs a
    let d' := lShapedLoop n n2 (rotate n4 jj w) n 0 (2 * n2) d
    twiddleLoop sn cs n n2 n4 e rounds (jj + 1) (fmul (i2f jj) e) d'

/-- One stage of R162 (3) at the length n2. -/
def combineStage (sn cs : F64 → F64) (n n2 : Nat) (d : List F64) : List F64 :=
  let n4 := n2 / 4
  let n8 := n2 / 8
  let e := fdiv (fmul fTwo Config.pi64) (i2f n2)
  let d := lShapedLoop n n2 (combine n4 n8) n 0 (2 * n2) d
  twiddleLoop sn cs n n2 n4 e (n8 - 1) 2 e d

/-- The stages s in [1, m): `rounds` of them, the first at the length n2. -/
def combineStages (sn cs : F64 → F64) (n : Nat) : Nat → Nat → List F64 → List F64
  | 0, _, d => d
  | rounds + 1, n2, d => combineStages sn cs n rounds (2 * n2) (combineStage sn cs n n2 d)

/-- `RFFT(n)` with n = 2^m on D = DATA[0..n-1] (41_spectral.md R162). -/
def rfft (sn cs : F64 → F64) (m : Nat) (d : List F64) : List F64 :=
  let n := 2 ^ m
  combineStages sn cs n (m - 1) 4 (length2Stage n (bitReverse n d))

/-! ### The leakage filter and untangle -/

/-- f_i of the leakage filter (41_spectral.md R171). -/
def leakageAt (sn : F64 → F64) (nHalf : Nat) (l : F64) (i : Nat) : F64 :=
  let t := fdiv (fmul Config.pi64 (i2f i)) (i2f (2 * nHalf : Nat))
  let s := sn t
  let s2 := fmul s s
  fsqrt (fsub (fmul (fadd fOne l) (fadd fOne l)) (fmul (fmul fFour l) s2))

/-- `leakage_filter(n_half, l)` (41_spectral.md R171). -/
def leakageFilter (sn : F64 → F64) (nHalf : Nat) (l : F64) : List F64 :=
  (List.range nHalf).map (leakageAt sn nHalf l)

/-- `|x|`: the sign bit cleared (used by the alternatives of R174 only). -/
def fabs (x : F64) : F64 := x &&& 0x7FFFFFFFFFFFFFFF#64

/-- `BIN0(r0, rN)` (41_spectral.md R174). -/
def bin0 : Bin0Rule → F64 → F64 → F64
  | .hypot, r0, rN => fsqrt (fadd (fmul r0 r0) (fmul rN rN))
  | .absSum, r0, rN => fabs (fadd r0 rN)
  | .absDc, r0, _ => fabs r0

/-- m_i of untangle (41_spectral.md R173). -/
def untangleAt (rule : Bin0Rule) (n : Nat) (d : List F64) (i : Nat) : F64 :=
  if i = 0 then bin0 rule (dGet d 0) (dGet d (n / 2))
  else fsqrt (fadd (fmul (dGet d i) (dGet d i)) (fmul (dGet d (n - i)) (dGet d (n - i))))

/-- `untangle(n)` (41_spectral.md R173). -/
def untangle (rule : Bin0Rule) (n : Nat) (d : List F64) : List F64 :=
  (List.range (n / 2)).map (untangleAt rule n d)

/-- `untangle_leakage(n, l)` (41_spectral.md R176). -/
def untangleLeakage (sn : F64 → F64) (rule : Bin0Rule) (n : Nat) (l : F64) (d : List F64) : List F64 :=
  List.zipWith fdiv (untangle rule n d) (leakageFilter sn (n / 2) l)

/-! ### The commands -/

/-- FFT n, n = 2^m (41_spectral.md R160). -/
def execFft (m : BitVec 8) (s : State) : Result :=
  checked (checkLength m) s <|
    s.withF64s .data (argLength m) fun d =>
      finishOk (s.setF64s .data (rfft fsin fcos m.toNat d))

/-- LEAKF h (41_spectral.md R170). -/
def execLeakf (h : BitVec 8) (s : State) : Result :=
  checked (checkCount (argCount h) magCount) s <|
    finishOk (s.setF64s .leak (leakageFilter fsin (argCount h) s.leakage))

/-- UNTANGLE n, n = 2^m (41_spectral.md R172). -/
def execUntangle (m : BitVec 8) (s : State) : Result :=
  checked (checkLength m) s <|
    s.withF64s .data (argLength m) fun d =>
      finishOk (s.setF64s .mag (untangle Config.untangleBin0 (argLength m) d))

/-- UNTANGLE_LEAK n, n = 2^m (41_spectral.md R175). -/
def execUntangleLeak (m : BitVec 8) (s : State) : Result :=
  checked (checkLength m) s <|
    s.withF64s .data (argLength m) fun d =>
      finishOk (s.setF64s .mag
        (untangleLeakage fsin Config.untangleBin0 (argLength m) s.leakage d))

end Sys2Proof.Machine
end

