-- ==== Sys2Proof/Machine/Transcoder.lean ====
section
/-! DEFINITION. The speaker-model transcoder (42_transcoder.md): decode scaling (R190), encode
conversion (R195), the frequency axis (R194), and the commands DECODE_MODEL.IMP (R192),
DECODE_MODEL.EXC (R193), both over the shared body of R191, and ENCODE_MODEL (R196). -/

namespace Sys2Proof.Machine

/-- TAP_FRAC (00_scope.md R8). -/
def tapFrac : Nat := 22

/-- FRAC[j] of the 13 scalars, in wire order (10_state.md R46). -/
def paramFracs : List Nat := [0, 23, 23, 21, 21, 21, 21, 0, 0, 17, 16, 14, 23]

/-- The fractional bits of the 141 words of a record, in wire order (30_encoding.md R106). -/
def recordFracs : List Nat := List.replicate tapCount tapFrac ++ paramFracs

/-- Decode scaling of a wire integer with F fractional bits, `ldexp(i2f(w), -F)` (42_transcoder.md
R190). -/
def scaleWord (w : Word) (frac : Nat) : F64 := ldexp (i2f w.toInt) (-(frac : Int))

/-- `|x| * 2^F` for the finite `x = m * 2^e`, rounded half away from zero (42_transcoder.md R195). -/
def roundHalfAway (m : Nat) (k : Int) : Nat :=
  if 0 ≤ k then m * 2 ^ k.toNat
  else (2 * m + 2 ^ (-k).toNat) / 2 ^ ((-k).toNat + 1)

/-- `to_int(x, F)` (42_transcoder.md R195). A NaN has no integer; ENCODE_MODEL has turned it away. -/
def toInt (x : F64) (frac : Nat) : Int :=
  match fClass x with
  | .nan => 0
  | .inf neg => if neg then -2 ^ 31 else 2 ^ 31 - 1
  | .fin neg m e => sat32 (signedInt neg (roundHalfAway m (e + frac)))

/-- `to_int` as the i32 pattern stored in WORDS. -/
def toWord (x : F64) (frac : Nat) : Word := BitVec.ofInt 32 (toInt x frac)

/-- The model kind that the T bit selects (30_encoding.md R100, R110). -/
inductive ModelKind where
  | impedance | excursion
deriving DecidableEq, Repr

/-- The real values of the 141 fields of a record: 128 taps, then 13 scalars (R191 step 2). -/
def scaleRecord (ws : List Word) : List F64 := List.zipWith scaleWord ws recordFracs

/-- The FFT's input: the taps in order, or reversed for the excursion model (R191 step 3). -/
def orderTaps (kind : ModelKind) (taps : List F64) : List F64 :=
  match kind with
  | .impedance => taps
  | .excursion => taps.reverse

/-- The packed spectrum of the taps (R191 step 4). -/
def modelSpectrum (sn cs : F64 → F64) (kind : ModelKind) (taps : List F64) : List F64 :=
  rfft sn cs 7 (orderTaps kind taps)

/-- PARAM[1], leakageFactor (10_state.md R46). -/
def leakageFactor (params : List F64) : F64 := dGet params 1

/-- The magnitude column: 1/m_k, or the doubled leakage-normalised magnitude with `leakage =
-leakageFactor` (R191 step 5). -/
def modelMagnitudes (sn : F64 → F64) (kind : ModelKind) (params spectrum : List F64) : List F64 :=
  match kind with
  | .impedance => (untangle Config.untangleBin0 fftMax spectrum).map (fdiv fOne)
  | .excursion =>
    (untangleLeakage sn Config.untangleBin0 fftMax (fneg (leakageFactor params)) spectrum).map
      (fmul fTwo)

/-- The first bin of the frequency axis, `t * EXC_FREQ_OFFSET` (R191 step 6, R194). -/
def firstBin : ModelKind → Nat
  | .impedance => 0
  | .excursion => Config.excFreqOffset

/-- The frequency column `62.5 * i2f(k + t * EXC_FREQ_OFFSET)` (R191 step 6, R194). -/
def frequencyAxis (kind : ModelKind) : List F64 :=
  (List.range magCount).map fun k => fmul fBinHz (i2f (k + firstBin kind : Nat))

/-- The buffers DECODE_MODEL writes from the 141 wire words (R191): WORDS, TAP, PARAM, DATA, MAG,
FREQ. -/
def State.setModel (s : State) (kind : ModelKind) (ws : List Word) : State :=
  let fields := scaleRecord ws
  let taps := fields.take tapCount
  let params := fields.drop tapCount
  let spectrum := modelSpectrum fsin fcos kind taps
  let s := s.setWords ws
  let s := s.setF64s .tap taps
  let s := s.setF64s .param params
  let s := s.setF64s .data spectrum
  let s := s.setF64s .mag (modelMagnitudes fsin kind params spectrum)
  s.setF64s .freq (frequencyAxis kind)

/-- `DECODE_BODY(t)` (42_transcoder.md R191). The length was checked, so `decode24` is defined. -/
def decodeBody (kind : ModelKind) (s : State) : Result :=
  checked (checkRecord s.lenBytes) s <|
    s.withBytes recordBytes fun bs =>
      match decode24 bs with
      | some ws => finishOk (s.setModel kind ws)
      | none => finishErr .format s

/-- DECODE_MODEL.IMP (42_transcoder.md R192). -/
def execDecodeModelImp (s : State) : Result := decodeBody .impedance s

/-- DECODE_MODEL.EXC (42_transcoder.md R193). -/
def execDecodeModelExc (s : State) : Result := decodeBody .excursion s

/-- The integers ENCODE_MODEL stores in WORDS (42_transcoder.md R195, R196). -/
def modelWords (fields : List F64) : List Word := List.zipWith toWord fields recordFracs

/-- ENCODE_MODEL (42_transcoder.md R196): WORDS holds the integers before the 24-bit clamp. -/
def execEncodeModel (s : State) : Result :=
  s.withF64s .tap tapCount fun taps =>
    s.withF64s .param paramCount fun params =>
      checked (checkNaN (taps ++ params)) s <|
        let ws := modelWords (taps ++ params)
        finishOk (((s.setWords ws).setBytes (encode24 ws)).setLen recordBytes)

end Sys2Proof.Machine
end

