-- ==== Sys2Proof/Machine/Dispatch.lean ====
section
/-! DEFINITION. The dispatch of a decoded command to its meaning, at its completion step
(44_control.md R223). -/

namespace Sys2Proof.Machine

open Host

def exec (i : Instr) (s : State) : Host.Outcome State Fault Refusal :=
  match i with
  | .nop => Sys2Proof.Machine.execNop s
  | .enc24 c => Sys2Proof.Machine.execEnc24 c s
  | .dec24 => Sys2Proof.Machine.execDec24 s
  | .fft m => Sys2Proof.Machine.execFft m s
  | .leakf h => Sys2Proof.Machine.execLeakf h s
  | .untangle m => Sys2Proof.Machine.execUntangle m s
  | .untangleLeak m => Sys2Proof.Machine.execUntangleLeak m s
  | .decodeModelImp => Sys2Proof.Machine.execDecodeModelImp s
  | .decodeModelExc => Sys2Proof.Machine.execDecodeModelExc s
  | .encodeModel => Sys2Proof.Machine.execEncodeModel s

end Sys2Proof.Machine
end

