-- ==== Sys2Proof/Machine/Step.lean ====
section
/-! DEFINITION. One step of the block: the next host access or the sequencer's step, in the total order
of 20_memory.md R82, which the state's agenda holds (log entry 3). -/

namespace Sys2Proof.Machine

/-- The sequencer's completion step (44_control.md R223): decode CMDL and run the command; an illegal
word completes with E_ILLEGAL (30_encoding.md R112). -/
def completeCommand (s : State) : Result :=
  match decode s.cmdl with
  | .ok i => exec i s
  | .error _ => finishErr .illegal s

/-- The sequencer's turn: it has exactly one step when BUSY and none when IDLE (44_control.md R223). -/
def sequencerTurn (s : State) : Result :=
  match s.seq with
  | .busy => completeCommand s
  | .idle => .next s

/-- The state without the first entry of its agenda. -/
def State.popTurn (s : State) : State := { s with agenda := s.agenda.tail }

/-- One step. A held access waits, and the command in progress completes first (20_memory.md R81). When
the agenda is empty the command in progress completes, and an idle block waits for a CMD write
(70_reset_and_hazards.md R270, R276). -/
def step (s : State) : Host.Outcome State Fault Refusal :=
  match s.agenda with
  | [] => sequencerTurn s
  | .sequencer :: _ => sequencerTurn s.popTurn
  | .host op :: _ => if s.holds op then sequencerTurn s else hostAccess op s.popTurn

/-- The next step is the sequencer's. -/
def State.sequencerNext (s : State) : Bool :=
  match s.agenda with
  | [] => true
  | .sequencer :: _ => true
  | .host _ :: _ => false

/-- The state just after an idle block accepted the command word `w` (44_control.md R221), with the
sequencer's completion next, so that the very next step runs it. The block fetches no instruction
(10_state.md R32): the word in CMDL is the one it runs (log entry 5). -/
def State.withFetchWord (s : State) (nbits w : Nat) : State :=
  let s' := s.accept (tableWord nbits w)
  { s' with agenda := if s.sequencerNext then s.agenda else .sequencer :: s.agenda }

end Sys2Proof.Machine
end

