-- ==== Sys2Proof/Safety.lean ====
section
/-! DEFINITION. What a safe state is, in the terms the statements use: the state invariant, the operands
a command needs written before it can complete (70_reset_and_hazards.md R271), and the vocabulary of
frames (how a command ended, which registers and which bytes it left alone). -/

namespace Sys2Proof.Machine

/-- An offset that stores a byte of an element (20_memory.md R75 to R77): all bytes of a WORDS or
binary64 element, the first of a BYTES element's bus word. -/
def storedOffset (a : Nat) : Bool :=
  match bufferAt a with
  | some b => decide ((a - b.base) % b.stride < b.width)
  | none => false

/-- The invariant of the block: the storage is canonical, lists only offsets that exist, and lists the
bytes of a bus word together (an element, or a half of one, is written as a whole); ERRCODE is never a
reserved code (60_exceptions.md R240); while BUSY there is no DONE, no ERR and no error code
(44_control.md R221); ERR says that there is an error code. -/
structure State.Inv (s : State) : Prop where
  memory_wf : Memory.wf s.mem
  memory_stored : ∀ c ∈ s.mem, storedOffset c.1 = true
  memory_words : ∀ a, storedOffset a = true →
    (Memory.read s.mem a).isSome = (Memory.read s.mem (a - a % 4)).isSome
  errcode_legal : s.errcode.toNat ≤ 5
  busy_clear : s.seq = .busy → s.done = false ∧ s.err = false ∧ s.errcode = 0#4
  err_coded : s.err = true → s.errcode ≠ 0#4

/-- BUF[0], ..., BUF[n-1] are written (10_state.md R47). -/
def State.allWritten (s : State) (b : Buffer) (n : Nat) : Bool := (List.range n).all (s.written b)

/-- Every operand that the command reads, once its checks have passed, is written
(70_reset_and_hazards.md R271). -/
def State.operandsWritten (s : State) : Instr → Bool
  | .nop => true
  | .enc24 c => decide (141 < c.toNat) || s.allWritten .words c.toNat
  | .dec24 => decide (423 < s.len.toNat) || decide (s.len.toNat % 3 ≠ 0) ||
      s.allWritten .bytes s.len.toNat
  | .fft m => !legalLog2 m || s.allWritten .data (2 ^ m.toNat)
  | .leakf _ => true
  | .untangle m => !legalLog2 m || s.allWritten .data (2 ^ m.toNat)
  | .untangleLeak m => !legalLog2 m || s.allWritten .data (2 ^ m.toNat)
  | .decodeModelImp => decide (s.len.toNat ≠ 423) || s.allWritten .bytes 423
  | .decodeModelExc => decide (s.len.toNat ≠ 423) || s.allWritten .bytes 423
  | .encodeModel => s.allWritten .tap 128 && s.allWritten .param 13

/-- The next step does not stop the machine. -/
def State.safeNow (s : State) : Prop := ∃ t, step s = .next t

/-- The next step of a busy block is the completion: on the sequencer's own turn, with the agenda used up,
or before a held access (44_control.md R223, 20_memory.md R81). -/
def State.completionNext (s : State) : Bool :=
  match s.agenda with
  | [] => true
  | .sequencer :: _ => true
  | .host op :: _ => s.holds op

/-- The agenda after such a step: the sequencer's entry is used up, a held access stays (log entry 3). -/
def State.agendaAfter (s : State) : List Turn := if s.sequencerNext then s.agenda.tail else s.agenda

/-- The command ended without error (60_exceptions.md R241). -/
def State.endedOk (t : State) : Prop :=
  t.seq = .idle ∧ t.done = true ∧ t.err = false ∧ t.errcode = 0#4

/-- Every register that no command writes is unchanged: CMDL, LEAKAGE, CTRL.IE and STATUS.OVR, and the
model's own fields (10_state.md R48, 60_exceptions.md R241). -/
def State.sameControl (s t : State) : Prop :=
  t.cmdl = s.cmdl ∧ t.leakage = s.leakage ∧ t.ie = s.ie ∧ t.ovr = s.ovr ∧ t.agenda = s.agenda ∧
    t.answer = s.answer

/-- The bus words of BUF[0], ..., BUF[n-1], as the offsets [lo, hi) (20_memory.md R72). -/
def prefixWindow (b : Buffer) (n : Nat) : Nat × Nat := (b.base, b.addr n)

/-- The elements a command writes when it ends without error, as prefixes of buffers; none where it would
end with an error (the write sets of 70_reset_and_hazards.md R272). Of ENCODE_MODEL's operands only the
written ones can be seen to be a NaN (log entry 11). -/
def State.writeSet (s : State) : Instr → List (Buffer × Nat)
  | .nop => []
  | .enc24 c => if c.toNat ≤ 141 then [(.bytes, 3 * c.toNat)] else []
  | .dec24 => if s.len.toNat ≤ 423 ∧ s.len.toNat % 3 = 0 then [(.words, s.len.toNat / 3)] else []
  | .fft m => if legalLog2 m then [(.data, 2 ^ m.toNat)] else []
  | .leakf h => if h.toNat ≤ 64 then [(.leak, h.toNat)] else []
  | .untangle m => if legalLog2 m then [(.mag, 2 ^ m.toNat / 2)] else []
  | .untangleLeak m => if legalLog2 m then [(.mag, 2 ^ m.toNat / 2)] else []
  | .decodeModelImp => modelSet s
  | .decodeModelExc => modelSet s
  | .encodeModel =>
    if (List.range 128).any (fun i => (s.f64At .tap i).any fIsNaN) ||
        (List.range 13).any (fun j => (s.f64At .param j).any fIsNaN) then []
    else [(.words, 141), (.bytes, 423)]
where
  /-- All of WORDS, TAP, PARAM, DATA, MAG and FREQ, when LEN is 423. -/
  modelSet (s : State) : List (Buffer × Nat) :=
    if s.len.toNat = 423 then
      [(.words, 141), (.tap, 128), (.param, 13), (.data, 128), (.mag, 64), (.freq, 64)]
    else []

/-- Element k of buffer b is in a set of prefixes. -/
def inWriteSet (ws : List (Buffer × Nat)) (b : Buffer) (k : Nat) : Bool :=
  ws.any fun p => decide (p.1 = b) && decide (k < p.2)

/-- Wire word k of a record's bytes, as an integer (30_encoding.md R105, R106). -/
def recordWord (bs : List Byte) (k : Nat) : Int :=
  (bs.getD (3 * k) 0#8 ++ bs.getD (3 * k + 1) 0#8 ++ bs.getD (3 * k + 2) 0#8 : BitVec 24).toInt

/-- FIR tap i of a record (42_transcoder.md R190). -/
def recordTap (bs : List Byte) (i : Nat) : F64 := ldexp (i2f (recordWord bs i)) (-22)

/-- Scalar j of a record (42_transcoder.md R190, 10_state.md R46). -/
def recordParam (bs : List Byte) (j : Nat) : F64 :=
  ldexp (i2f (recordWord bs (128 + j))) (-([0, 23, 23, 21, 21, 21, 21, 0, 0, 17, 16, 14, 23].getD j 0 : Int))

/-- The finite pattern r is the binary64 number nearest to v, and the even one where another number is
equally near (00_scope.md R12). -/
def nearestTo (r : F64) (v : ℝ) : Prop :=
  fIsFinite r = true ∧ ∀ z : F64, fIsFinite z = true →
    |(fVal r : ℝ) - v| ≤ |(fVal z : ℝ) - v| ∧
    (|(fVal r : ℝ) - v| = |(fVal z : ℝ) - v| → fVal z ≠ fVal r → r.getLsbD 0 = false)

/-- The pattern is an infinity. -/
def isInf (x : F64) : Prop := x = 0x7FF0000000000000#64 ∨ x = 0xFFF0000000000000#64

/-- The pattern is a zero, of either sign. -/
def isZero (x : F64) : Prop := x = 0x0000000000000000#64 ∨ x = 0x8000000000000000#64

/-- Every byte of storage outside the windows reads as before. -/
def State.sameOutside (s t : State) (windows : List (Nat × Nat)) : Prop :=
  ∀ a, (∀ w ∈ windows, a < w.1 ∨ w.2 ≤ a) → Memory.read t.mem a = Memory.read s.mem a

end Sys2Proof.Machine
end

