-- ==== Sys2Proof/Certificates/Slice0/Obligations.lean ====
section
/-! DEFINITION. The statements for the provers. Each says what the spec's rules say an instruction or the
machine does; a statement that rests on a choice of the model names the log entry. -/

open Sys2Proof Sys2Proof.Machine

/-! ### Encoding -/

/-- Decoding the word of any command gives the command back, every operand at every value
(30_encoding.md R110, R111, R114). -/
def Obligations.DecodeEncodeAgree : Prop := ∀ i : Instr, decode (encode i) = .ok i

/-- A word that decodes is the word of the command it decodes to: no two words are one command
(30_encoding.md R110, R112). -/
def Obligations.EncodeDecodeAgree : Prop :=
  ∀ (w : Word) (i : Instr), decode w = .ok i → encode i = w

/-- 30_encoding.md R113: every word matches exactly one row of the opcode table, and decodes to the
command of that row, or matches none and is illegal by R112, and is rejected. -/
def Obligations.EachWordFitsOneRowOrIsIllegal : Prop :=
  ∀ w : Word,
    (illegalWord w = false ∧ ∃ i r, decode w = .ok i ∧ r ∈ opcodeTable ∧ r.mnemonic = i.mnemonic ∧
      r.fits w = true ∧ ∀ r' ∈ opcodeTable, r'.fits w = true → r' = r) ∨
    (illegalWord w = true ∧ (∃ e, decode w = .error e) ∧ ∀ r ∈ opcodeTable, r.fits w = false)

/-- Words written out from the table of 30_encoding.md R114 decode to the commands they stand for, and
some illegal words of R112 are rejected by name. -/
def Obligations.SpecWordsDecode : Prop :=
  decode 0x00000000#32 = .ok .nop ∧ decode 0x00000301#32 = .ok (.enc24 3) ∧
  decode 0x00000002#32 = .ok .dec24 ∧ decode 0x00000710#32 = .ok (.fft 7) ∧
  decode 0x00004011#32 = .ok (.leakf 64) ∧ decode 0x00000212#32 = .ok (.untangle 2) ∧
  decode 0x00000213#32 = .ok (.untangleLeak 2) ∧ decode 0x00000020#32 = .ok .decodeModelImp ∧
  decode 0x00010020#32 = .ok .decodeModelExc ∧ decode 0x00000021#32 = .ok .encodeModel ∧
  decode 0x00000003#32 = .error .unknownOp ∧ decode 0x00000102#32 = .error .argNotZero ∧
  decode 0x00010021#32 = .error .typeNotZero ∧ decode 0x00020210#32 = .error .reservedNotZero

/-! ### The command life cycle -/

/-- 44_control.md R223: when BUSY the sequencer's turn runs the command that CMDL decodes to; the step
adds only that an entry `.sequencer` of the agenda is used up (log entry 3). A held access stays first
in the agenda while the command runs (20_memory.md R81). -/
def Obligations.StepRunsDecodedCommand : Prop :=
  ∀ (s : State) (i : Instr), s.seq = .busy → decode s.cmdl = .ok i →
    (s.sequencerNext = true → step s = exec i s.popTurn) ∧
    (∀ op rest, s.agenda = .host op :: rest → s.holds op = true → step s = exec i s)

/-- 30_encoding.md R112: an illegal word is accepted like any command and completes with E_ILLEGAL and
no other effect, on the sequencer's turn or before a held access. -/
def Obligations.IllegalWordEndsWithIllegal : Prop :=
  ∀ (s : State) (w : Word), illegalWord w = true →
    (∀ rest, s.seq = .idle → s.agenda = .host (.write .w32 0x004#14 w) :: rest →
      step s = .next { s with
        agenda := rest, answer := some .done, cmdl := w, seq := .busy
        done := false, err := false, errcode := 0#4 }) ∧
    (s.seq = .busy → s.cmdl = w → s.completionNext = true →
      step s = .next { s with
        agenda := s.agendaAfter, seq := .idle, done := true, err := true, errcode := 2#4 })

/-- 44_control.md R221: a CMD write when IDLE is accepted at once, legal or not; OVR and everything else
is unchanged. -/
def Obligations.CommandWriteIsAcceptedWhenIdle : Prop :=
  ∀ (s : State) (w : Word) (rest : List Turn),
    s.seq = .idle → s.agenda = .host (.write .w32 0x004#14 w) :: rest →
    ∃ t, step s = .next t ∧ t.busy = true ∧
      t = { s with
        agenda := rest, answer := some .done, cmdl := w, seq := .busy
        done := false, err := false, errcode := 0#4 }

/-- 44_control.md R222: a CMD write when BUSY is dropped and sets OVR; it completes on the bus, and
nothing else changes. -/
def Obligations.CommandWriteIsDroppedWhenBusy : Prop :=
  ∀ (s : State) (w : Word) (rest : List Turn),
    s.seq = .busy → s.agenda = .host (.write .w32 0x004#14 w) :: rest →
    step s = .next { s with agenda := rest, answer := some .done, ovr := true }

/-- 60_exceptions.md R249: a CMD write ordered before the completion is dropped, the command stays in
progress (44_control.md R222) and its completion is the next step; one ordered after the completion is
accepted. The order is the agenda's (log entry 3), so both orders are states of the model. -/
def Obligations.CommandWriteRacesCompletion : Prop :=
  ∀ (s : State) (w : Word) (rest : List Turn), s.seq = .busy →
    (s.agenda = .host (.write .w32 0x004#14 w) :: .sequencer :: rest →
      ∃ t, step s = .next t ∧ t.ovr = true ∧ t.cmdl = s.cmdl ∧ t.seq = .busy ∧
        t.completionNext = true ∧ step t = sequencerTurn t.popTurn) ∧
    (s.agenda = .sequencer :: .host (.write .w32 0x004#14 w) :: rest →
      ∀ t, step s = .next t → t.cmdl = s.cmdl ∧
        step t = .next { t with
          agenda := rest, answer := some .done, cmdl := w, seq := .busy
          done := false, err := false, errcode := 0#4 })

/-- 44_control.md R223, 60_exceptions.md R241, R242: every completion step, also the one that a held access
lets go first (20_memory.md R81), leaves SEQ = IDLE and DONE = 1, with ERR = 0 and ERRCODE = 0, or with
ERR = 1 and a code 1 to 5 of R240; CMDL, OVR, LEAKAGE and CTRL.IE are unchanged, and of the agenda only
the sequencer's own entry is used up. -/
def Obligations.CompletionEndsTheCommand : Prop :=
  ∀ s t : State, s.seq = .busy → s.completionNext = true → step s = .next t →
    t.seq = .idle ∧ t.done = true ∧
    (t.err = false ∧ t.errcode = 0#4 ∨ t.err = true ∧ 1 ≤ t.errcode.toNat ∧ t.errcode.toNat ≤ 5) ∧
    t.cmdl = s.cmdl ∧ t.ovr = s.ovr ∧ t.leakage = s.leakage ∧ t.ie = s.ie ∧
    t.answer = s.answer ∧ t.agenda = s.agendaAfter

/-- 44_control.md R224, 60_exceptions.md R242: a command that ends with an error writes nothing but SEQ
and STATUS. -/
def Obligations.ErrorsWriteOnlyStatus : Prop :=
  ∀ (i : Instr) (s t : State), exec i s = .next t → t.err = true →
    1 ≤ t.errcode.toNat ∧ t.errcode.toNat ≤ 5 ∧
    t = { s with seq := .idle, done := true, err := true, errcode := t.errcode }

/-- The frame of every command: what it leaves unchanged. Registers other than SEQ, STATUS and (for ENC24
and ENCODE_MODEL) LEN, and every byte of storage outside the write set of 70_reset_and_hazards.md R272,
whose elements are all written afterwards. -/
def Obligations.CommandsWriteOnlyTheirWriteSet : Prop :=
  ∀ (i : Instr) (s t : State), exec i s = .next t →
    s.sameControl t ∧
    ((∀ c, i ≠ .enc24 c) → i ≠ .encodeModel → t.len = s.len) ∧
    s.sameOutside t ((s.writeSet i).map fun p => prefixWindow p.1 p.2) ∧
    ∀ b k, inWriteSet (s.writeSet i) b k = true → t.written b k = true

/-- A command completes, with or without error, exactly when every operand it reads is written
(10_state.md R47, 70_reset_and_hazards.md R271); otherwise it stops at an unwritten one. The order of
the checks and the reads is the model's reading of 44_control.md R223, 60_exceptions.md R246 and
42_transcoder.md R196 (log entry 13): the checks come first, and ENCODE_MODEL reads every element before
it looks for a NaN. -/
def Obligations.CompletesIffOperandsWritten : Prop :=
  ∀ (i : Instr) (s : State),
    (s.operandsWritten i = true → ∃ t, exec i s = .next t) ∧
    (s.operandsWritten i = false →
      ∃ b k, exec i s = .fault (.unwritten b k) ∧ k < b.count ∧ s.written b k = false)

/-- 70_reset_and_hazards.md R276: an accepted command reaches its completion step after finitely many
host accesses (here at most those on the agenda), or a soft reset cancels it, or it stops at an
unwritten operand. -/
def Obligations.AcceptedCommandEnds : Prop :=
  ∀ s : State, s.seq = .busy → ∃ k, k ≤ s.agenda.length + 1 ∧
    ((∃ t : State, Sys2Proof.core.run k s = .next t ∧ t.seq = .idle) ∨
      ∃ b n, Sys2Proof.core.run k s = .fault (Fault.unwritten b n))

/-- 20_memory.md R83, R86: while a command is BUSY no host access changes its word, its operands or its
result buffers (a soft reset ends the command instead). -/
def Obligations.OperandsAreStableWhileBusy : Prop :=
  ∀ s t : State, s.seq = .busy → step s = .next t → t.seq = .busy →
    t.cmdl = s.cmdl ∧ t.len = s.len ∧ t.leakage = s.leakage ∧ t.mem = s.mem

/-! ### NOP and the codec -/

/-- 44_control.md R220: NOP completes and changes only SEQ and STATUS. -/
def Obligations.NopCompletes : Prop :=
  ∀ s : State, exec .nop s =
    .next { s with seq := .idle, done := true, err := false, errcode := 0#4 }

/-- 40_codec.md R140: ENC24 c with c at most 141 and WORDS[0..c-1] written encodes them, clamped, most
significant byte first, sets LEN to 3c and leaves the rest. -/
def Obligations.Enc24Completes : Prop :=
  ∀ (c : BitVec 8) (s : State) (ws : List Word), c.toNat ≤ 141 → ws.length = c.toNat →
    (∀ k (h : k < ws.length), s.wordAt k = some ws[k]) →
    ∃ t, exec (.enc24 c) s = .next t ∧ t.endedOk ∧ s.sameControl t ∧ t.len.toNat = 3 * c.toNat ∧
      (∀ k (h : k < ws.length),
        let p : BitVec 24 := BitVec.ofInt 24 (max (-8388608) (min 8388607 ws[k].toInt))
        t.byteAt (3 * k) = some (p.extractLsb' 16 8) ∧
        t.byteAt (3 * k + 1) = some (p.extractLsb' 8 8) ∧
        t.byteAt (3 * k + 2) = some (p.extractLsb' 0 8)) ∧
      s.sameOutside t [prefixWindow .bytes (3 * c.toNat)]

/-- 40_codec.md R140, 41_spectral.md R170: a count above the buffer's capacity ends with E_RANGE and
changes nothing else. -/
def Obligations.CountAboveCapacityIsRangeError : Prop :=
  ∀ (a : BitVec 8) (s : State),
    (141 < a.toNat → exec (.enc24 a) s =
      .next { s with seq := .idle, done := true, err := true, errcode := 4#4 }) ∧
    (64 < a.toNat → exec (.leakf a) s =
      .next { s with seq := .idle, done := true, err := true, errcode := 4#4 })

/-- 40_codec.md R142: DEC24 with a legal LEN and BYTES[0..LEN-1] written decodes them, sign-extended from
24 bits, and leaves the rest, LEN too. -/
def Obligations.Dec24Completes : Prop :=
  ∀ (s : State) (bs : List Byte), s.len.toNat ≤ 423 → s.len.toNat % 3 = 0 →
    bs.length = s.len.toNat → (∀ k (h : k < bs.length), s.byteAt k = some bs[k]) →
    ∃ t, exec .dec24 s = .next t ∧ t.endedOk ∧ s.sameControl t ∧ t.len = s.len ∧
      (∀ k, k < s.len.toNat / 3 → t.wordAt k = some (BitVec.ofInt 32 (recordWord bs k))) ∧
      s.sameOutside t [prefixWindow .words (s.len.toNat / 3)]

/-- 40_codec.md R142, 60_exceptions.md R244: LEN above 423 ends DEC24 with E_RANGE, also where it is no
multiple of 3; a smaller LEN that is no multiple of 3 ends it with E_FORMAT. -/
def Obligations.Dec24LengthErrors : Prop :=
  ∀ s : State,
    (423 < s.len.toNat → exec .dec24 s =
      .next { s with seq := .idle, done := true, err := true, errcode := 4#4 }) ∧
    (s.len.toNat ≤ 423 → s.len.toNat % 3 ≠ 0 → exec .dec24 s =
      .next { s with seq := .idle, done := true, err := true, errcode := 1#4 })

/-- 40_codec.md R144: decode24 of encode24 is the clamped value, which is the value itself inside
[-2^23, 2^23 - 1] and the boundary value outside. -/
def Obligations.CodecRoundTrip : Prop :=
  ∀ vs : List Word,
    decode24 (encode24 vs) = some (vs.map fun v => BitVec.ofInt 32 (clamp24 v.toInt)) ∧
    ∀ v ∈ vs,
      (-8388608 ≤ v.toInt → v.toInt ≤ 8388607 → BitVec.ofInt 32 (clamp24 v.toInt) = v) ∧
      (8388607 < v.toInt → clamp24 v.toInt = 8388607) ∧
      (v.toInt < -8388608 → clamp24 v.toInt = -8388608)

/-- The two commands together (40_codec.md R140, R142, R144): DEC24 right after ENC24 c leaves in
WORDS[0..c-1] the clamped values. -/
def Obligations.Dec24AfterEnc24Clamps : Prop :=
  ∀ (c : BitVec 8) (s : State) (ws : List Word), c.toNat ≤ 141 → ws.length = c.toNat →
    (∀ k (h : k < ws.length), s.wordAt k = some ws[k]) →
    ∃ t u, exec (.enc24 c) s = .next t ∧ exec .dec24 t = .next u ∧ u.endedOk ∧
      ∀ k (h : k < ws.length), u.wordAt k = some (BitVec.ofInt 32 (clamp24 ws[k].toInt))

/-! ### The spectral engine -/

/-- 41_spectral.md R160: FFT n, n = 2^m in {4, ..., 128}, with DATA[0..n-1] written, leaves there the
result of the operation sequence RFFT(n) and leaves the rest. -/
def Obligations.FftCompletes : Prop :=
  ∀ (m : BitVec 8) (s : State) (d : List F64), 2 ≤ m.toNat → m.toNat ≤ 7 →
    d.length = 2 ^ m.toNat → (∀ k (h : k < d.length), s.f64At .data k = some d[k]) →
    ∃ t, exec (.fft m) s = .next t ∧ t.endedOk ∧ s.sameControl t ∧ t.len = s.len ∧
      (∀ k, k < 2 ^ m.toNat → t.f64At .data k = (rfft fsin fcos m.toNat d)[k]?) ∧
      (rfft fsin fcos m.toNat d).length = 2 ^ m.toNat ∧
      s.sameOutside t [prefixWindow .data (2 ^ m.toNat)]

/-- 60_exceptions.md R246: FFT, UNTANGLE and UNTANGLE_LEAK with ARG outside [2, 7] end with E_NPARAM and
change nothing else. -/
def Obligations.IllegalLengthIsParameterError : Prop :=
  ∀ (m : BitVec 8) (s : State), m.toNat < 2 ∨ 7 < m.toNat →
    exec (.fft m) s = .next { s with seq := .idle, done := true, err := true, errcode := 3#4 } ∧
    exec (.untangle m) s =
      .next { s with seq := .idle, done := true, err := true, errcode := 3#4 } ∧
    exec (.untangleLeak m) s =
      .next { s with seq := .idle, done := true, err := true, errcode := 3#4 }

/-- 41_spectral.md R177 (a), R162: for n = 4 and 8 the result does not depend on the sine and cosine; it is
the sums and differences of R162 in their order, for n = 8 with the two quotients by sqrt(2). For n = 16
the last stage combines RFFT(8) of the even samples (`e`) with RFFT(4) of every fourth sample from the
first (`f`) and from the third (`g`): at indices 0 and 2 as for n = 8, and at the odd ones by the one
round of the twiddle loop, with the sines and cosines of 2 PI64 / 16 and three times that. -/
def Obligations.ShortFftOperations : Prop :=
  (∀ (sn cs sn' cs' : F64 → F64) (d : List F64),
    rfft sn cs 2 d = rfft sn' cs' 2 d ∧ rfft sn cs 3 d = rfft sn' cs' 3 d) ∧
  (∀ (sn cs : F64 → F64) (x0 x1 x2 x3 : F64),
    rfft sn cs 2 [x0, x1, x2, x3] =
      [fadd (fadd x0 x2) (fadd x3 x1), fsub x0 x2, fsub (fadd x0 x2) (fadd x3 x1), fsub x3 x1]) ∧
  (∀ (sn cs : F64 → F64) (x0 x1 x2 x3 x4 x5 x6 x7 : F64),
    let even := fadd (fadd x0 x4) (fadd x6 x2)
    let odd := fadd (fadd x3 x7) (fadd x1 x5)
    let t1 := fdiv (fadd (fsub x1 x5) (fsub x3 x7)) (fsqrt fTwo)
    let t2 := fdiv (fsub (fsub x1 x5) (fsub x3 x7)) (fsqrt fTwo)
    rfft sn cs 3 [x0, x1, x2, x3, x4, x5, x6, x7] =
      [fadd even odd, fadd (fsub x0 x4) t2, fsub (fadd x0 x4) (fadd x6 x2), fsub (fsub x0 x4) t2,
        fsub even odd, fsub (fneg (fsub x6 x2)) t1, fsub (fadd x3 x7) (fadd x1 x5),
        fsub (fsub x6 x2) t1]) ∧
  ∀ (sn cs : F64 → F64) (x0 x1 x2 x3 x4 x5 x6 x7 x8 x9 x10 x11 x12 x13 x14 x15 : F64),
    let e := dGet (rfft sn cs 3 [x0, x2, x4, x6, x8, x10, x12, x14])
    let f := dGet (rfft sn cs 2 [x1, x5, x9, x13])
    let g := dGet (rfft sn cs 2 [x3, x7, x11, x15])
    let a := fdiv (fmul fTwo Config.pi64) (i2f 16)
    let a3 := fmul fThree a
    let q1 := fdiv (fadd (f 2) (g 2)) (fsqrt fTwo)
    let q2 := fdiv (fsub (f 2) (g 2)) (fsqrt fTwo)
    let t1 := fadd (fmul (f 1) (cs a)) (fmul (f 3) (sn a))
    let t2 := fsub (fmul (f 3) (cs a)) (fmul (f 1) (sn a))
    let t3 := fadd (fmul (g 1) (cs a3)) (fmul (g 3) (sn a3))
    let t4 := fsub (fmul (g 3) (cs a3)) (fmul (g 1) (sn a3))
    rfft sn cs 4 [x0, x1, x2, x3, x4, x5, x6, x7, x8, x9, x10, x11, x12, x13, x14, x15] =
      [fadd (e 0) (fadd (g 0) (f 0)), fadd (e 1) (fadd t1 t3), fadd (e 2) q2, fsub (e 3) (fsub t2 t4),
        e 4, fadd (e 3) (fsub t2 t4), fsub (e 2) q2, fsub (e 1) (fadd t1 t3),
        fsub (e 0) (fadd (g 0) (f 0)), fsub (fadd t2 t4) (e 7), fsub (fneg (e 6)) q1,
        fsub (fneg (e 5)) (fsub t1 t3), fsub (g 0) (f 0), fsub (e 5) (fsub t1 t3), fsub (e 6) q1,
        fadd (e 7) (fadd t2 t4)]

/-- 41_spectral.md R170: LEAKF h with h at most 64 writes the leakage filter of R171 into LEAK[0..h-1] and
leaves the rest. -/
def Obligations.LeakfCompletes : Prop :=
  ∀ (h : BitVec 8) (s : State), h.toNat ≤ 64 →
    ∃ t, exec (.leakf h) s = .next t ∧ t.endedOk ∧ s.sameControl t ∧ t.len = s.len ∧
      (∀ i, i < h.toNat →
        let s2 := fmul (fsin (fdiv (fmul Config.pi64 (i2f i)) (i2f (2 * h.toNat : Nat))))
          (fsin (fdiv (fmul Config.pi64 (i2f i)) (i2f (2 * h.toNat : Nat))))
        t.f64At .leak i = some (fsqrt (fsub (fmul (fadd fOne s.leakage) (fadd fOne s.leakage))
          (fmul (fmul fFour s.leakage) s2)))) ∧
      s.sameOutside t [prefixWindow .leak h.toNat]

/-- The leakage filter where the spec fixes its values for every sine: with LEAKAGE = +0.0 or -0.0 every
value is 1.0 exactly, with LEAKAGE = -1.0 the value at index 0 is +0 and with 1.0 it is 2.0
(41_spectral.md R170, R175), and for the leakage of an excursion record every value is above 0, so that
DECODE_MODEL.EXC divides by no zero (42_transcoder.md R193). It rests on the range of the sine (log
entry 8). -/
def Obligations.LeakageFilterCornerCases : Prop :=
  (∀ (h i : Nat) (l : F64), isZero l → leakageAt fsin h l i = fOne) ∧
  (∀ h : Nat, 1 ≤ h → h ≤ 64 →
    leakageAt fsin h (fneg fOne) 0 = 0x0000000000000000#64 ∧ leakageAt fsin h fOne 0 = fTwo) ∧
  ∀ (bs : List Byte) (k : Nat), k < 64 →
    let f := leakageAt fsin 64 (fneg (recordParam bs 1)) k
    fIsFinite f = true ∧ 0 < fVal f

/-- 41_spectral.md R172, R173, R174: UNTANGLE n with DATA[0..n-1] written writes the n/2 magnitudes of the
packed spectrum into MAG and leaves the rest; index 0 is the root of the sum of squares of re(0) and
re(n/2). -/
def Obligations.UntangleCompletes : Prop :=
  ∀ (m : BitVec 8) (s : State) (d : List F64), 2 ≤ m.toNat → m.toNat ≤ 7 →
    d.length = 2 ^ m.toNat → (∀ k (h : k < d.length), s.f64At .data k = some d[k]) →
    ∃ t, exec (.untangle m) s = .next t ∧ t.endedOk ∧ s.sameControl t ∧ t.len = s.len ∧
      t.f64At .mag 0 = some (fsqrt (fadd (fmul (dGet d 0) (dGet d 0))
        (fmul (dGet d (2 ^ m.toNat / 2)) (dGet d (2 ^ m.toNat / 2))))) ∧
      (∀ k, 1 ≤ k → k < 2 ^ m.toNat / 2 →
        t.f64At .mag k = some (fsqrt (fadd (fmul (dGet d k) (dGet d k))
          (fmul (dGet d (2 ^ m.toNat - k)) (dGet d (2 ^ m.toNat - k)))))) ∧
      s.sameOutside t [prefixWindow .mag (2 ^ m.toNat / 2)]

/-- 41_spectral.md R175, R176: UNTANGLE_LEAK n divides each magnitude by the filter value of its index,
once, and leaves the rest, LEAK too. -/
def Obligations.UntangleLeakCompletes : Prop :=
  ∀ (m : BitVec 8) (s : State) (d : List F64), 2 ≤ m.toNat → m.toNat ≤ 7 →
    d.length = 2 ^ m.toNat → (∀ k (h : k < d.length), s.f64At .data k = some d[k]) →
    ∃ t, exec (.untangleLeak m) s = .next t ∧ t.endedOk ∧ s.sameControl t ∧ t.len = s.len ∧
      (∀ k, k < 2 ^ m.toNat / 2 → t.f64At .mag k =
        some (fdiv (untangleAt .hypot (2 ^ m.toNat) d k)
          (leakageAt fsin (2 ^ m.toNat / 2) s.leakage k))) ∧
      s.sameOutside t [prefixWindow .mag (2 ^ m.toNat / 2)]

/-- 41_spectral.md R177 (d): with LEAKAGE = +0.0 or -0.0 UNTANGLE_LEAK equals UNTANGLE, bit for bit but
for the payload of a NaN, which is open (00_scope.md R9, log entry 9). It rests on the range of the sine (log entry 8). -/
def Obligations.ZeroLeakageMakesUntangle : Prop :=
  ∀ (m : BitVec 8) (s : State) (d : List F64), 2 ≤ m.toNat → m.toNat ≤ 7 →
    d.length = 2 ^ m.toNat → (∀ k (h : k < d.length), s.f64At .data k = some d[k]) →
    s.leakage = 0x0000000000000000#64 ∨ s.leakage = 0x8000000000000000#64 →
    ∃ t u, exec (.untangleLeak m) s = .next t ∧ exec (.untangle m) s = .next u ∧
      ∀ k, k < 2 ^ m.toNat / 2 → ∃ x y, t.f64At .mag k = some x ∧ u.f64At .mag k = some y ∧
        (x = y ∨ fIsNaN x = true ∧ fIsNaN y = true)

/-- 41_spectral.md R172's corner case: every magnitude is at least +0 or a NaN; it is never -0. -/
def Obligations.MagnitudesAreNeverNegative : Prop :=
  ∀ (n k : Nat) (d : List F64),
    fIsNaN (untangleAt .hypot n d k) = true ∨ fSign (untangleAt .hypot n d k) = false

/-! ### The transcoder -/

/-- 42_transcoder.md R191, R192: DECODE_MODEL.IMP on a written record of 423 bytes writes WORDS, TAP,
PARAM (with the fractional bits of 10_state.md R46), the packed spectrum of the taps in order, the
inverted magnitudes and the axis from 0 Hz, and leaves the rest. -/
def Obligations.DecodeModelImpCompletes : Prop :=
  ∀ (s : State) (bs : List Byte), s.len.toNat = 423 → bs.length = 423 →
    (∀ k (h : k < bs.length), s.byteAt k = some bs[k]) →
    let frac : List Int := [0, 23, 23, 21, 21, 21, 21, 0, 0, 17, 16, 14, 23]
    let spectrum := rfft fsin fcos 7 ((List.range 128).map (recordTap bs))
    ∃ t, exec .decodeModelImp s = .next t ∧ t.endedOk ∧ s.sameControl t ∧ t.len = s.len ∧
      (∀ k, k < 141 → t.wordAt k = some (BitVec.ofInt 32 (recordWord bs k))) ∧
      (∀ k, k < 128 → t.f64At .tap k = some (recordTap bs k)) ∧
      (∀ k, k < 13 → t.f64At .param k = some (ldexp (i2f (recordWord bs (128 + k))) (-(frac.getD k 0)))) ∧
      (∀ k, k < 128 → t.f64At .data k = spectrum[k]?) ∧ spectrum.length = 128 ∧
      (∀ k, k < 64 → t.f64At .mag k = some (fdiv fOne (untangleAt .hypot 128 spectrum k))) ∧
      (∀ k, k < 64 → t.f64At .freq k = some (fmul fBinHz (i2f k))) ∧
      s.sameOutside t [prefixWindow .words 141, prefixWindow .tap 128, prefixWindow .param 13,
        prefixWindow .data 128, prefixWindow .mag 64, prefixWindow .freq 64]

/-- 42_transcoder.md R191, R193: DECODE_MODEL.EXC takes the taps in reverse order, divides by the leakage
filter of -PARAM[1], doubles, and starts the axis at 62.5 Hz. -/
def Obligations.DecodeModelExcCompletes : Prop :=
  ∀ (s : State) (bs : List Byte), s.len.toNat = 423 → bs.length = 423 →
    (∀ k (h : k < bs.length), s.byteAt k = some bs[k]) →
    let frac : List Int := [0, 23, 23, 21, 21, 21, 21, 0, 0, 17, 16, 14, 23]
    let spectrum := rfft fsin fcos 7 ((List.range 128).map fun i => recordTap bs (127 - i))
    ∃ t, exec .decodeModelExc s = .next t ∧ t.endedOk ∧ s.sameControl t ∧ t.len = s.len ∧
      (∀ k, k < 141 → t.wordAt k = some (BitVec.ofInt 32 (recordWord bs k))) ∧
      (∀ k, k < 128 → t.f64At .tap k = some (recordTap bs k)) ∧
      (∀ k, k < 13 → t.f64At .param k = some (ldexp (i2f (recordWord bs (128 + k))) (-(frac.getD k 0)))) ∧
      (∀ k, k < 128 → t.f64At .data k = spectrum[k]?) ∧ spectrum.length = 128 ∧
      (∀ k, k < 64 → t.f64At .mag k = some (fmul fTwo (fdiv (untangleAt .hypot 128 spectrum k)
        (leakageAt fsin 64 (fneg (ldexp (i2f (recordWord bs 129)) (-23))) k)))) ∧
      (∀ k, k < 64 → t.f64At .freq k = some (fmul fBinHz (i2f (k + 1 : Nat)))) ∧
      s.sameOutside t [prefixWindow .words 141, prefixWindow .tap 128, prefixWindow .param 13,
        prefixWindow .data 128, prefixWindow .mag 64, prefixWindow .freq 64]

/-- 42_transcoder.md R191: with LEN other than 423 both forms end with E_FORMAT and change nothing
else. -/
def Obligations.RecordLengthIsFormatError : Prop :=
  ∀ s : State, s.len.toNat ≠ 423 →
    exec .decodeModelImp s =
      .next { s with seq := .idle, done := true, err := true, errcode := 1#4 } ∧
    exec .decodeModelExc s =
      .next { s with seq := .idle, done := true, err := true, errcode := 1#4 }

/-- 42_transcoder.md R196: ENCODE_MODEL with TAP and PARAM written and no NaN writes the 141 integers to
WORDS before the 24-bit clamp, the record to BYTES after it, LEN = 423, and leaves the rest. -/
def Obligations.EncodeModelCompletes : Prop :=
  ∀ (s : State) (taps params : List F64), taps.length = 128 → params.length = 13 →
    (∀ k (h : k < taps.length), s.f64At .tap k = some taps[k]) →
    (∀ k (h : k < params.length), s.f64At .param k = some params[k]) →
    (∀ x ∈ taps ++ params, fIsNaN x = false) →
    ∃ t, exec .encodeModel s = .next t ∧ t.endedOk ∧ s.sameControl t ∧ t.len.toNat = 423 ∧
      (∀ k, k < 141 →
        let frac := if k < 128 then 22 else [0, 23, 23, 21, 21, 21, 21, 0, 0, 17, 16, 14, 23].getD (k - 128) 0
        let v := toInt ((taps ++ params).getD k 0#64) frac
        let p : BitVec 24 := BitVec.ofInt 24 (max (-8388608) (min 8388607 v))
        t.wordAt k = some (BitVec.ofInt 32 v) ∧ -2147483648 ≤ v ∧ v ≤ 2147483647 ∧
        t.byteAt (3 * k) = some (p.extractLsb' 16 8) ∧
        t.byteAt (3 * k + 1) = some (p.extractLsb' 8 8) ∧
        t.byteAt (3 * k + 2) = some (p.extractLsb' 0 8)) ∧
      s.sameOutside t [prefixWindow .words 141, prefixWindow .bytes 423]

/-- 42_transcoder.md R196, 60_exceptions.md R240 code 5: with every TAP and PARAM element written and one
of them a NaN, ENCODE_MODEL ends with E_NAN and changes nothing else. -/
def Obligations.NaNInputIsNaNError : Prop :=
  ∀ s : State, s.operandsWritten .encodeModel = true →
    (∃ k x, k < 128 ∧ s.f64At .tap k = some x ∧ fIsNaN x = true) ∨
      (∃ k x, k < 13 ∧ s.f64At .param k = some x ∧ fIsNaN x = true) →
    exec .encodeModel s =
      .next { s with seq := .idle, done := true, err := true, errcode := 5#4 }

/-- 42_transcoder.md R195: to_int rounds the exact product to the nearest integer, halves away from zero,
and saturates to i32; an infinity goes to the end of the i32 range. -/
def Obligations.EncodeRoundsHalfAway : Prop :=
  (∀ (x : F64) (frac : Nat), fIsFinite x = true →
    ∃ k : ℤ, toInt x frac = max (-2147483648) (min 2147483647 k) ∧
      |(k : ℚ) - fVal x * 2 ^ frac| ≤ 1 / 2 ∧
      (|(k : ℚ) - fVal x * 2 ^ frac| = 1 / 2 → |fVal x * 2 ^ frac| < |(k : ℚ)|)) ∧
  ∀ frac : Nat, toInt 0x7FF0000000000000#64 frac = 2147483647 ∧
    toInt 0xFFF0000000000000#64 frac = -2147483648

/-- 42_transcoder.md R190: decode scaling is exact, the value of a wire integer w with F fractional bits
is w * 2^-F with no rounding, for every F that a field has. -/
def Obligations.DecodeScalingIsExact : Prop :=
  ∀ (w : Word) (frac : Nat), -8388608 ≤ w.toInt → w.toInt ≤ 8388607 → frac ≤ 23 →
    fIsFinite (scaleWord w frac) = true ∧ fVal (scaleWord w frac) = (w.toInt : ℚ) / 2 ^ frac

/-- 42_transcoder.md R197: after ENCODE_MODEL then DECODE_MODEL, either form, a field whose rounded integer
fits 24 bits is reproduced within half a quantization step, and one outside comes back as the boundary
value. -/
def Obligations.ModelRoundTrip : Prop :=
  ∀ (s : State) (i : Instr) (fields : List F64), i = .decodeModelImp ∨ i = .decodeModelExc →
    fields.length = 141 →
    (∀ k (h : k < fields.length),
      (if k < 128 then s.f64At .tap k else s.f64At .param (k - 128)) = some fields[k] ∧
      fIsNaN fields[k] = false) →
    ∃ t u, exec .encodeModel s = .next t ∧ exec i t = .next u ∧ u.endedOk ∧
      ∀ k (h : k < fields.length), ∃ y,
        (if k < 128 then u.f64At .tap k else u.f64At .param (k - 128)) = some y ∧
        let frac := if k < 128 then 22 else [0, 23, 23, 21, 21, 21, 21, 0, 0, 17, 16, 14, 23].getD (k - 128) 0
        let v := toInt fields[k] frac
        (-8388608 ≤ v → v ≤ 8388607 → |fVal y - fVal fields[k]| ≤ 1 / 2 ^ (frac + 1)) ∧
        (8388607 < v → fVal y = 8388607 / 2 ^ frac) ∧
        (v < -8388608 → fVal y = -8388608 / 2 ^ frac)

/-! ### Binary64 arithmetic -/

/-- 00_scope.md R12: a sum, difference, product or quotient of finite operands and the root of a finite
number that is not negative are the binary64 number nearest to the exact result, and the even one where
two are equally near. A result that would round beyond the largest finite number is the infinity of its
sign. -/
def Obligations.ArithmeticRoundsToNearest : Prop :=
  (∀ (x y r : F64) (v : ℚ), fIsFinite x = true → fIsFinite y = true →
    (r = fadd x y ∧ v = fVal x + fVal y) ∨ (r = fsub x y ∧ v = fVal x - fVal y) ∨
      (r = fmul x y ∧ v = fVal x * fVal y) ∨ (r = fdiv x y ∧ fVal y ≠ 0 ∧ v = fVal x / fVal y) →
    (|v| < 2 ^ 1024 - 2 ^ 970 → nearestTo r v) ∧
    (2 ^ 1024 - 2 ^ 970 ≤ |v| →
      r = if v < 0 then 0xFFF0000000000000#64 else 0x7FF0000000000000#64)) ∧
  ∀ x : F64, fIsFinite x = true → 0 ≤ fVal x → nearestTo (fsqrt x) (Real.sqrt (fVal x))

/-- 41_spectral.md R163: an operation on a NaN returns a NaN; the invalid operations create one (the
difference of equal infinities, the sum of opposite ones, a zero times an infinity, 0/0, the quotient of
infinities, the root of a negative number or of -inf); 1/+0 is +inf. -/
def Obligations.NaNsAndInfinities : Prop :=
  (∀ x y : F64, fIsNaN x = true ∨ fIsNaN y = true →
    fIsNaN (fadd x y) = true ∧ fIsNaN (fsub x y) = true ∧ fIsNaN (fmul x y) = true ∧
    fIsNaN (fdiv x y) = true) ∧
  (∀ x : F64, fIsNaN x = true → fIsNaN (fsqrt x) = true) ∧
  (∀ x y : F64, isInf x → isInf y →
    (x = y → fIsNaN (fsub x y) = true) ∧ (x ≠ y → fIsNaN (fadd x y) = true) ∧
    fIsNaN (fdiv x y) = true) ∧
  (∀ x y : F64, isInf x → isZero y → fIsNaN (fmul x y) = true ∧ fIsNaN (fmul y x) = true) ∧
  (∀ x y : F64, isZero x → isZero y → fIsNaN (fdiv x y) = true) ∧
  (∀ x : F64, fSign x = true → fVal x ≠ 0 → fIsNaN (fsqrt x) = true) ∧
  fIsNaN (fsqrt 0xFFF0000000000000#64) = true ∧ fdiv fOne 0#64 = 0x7FF0000000000000#64

/-! ### Reset -/

/-- 70_reset_and_hazards.md R270, 10_state.md R51: power-on reset leaves every register at its reset value,
every buffer element unwritten, the interrupt low, and the block waiting for a CMD write. That a step at
reset runs nothing is the model's choice: nothing is on the agenda at reset (log entries 3 and 5). -/
def Obligations.PowerOnResetLeaves : Prop :=
  State.reset.readSlot .id = .ok 0x46583234#32 ∧ State.reset.cmdl = 0x00000000#32 ∧
  State.reset.status = 0#32 ∧ State.reset.len = 0#9 ∧ State.reset.leakage = 0#64 ∧
  State.reset.ie = false ∧ State.reset.seq = .idle ∧ State.reset.irq = false ∧
  (∀ b k, State.reset.written b k = false) ∧ step State.reset = .next State.reset

/-- 10_state.md R51, 70_reset_and_hazards.md R272, R273: a soft reset leaves every register at the same
value as power-on reset, in every state, and keeps every buffer byte when no command is in progress. -/
def Obligations.SoftResetLeaves : Prop :=
  ∀ s : State,
    (let t := s.softReset
     t.cmdl = 0#32 ∧ t.seq = .idle ∧ t.status = 0#32 ∧ t.len = 0#9 ∧ t.leakage = 0#64 ∧
     t.ie = false ∧ t.irq = false) ∧
    (s.seq = .idle → s.softReset.mem = s.mem)

/-- 70_reset_and_hazards.md R272: a soft reset while BUSY makes every element the cancelled command would
write unwritten, nothing where it would end with an error or its word is illegal, and keeps every other
element. -/
def Obligations.SoftResetForgetsTheCancelledWriteSet : Prop :=
  ∀ s : State, s.seq = .busy →
    (∀ i, decode s.cmdl = .ok i → ∀ b k, k < b.count →
      Memory.readElem s.softReset.mem b k =
        if inWriteSet (s.writeSet i) b k then none else Memory.readElem s.mem b k) ∧
    (illegalWord s.cmdl = true → s.softReset.mem = s.mem) ∧
    (∀ i t, decode s.cmdl = .ok i → exec i s = .next t → t.err = true → s.softReset.mem = s.mem)

/-! ### The invariant and the stops -/

/-- Every step keeps the invariant, from every state that meets it. -/
def Obligations.EveryStepKeepsInvariant : Prop :=
  ∀ s t : State, s.Inv → step s = .next t → t.Inv

/-- The state after power-on reset meets the invariant. -/
def Obligations.ResetMeetsInvariant : Prop := State.reset.Inv

/-- The only stop of the block is the read of an unwritten element (10_state.md R47): a step is never
refused, and a fault names an element that exists and is unwritten. That a bus error is no stop
(60_exceptions.md R247) is the model's reading (log entry 1). -/
def Obligations.StopsOnlyAtUnwrittenElements : Prop :=
  ∀ s : State, (∀ r, step s ≠ .refused r) ∧
    ∀ f, step s = .fault f → ∃ b k, f = .unwritten b k ∧ k < b.count ∧ s.written b k = false

/-! ### Host accesses -/

/-- 20_memory.md R81, R82, 44_control.md R228: an idle block performs every access at once. While BUSY a
served access to LEN, LEAKAGE or [0x0400, 0x4000) waits for the completion and is then performed on the
state it left; any other served access is performed at once. -/
def Obligations.HostAccessIsPerformedOrWaits : Prop :=
  ∀ (s : State) (op : BusOp) (rest : List Turn), s.agenda = .host op :: rest →
    (s.seq = .idle → step s = hostAccess op s.popTurn) ∧
    (s.seq = .busy → op.accessWidth = .w32 → op.offset.toNat % 4 = 0 →
      (op.offset.toNat = 0x00C ∨ op.offset.toNat = 0x010 ∨ op.offset.toNat = 0x014 ∨
          0x0400 ≤ op.offset.toNat →
        ∀ t, step s = .next t → t.seq = .idle ∧ t.done = true ∧ t.agenda = s.agenda ∧
          t.answer = s.answer ∧ step t = hostAccess op t.popTurn) ∧
      (op.offset.toNat ≠ 0x00C → op.offset.toNat ≠ 0x010 → op.offset.toNat ≠ 0x014 →
        op.offset.toNat < 0x0400 → step s = hostAccess op s.popTurn))

/-- 20_memory.md R80: a read changes nothing, at any offset; only the bus's answer is new. -/
def Obligations.ReadsHaveNoSideEffects : Prop :=
  ∀ (s t : State) (w : AccessWidth) (off : Offset), hostAccess (.read w off) s = .next t →
    t = { s with answer := t.answer }

/-- 20_memory.md R71, 60_exceptions.md R247: an access of another width or at an offset that is no multiple
of 4 is answered with a bus error, BUSY or not; no register, flag or element changes (log entries 1
and 2). -/
def Obligations.BusErrorsChangeNothing : Prop :=
  ∀ (s : State) (op : BusOp) (rest : List Turn), s.agenda = .host op :: rest →
    op.accessWidth ≠ .w32 ∨ op.offset.toNat % 4 ≠ 0 →
    step s = .next { s with agenda := rest, answer := some .busError }

/-- 44_control.md R225: a read of STATUS, and a write that clears DONE, ERR and OVR where it has a 1; BUSY
and ERRCODE ignore it, and clearing DONE lowers IRQ. Neither is held. -/
def Obligations.StatusAccess : Prop :=
  ∀ (s : State) (rest : List Turn),
    (s.agenda = .host (.read .w32 0x008#14) :: rest →
      step s = .next { s with
        agenda := rest
        answer := some (.data (0#24 ++ s.errcode ++ (if s.ovr then 1#1 else 0#1) ++
          (if s.err then 1#1 else 0#1) ++ (if s.done then 1#1 else 0#1) ++
          (if s.seq = .busy then 1#1 else 0#1))) }) ∧
    ∀ v : Word, s.agenda = .host (.write .w32 0x008#14 v) :: rest →
      ∃ t, step s = .next t ∧
        t = { s with
          agenda := rest, answer := some .done
          done := if v.getLsbD 1 then false else s.done
          err := if v.getLsbD 2 then false else s.err
          ovr := if v.getLsbD 3 then false else s.ovr } ∧
        (v.getLsbD 1 = true → t.irq = false)

/-- 44_control.md R226: a read of CTRL gives IE in bit 0 and 0 elsewhere; a write sets IE, and with bit 1
set performs a soft reset, after which IE is 0. Never held. -/
def Obligations.CtrlAccess : Prop :=
  ∀ (s : State) (rest : List Turn),
    (s.agenda = .host (.read .w32 0x018#14) :: rest →
      step s = .next { s with
        agenda := rest, answer := some (.data (if s.ie then 1#32 else 0#32)) }) ∧
    ∀ v : Word, s.agenda = .host (.write .w32 0x018#14 v) :: rest →
      (v.getLsbD 1 = false → step s = .next { s with
        agenda := rest, answer := some .done, ie := v.getLsbD 0 }) ∧
      (v.getLsbD 1 = true → ∃ t, step s = .next t ∧ t.ie = false ∧ t.answer = some .done ∧
        t = { s.popTurn.softReset with answer := some .done })

/-- 44_control.md R227: ID reads ID_VALUE and ignores writes, CMD reads CMDL, LEN holds nine bits, and
each half of LEAKAGE is read and replaced on its own. -/
def Obligations.OperandRegisterAccess : Prop :=
  ∀ (s : State) (v : Word),
    hostAccess (.read .w32 0x000#14) s = .next { s with answer := some (.data 0x46583234#32) } ∧
    hostAccess (.write .w32 0x000#14 v) s = .next { s with answer := some .done } ∧
    hostAccess (.read .w32 0x004#14) s = .next { s with answer := some (.data s.cmdl) } ∧
    hostAccess (.read .w32 0x00C#14) s =
      .next { s with answer := some (.data (0#23 ++ s.len)) } ∧
    hostAccess (.write .w32 0x00C#14 v) s =
      .next { s with len := v.extractLsb' 0 9, answer := some .done } ∧
    hostAccess (.read .w32 0x010#14) s =
      .next { s with answer := some (.data (s.leakage.extractLsb' 0 32)) } ∧
    hostAccess (.read .w32 0x014#14) s =
      .next { s with answer := some (.data (s.leakage.extractLsb' 32 32)) } ∧
    hostAccess (.write .w32 0x010#14 v) s =
      .next { s with leakage := s.leakage.extractLsb' 32 32 ++ v, answer := some .done } ∧
    hostAccess (.write .w32 0x014#14 v) s =
      .next { s with leakage := v ++ s.leakage.extractLsb' 0 32, answer := some .done }

/-- 20_memory.md R72, R74: at the reserved offsets a read returns 0 and a write is ignored. -/
def Obligations.ReservedOffsetsReadZero : Prop :=
  ∀ (s : State) (off : Offset) (v : Word), off.toNat % 4 = 0 →
    (0x001C ≤ off.toNat ∧ off.toNat < 0x0400) ∨ (0x0A9C ≤ off.toNat ∧ off.toNat < 0x0C00) ∨
      (0x0E34 ≤ off.toNat ∧ off.toNat < 0x1000) ∨ (0x1A00 ≤ off.toNat ∧ off.toNat < 0x2000) ∨
      0x2468 ≤ off.toNat →
    hostAccess (.read .w32 off) s = .next { s with answer := some (.data 0#32) } ∧
    hostAccess (.write .w32 off v) s = .next { s with answer := some .done }

/-- 20_memory.md R75: a write to BYTES[i]'s bus word stores the low 8 bits and ignores the rest; a read
returns them zero-extended. Nothing else changes. -/
def Obligations.BytesElementAccess : Prop :=
  ∀ (s : State) (i : Nat) (off : Offset) (v : Word), i < 423 → off.toNat = 0x0400 + 4 * i →
    ∃ t, hostAccess (.write .w32 off v) s = .next t ∧
      t = { s with mem := t.mem, answer := some .done } ∧
      t.byteAt i = some (v.extractLsb' 0 8) ∧
      (∀ a, a ≠ 0x0400 + 4 * i → Memory.read t.mem a = Memory.read s.mem a) ∧
      hostAccess (.read .w32 off) t =
        .next { t with answer := some (.data (0#24 ++ v.extractLsb' 0 8)) }

/-- 20_memory.md R76: a write to WORDS[i]'s bus word stores the 32-bit pattern, and a read returns it.
Nothing else changes. -/
def Obligations.WordsElementAccess : Prop :=
  ∀ (s : State) (i : Nat) (off : Offset) (v : Word), i < 141 → off.toNat = 0x0C00 + 4 * i →
    ∃ t, hostAccess (.write .w32 off v) s = .next t ∧
      t = { s with mem := t.mem, answer := some .done } ∧ t.wordAt i = some v ∧
      (∀ a, a < 0x0C00 + 4 * i ∨ 0x0C00 + 4 * i + 4 ≤ a →
        Memory.read t.mem a = Memory.read s.mem a) ∧
      hostAccess (.read .w32 off) t = .next { t with answer := some (.data v) }

/-- 20_memory.md R77: a write of one half of a written binary64 element replaces that half and keeps the
other; a read of a half returns it. Nothing else changes. -/
def Obligations.Binary64HalfAccess : Prop :=
  ∀ (s : State) (b : Buffer) (i half : Nat) (off : Offset) (v : Word) (x : F64),
    b ≠ .bytes → b ≠ .words → i < b.count → half < 2 → off.toNat = b.addr i + 4 * half →
    s.f64At b i = some x →
    ∃ t, hostAccess (.write .w32 off v) s = .next t ∧
      t = { s with mem := t.mem, answer := some .done } ∧
      t.f64At b i =
        some (if half = 0 then x.extractLsb' 32 32 ++ v else v ++ x.extractLsb' 0 32) ∧
      (∀ a, a < off.toNat ∨ off.toNat + 4 ≤ a → Memory.read t.mem a = Memory.read s.mem a) ∧
      hostAccess (.read .w32 off) t = .next { t with answer := some (.data v) }

/-- 44_control.md R228: a write of one half of an element whose other half is unwritten leaves the element
unwritten; once both halves have been written it holds both. -/
def Obligations.ElementNeedsBothHalves : Prop :=
  ∀ (s : State) (b : Buffer) (i half : Nat) (off off' : Offset) (v v' : Word),
    b ≠ .bytes → b ≠ .words → i < b.count → half < 2 → off.toNat = b.addr i + 4 * half →
    off'.toNat = b.addr i + 4 * (1 - half) →
    Memory.read s.mem off'.toNat = none →
    ∃ t u, hostAccess (.write .w32 off v) s = .next t ∧ t.written b i = false ∧
      hostAccess (.write .w32 off' v') t = .next u ∧
      u.f64At b i = some (if half = 0 then v' ++ v else v ++ v')

/-- 10_state.md R47: a host read of an unwritten element, of either half, is a fault and no value. An
element of which one half alone is written counts as unwritten (44_control.md R228), so a read of the
written half faults too, which is the model's reading (log entry 12). -/
def Obligations.UnwrittenReadFaults : Prop :=
  ∀ (s : State) (b : Buffer) (i half : Nat) (off : Offset), i < b.count → 4 * half < b.stride →
    off.toNat = b.addr i + 4 * half → s.written b i = false →
    hostAccess (.read .w32 off) s = .fault (.unwritten b i)

/-- 10_state.md R50, 60_exceptions.md R245: IRQ is IE and DONE: every completion raises it when
enabled, with or without error, also one that a held access lets go first (20_memory.md R81); acceptance, clearing DONE and a soft reset lower it. -/
def Obligations.IrqFollowsDoneAndEnable : Prop :=
  ∀ s t : State, s.irq = (s.ie && s.done) ∧
    (s.seq = .busy → s.completionNext = true → step s = .next t → t.irq = s.ie) ∧
    (∀ w, (s.accept w).irq = false) ∧ (∀ v : Word, v.getLsbD 1 = true → (s.clearFlags v).irq = false) ∧
    s.softReset.irq = false
end

