-- ==== Sys2Proof/Laws/Float.lean ====
section
/-! SUPPORT. The shape of binary64 patterns: sign and magnitude of a packed one, and the range that the
open sine and cosine keep (log entry 8). -/

namespace Sys2Proof.Machine

theorem fMag_lt (x : F64) : fMag x < 2 ^ 63 := Nat.mod_lt _ (by decide)

@[simp] theorem fMag_packMag {mag : Nat} (neg : Bool) (h : mag < 2 ^ 63) :
    fMag (packMag neg mag) = mag := by
  cases neg <;> simp [fMag, packMag] <;> omega

/-- The sign says whether the pattern is at least 2^63. -/
theorem fSign_eq_decide (x : F64) : fSign x = decide (2 ^ 63 ≤ x.toNat) := by
  simpa [BitVec.msb_eq_getLsbD_last, fSign] using BitVec.msb_eq_decide x

@[simp] theorem fSign_packMag {mag : Nat} (neg : Bool) (h : mag < 2 ^ 63) :
    fSign (packMag neg mag) = neg := by
  rw [fSign_eq_decide]
  cases neg <;> simp [packMag] <;> omega

/-- A pattern is its sign and its magnitude. -/
theorem packMag_fSign_fMag (x : F64) : packMag (fSign x) (fMag x) = x := by
  apply BitVec.eq_of_toNat_eq
  have := x.isLt
  by_cases h : 2 ^ 63 ≤ x.toNat
  · rw [fSign_eq_decide, decide_eq_true h]
    simp [packMag, fMag]
    omega
  · rw [fSign_eq_decide, decide_eq_false h]
    simp [packMag, fMag]
    omega

/-- A pattern of magnitude 0 is a zero. -/
theorem isZero_of_fMag {x : F64} (h : fMag x = 0) : isZero x := by
  rw [← packMag_fSign_fMag x, h]
  cases fSign x <;> simp [isZero, packMag]

/-- What `keepMag` answers stays within its bound. -/
theorem fMag_keepMag {bound : Nat} (x : F64) (h : bound < 2 ^ 63) : fMag (keepMag bound x) ≤ bound := by
  unfold keepMag
  split
  · assumption
  · rw [fMag_packMag _ h]

/-- The sine's bound is at most the angle, and at most 1.0. -/
theorem sinBound_le (a : Nat) : sinBound a ≤ a ∧ sinBound a ≤ oneMag := by
  unfold sinBound oneMag
  split <;> omega

/-- Up to the angle 99/64 the sine's bound is 1 - 2^-12. -/
theorem sinBound_le_of_angle {a : Nat} (h : a ≤ 0x3FF8C00000000000) :
    sinBound a ≤ 0x3FEFFE0000000000 := by
  unfold sinBound
  rw [if_pos h]
  exact Nat.min_le_right ..

/-- The open sine keeps its bound. -/
theorem fMag_fsin (x : F64) : fMag (fsin x) ≤ sinBound (fMag x) :=
  fMag_keepMag _ (lt_of_le_of_lt (sinBound_le _).1 (fMag_lt x))

/-- The open cosine stays in [-1, 1]. -/
theorem fMag_fcos (x : F64) : fMag (fcos x) ≤ oneMag := fMag_keepMag _ (by decide)

/-- The sine of a zero is a zero. -/
theorem isZero_fsin {x : F64} (h : isZero x) : isZero (fsin x) := by
  have h0 : fMag x = 0 := by rcases h with rfl | rfl <;> rfl
  have := fMag_fsin x
  rw [h0] at this
  exact isZero_of_fMag (Nat.le_zero.1 (this.trans (sinBound_le 0).1))

end Sys2Proof.Machine
end

