-- ==== Sys2Proof/Laws/Memory.lean ====
section
/-! SUPPORT. What the storage operations of Machine/Memory.lean do: a byte read after a write, the
elements a prefix write leaves, the bytes it does not touch, and that every operation keeps the
canonical form. -/

namespace Sys2Proof.Machine

/-! ### Bytes -/

@[simp] theorem Memory.read_nil (a : Nat) : Memory.read [] a = none := rfl

theorem Memory.read_cons (k : Nat) (b : Byte) (m : Memory) (a : Nat) :
    Memory.read ((k, b) :: m) a = if k = a then some b else Memory.read m a := rfl

theorem Memory.read_append (m n : Memory) (a : Nat) :
    Memory.read (m ++ n) a = (Memory.read m a).or (Memory.read n a) := by
  induction m with
  | nil => simp
  | cons c m ih =>
    obtain ⟨k, b⟩ := c
    simp only [List.cons_append, Memory.read_cons]
    split <;> simp [ih]

theorem Memory.read_filter (p : Nat → Bool) (m : Memory) (a : Nat) :
    Memory.read (m.filter (fun c => p c.1)) a = if p a then Memory.read m a else none := by
  induction m with
  | nil => simp
  | cons c m ih =>
    obtain ⟨k, b⟩ := c
    rw [List.filter_cons]
    by_cases hk : k = a
    · subst hk
      cases hp : p k <;> simp_all [Memory.read_cons]
    · cases hp : p k <;> simp_all [Memory.read_cons]

theorem Memory.read_of_absent {m : Memory} {a : Nat} (h : ∀ c ∈ m, c.1 ≠ a) :
    Memory.read m a = none := by
  induction m with
  | nil => rfl
  | cons c m ih =>
    obtain ⟨k, b⟩ := c
    have hk : k ≠ a := h (k, b) (by simp)
    rw [Memory.read_cons, if_neg hk]
    exact ih fun c hc => h c (by simp [hc])

/-- A byte after `put`: the new listing inside [lo, hi), the old one outside. -/
theorem Memory.read_put {lo hi : Nat} {new : Memory} (m : Memory) (a : Nat)
    (hnew : ∀ c ∈ new, lo ≤ c.1 ∧ c.1 < hi) :
    Memory.read (Memory.put lo hi new m) a =
      if lo ≤ a ∧ a < hi then Memory.read new a else Memory.read m a := by
  rw [Memory.put, Memory.read_append, Memory.read_append,
    Memory.read_filter (fun k => decide (k < lo)), Memory.read_filter (fun k => decide (hi ≤ k))]
  by_cases hin : lo ≤ a ∧ a < hi
  · have h1 : ¬ a < lo := by omega
    have h2 : ¬ hi ≤ a := by omega
    simp [hin, h1, h2]
  · have hn : Memory.read new a = none := by
      refine Memory.read_of_absent fun c hc he => hin ?_
      exact he ▸ hnew c hc
    rw [if_neg hin, hn]
    by_cases h1 : a < lo
    · by_cases h2 : hi ≤ a <;> simp [h1, h2]
    · have h2 : hi ≤ a := by omega
      simp [h1, h2]

/-- `put` keeps the canonical form. -/
theorem Memory.put_wf {lo hi : Nat} {new m : Memory} (hle : lo ≤ hi) (hm : Memory.wf m)
    (hn : Memory.wf new) (hnew : ∀ c ∈ new, lo ≤ c.1 ∧ c.1 < hi) :
    Memory.wf (Memory.put lo hi new m) := by
  refine List.pairwise_append.2 ⟨hm.filter _, List.pairwise_append.2 ⟨hn, hm.filter _, ?_⟩, ?_⟩
  · intro c hc d hd
    have := hnew c hc
    simp only [List.mem_filter, decide_eq_true_eq] at hd
    omega
  · intro c hc d hd
    simp only [List.mem_filter, decide_eq_true_eq, List.mem_append] at hc hd
    rcases hd with hd | hd
    · have := hnew d hd
      omega
    · omega

theorem Memory.mem_put {lo hi : Nat} {new m : Memory} {c : Host.Cell}
    (h : c ∈ Memory.put lo hi new m) : c ∈ m ∨ c ∈ new := by
  simp only [Memory.put, List.mem_append, List.mem_filter] at h
  tauto

/-! ### Runs of bytes -/

@[simp] theorem leBytes_length (k v : Nat) : (leBytes k v).length = k := by
  induction k generalizing v with
  | zero => rfl
  | succ k ih => simp [leBytes, ih]

theorem cellsFrom_bounds {a : Nat} {bs : List Byte} {c : Host.Cell} (h : c ∈ cellsFrom a bs) :
    a ≤ c.1 ∧ c.1 < a + bs.length := by
  induction bs generalizing a with
  | nil => simp [cellsFrom] at h
  | cons b bs ih =>
    simp only [cellsFrom, List.mem_cons] at h
    rcases h with rfl | h
    · simp
    · have := ih h
      simp only [List.length_cons]
      omega

theorem cellsFrom_wf (a : Nat) (bs : List Byte) : Memory.wf (cellsFrom a bs) := by
  induction bs generalizing a with
  | nil => exact List.Pairwise.nil
  | cons b bs ih =>
    refine List.Pairwise.cons (fun c hc => ?_) (ih (a + 1))
    have := cellsFrom_bounds hc
    simp only
    omega

theorem read_cellsFrom (a : Nat) (bs : List Byte) (x : Nat) :
    Memory.read (cellsFrom a bs) x = if a ≤ x then bs[x - a]? else none := by
  induction bs generalizing a with
  | nil => simp [cellsFrom]
  | cons b bs ih =>
    rw [cellsFrom, Memory.read_cons, ih]
    by_cases h : a = x
    · subst h; simp
    · by_cases h2 : a ≤ x
      · have h3 : a + 1 ≤ x := by omega
        have h4 : x - a = (x - (a + 1)) + 1 := by omega
        rw [if_neg h, if_pos h3, if_pos h2, h4, List.getElem?_cons_succ]
      · have h3 : ¬ a + 1 ≤ x := by omega
        simp [h, h2, h3]

/-- A number is read back from the same bytes. -/
theorem Memory.readLe_congr {m n : Memory} {a k : Nat}
    (h : ∀ x, a ≤ x → x < a + k → Memory.read m x = Memory.read n x) :
    Memory.readLe m a k = Memory.readLe n a k := by
  induction k generalizing a with
  | zero => rfl
  | succ k ih =>
    rw [Memory.readLe, Memory.readLe, h a (by omega) (by omega),
      ih fun x h1 h2 => h x (by omega) (by omega)]

/-- The little-endian bytes of a number give it back, up to their width. -/
theorem Memory.readLe_leBytes {m : Memory} {a k v : Nat}
    (h : ∀ j, j < k → Memory.read m (a + j) = (leBytes k v)[j]?) :
    Memory.readLe m a k = some (v % 256 ^ k) := by
  induction k generalizing a v with
  | zero => simp [Memory.readLe, Nat.mod_one]
  | succ k ih =>
    have h0 : Memory.read m a = some (BitVec.ofNat 8 v) := by simpa [leBytes] using h 0 (by omega)
    have h1 : Memory.readLe m (a + 1) k = some (v / 256 % 256 ^ k) := by
      refine ih fun j hj => ?_
      have := h (j + 1) (by omega)
      rw [leBytes, List.getElem?_cons_succ] at this
      rw [← this]; congr 1; omega
    rw [Memory.readLe, h0, h1]
    have : v % 256 ^ (k + 1) = v % 256 + 256 * (v / 256 % 256 ^ k) := by
      rw [Nat.pow_succ, Nat.mul_comm, Nat.mod_mul]
    simp [this]

/-- A number is read exactly when all its bytes are written. -/
theorem Memory.readLe_isSome (m : Memory) (a k : Nat) :
    (Memory.readLe m a k).isSome ↔ ∀ x, a ≤ x → x < a + k → (Memory.read m x).isSome := by
  induction k generalizing a with
  | zero =>
    simp only [Memory.readLe, Option.isSome_some, true_iff]
    intro x h1 h2
    omega
  | succ k ih =>
    have hsplit : (Memory.readLe m a (k + 1)).isSome ↔
        (Memory.read m a).isSome ∧ (Memory.readLe m (a + 1) k).isSome := by
      rw [Memory.readLe]
      cases Memory.read m a <;> cases Memory.readLe m (a + 1) k <;> simp
    rw [hsplit, ih]
    constructor
    · rintro ⟨h0, h⟩ x h1 h2
      by_cases hx : x = a
      · exact hx ▸ h0
      · exact h x (by omega) (by omega)
    · intro h
      exact ⟨h a (by omega) (by omega), fun x h1 h2 => h x (by omega) (by omega)⟩

/-! ### Elements -/

theorem Buffer.width_le_stride (b : Buffer) : b.width ≤ b.stride := by cases b <;> decide

theorem Buffer.width_pos (b : Buffer) : 0 < b.width := by cases b <;> decide

theorem Buffer.addr_succ (b : Buffer) (i : Nat) : b.addr (i + 1) = b.addr i + b.stride := by
  simp [Buffer.addr, Nat.mul_add]; omega

theorem Buffer.addr_mono (b : Buffer) {i j : Nat} (h : i ≤ j) : b.addr i ≤ b.addr j :=
  Nat.add_le_add_left (Nat.mul_le_mul_left _ h) _

theorem elemCells_bounds {b : Buffer} {i : Nat} {vs : List Nat} {c : Host.Cell}
    (h : c ∈ elemCells b i vs) : b.addr i ≤ c.1 ∧ c.1 < b.addr (i + vs.length) := by
  induction vs generalizing i with
  | nil => simp [elemCells] at h
  | cons v vs ih =>
    have hs := b.addr_succ i
    have hw := b.width_le_stride
    have hm := b.addr_mono (show i + 1 ≤ i + (vs.length + 1) by omega)
    rw [elemCells, List.mem_append] at h
    rcases h with h | h
    · have := cellsFrom_bounds h
      simp only [leBytes_length, List.length_cons] at this ⊢
      omega
    · have := ih h
      rw [show i + 1 + vs.length = i + (v :: vs).length by simp; omega] at this
      omega

theorem elemCells_wf (b : Buffer) (i : Nat) (vs : List Nat) : Memory.wf (elemCells b i vs) := by
  induction vs generalizing i with
  | nil => exact List.Pairwise.nil
  | cons v vs ih =>
    refine List.pairwise_append.2 ⟨cellsFrom_wf _ _, ih (i + 1), fun c hc d hd => ?_⟩
    have h1 := cellsFrom_bounds hc
    have h2 := (elemCells_bounds hd).1
    have hs := b.addr_succ i
    have hw := b.width_le_stride
    simp only [leBytes_length] at h1
    omega

/-- The bytes of element i + j among the cells written from element i on. -/
theorem read_elemCells {b : Buffer} {i j k : Nat} {vs : List Nat} (hj : j < vs.length)
    (hk : k < b.width) :
    Memory.read (elemCells b i vs) (b.addr (i + j) + k) = (leBytes b.width vs[j])[k]? := by
  induction vs generalizing i j with
  | nil => simp at hj
  | cons v vs ih =>
    have hs := b.addr_succ i
    have hw := b.width_le_stride
    rw [elemCells, Memory.read_append]
    cases j with
    | zero =>
      rw [read_cellsFrom, Nat.add_zero, if_pos (by omega), Nat.add_sub_cancel_left]
      have hl : k < (leBytes b.width v).length := by rw [leBytes_length]; exact hk
      rw [List.getElem_cons_zero, List.getElem?_eq_getElem hl, Option.some_or]
    | succ j =>
      have hm := b.addr_mono (show i + 1 ≤ i + (j + 1) by omega)
      have h0 : Memory.read (cellsFrom (b.addr i) (leBytes b.width v)) (b.addr (i + (j + 1)) + k)
          = none := by
        refine Memory.read_of_absent fun c hc he => ?_
        have := cellsFrom_bounds hc
        simp only [leBytes_length] at this
        omega
      rw [h0, Option.none_or, show i + (j + 1) = i + 1 + j by omega, ih (by simpa using hj)]
      rfl

/-- Element i after a prefix write that reaches it. -/
theorem Memory.readElem_writePrefix {m : Memory} {b : Buffer} {vs : List Nat} {i : Nat}
    (h : i < vs.length) :
    Memory.readElem (Memory.writePrefix m b vs) b i = some (vs[i] % 256 ^ b.width) := by
  refine Memory.readLe_leBytes fun j hj => ?_
  have hb : ∀ c ∈ elemCells b 0 vs, b.base ≤ c.1 ∧ c.1 < b.addr vs.length := by
    intro c hc
    have := elemCells_bounds hc
    simpa [Buffer.addr] using this
  have h1 := b.addr_succ i
  have h2 := b.addr_mono (show i + 1 ≤ vs.length by omega)
  have h3 := b.width_le_stride
  have h4 : b.base ≤ b.addr i := by simp [Buffer.addr]
  have := read_elemCells (b := b) (i := 0) h hj
  rw [Nat.zero_add] at this
  rw [Memory.writePrefix, Memory.read_put _ _ hb, if_pos (by omega), this]

/-- A prefix write leaves every byte outside the bus words of the elements it writes. -/
theorem Memory.read_writePrefix_outside {m : Memory} {b : Buffer} {vs : List Nat} {a : Nat}
    (h : a < b.base ∨ b.addr vs.length ≤ a) :
    Memory.read (Memory.writePrefix m b vs) a = Memory.read m a := by
  have hb : ∀ c ∈ elemCells b 0 vs, b.base ≤ c.1 ∧ c.1 < b.addr vs.length := by
    intro c hc
    have := elemCells_bounds hc
    simpa [Buffer.addr] using this
  rw [Memory.writePrefix, Memory.read_put _ _ hb, if_neg (by omega)]

/-- Forgetting a prefix leaves every byte outside, and none inside. -/
theorem Memory.read_forgetPrefix (m : Memory) (b : Buffer) (n a : Nat) :
    Memory.read (Memory.forgetPrefix m b n) a =
      if b.base ≤ a ∧ a < b.addr n then none else Memory.read m a := by
  rw [Memory.forgetPrefix, Memory.read_put _ _ (by simp)]
  rfl

/-- A byte after a write of a run of bytes. -/
theorem Memory.read_writeAt (m : Memory) (a : Nat) (bs : List Byte) (x : Nat) :
    Memory.read (Memory.writeAt m a bs) x =
      if a ≤ x ∧ x < a + bs.length then bs[x - a]? else Memory.read m x := by
  rw [Memory.writeAt, Memory.read_put _ _ fun c hc => cellsFrom_bounds hc]
  by_cases h : a ≤ x ∧ x < a + bs.length
  · rw [if_pos h, if_pos h, read_cellsFrom, if_pos h.1]
  · rw [if_neg h, if_neg h]

/-- Elements read the same where their bytes do. -/
theorem Memory.readElem_congr {m n : Memory} {b : Buffer} {i : Nat}
    (h : ∀ x, b.addr i ≤ x → x < b.addr i + b.width → Memory.read m x = Memory.read n x) :
    Memory.readElem m b i = Memory.readElem n b i :=
  Memory.readLe_congr h

/-- The windows of the map do not overlap: an element of one buffer is outside another's window. -/
theorem Buffer.disjoint {b c : Buffer} (hne : b ≠ c) {i n : Nat} (hi : i < b.count)
    (hn : n ≤ c.count) : b.addr i + b.width ≤ c.base ∨ c.addr n ≤ b.addr i := by
  cases b <;> cases c <;>
    simp_all [Buffer.addr, Buffer.base, Buffer.stride, Buffer.width, Buffer.count] <;> omega

/-- An element of another buffer, or beyond the prefix, is as before a prefix write. -/
theorem Memory.readElem_writePrefix_other {m : Memory} {b c : Buffer} {vs : List Nat} {i : Nat}
    (h : b ≠ c ∧ i < b.count ∧ vs.length ≤ c.count ∨ b = c ∧ vs.length ≤ i) :
    Memory.readElem (Memory.writePrefix m c vs) b i = Memory.readElem m b i := by
  refine Memory.readElem_congr fun x h1 h2 => Memory.read_writePrefix_outside ?_
  rcases h with ⟨hne, hi, hn⟩ | ⟨rfl, hi⟩
  · have := Buffer.disjoint hne hi hn
    omega
  · have := b.addr_mono hi
    omega

/-- What reading elements i, ..., i+n-1 answers: their values, when all are written. -/
theorem Memory.readElems_ok {m : Memory} {b : Buffer} {i n : Nat} {vs : List Nat} :
    Memory.readElems m b i n = .ok vs ↔
      vs.length = n ∧ ∀ k (h : k < vs.length), Memory.readElem m b (i + k) = some vs[k] := by
  induction n generalizing i vs with
  | zero =>
    simp only [Memory.readElems, Except.ok.injEq]
    constructor
    · rintro rfl; simp
    · rintro ⟨h, -⟩; exact (List.length_eq_zero_iff.1 h).symm
  | succ n ih =>
    rw [Memory.readElems]
    cases hv : Memory.readElem m b i with
    | none =>
      simp only [reduceCtorEq, false_iff, not_and]
      intro hl h
      have := h 0 (by omega)
      simp [hv] at this
    | some v =>
      cases hr : Memory.readElems m b (i + 1) n with
      | error k =>
        simp only [reduceCtorEq, false_iff, not_and]
        intro hl h
        cases vs with
        | nil => simp at hl
        | cons w ws =>
          have := (ih (i := i + 1) (vs := ws)).2 ⟨by simpa using hl, fun k hk => by
            have := h (k + 1) (by simpa using hk)
            rw [show i + 1 + k = i + (k + 1) by omega]
            simpa using this⟩
          simp [hr] at this
      | ok us =>
        have hus := (ih (i := i + 1) (vs := us)).1 hr
        simp only [Except.ok.injEq]
        constructor
        · rintro rfl
          refine ⟨by simp [hus.1], fun k hk => ?_⟩
          cases k with
          | zero => simpa using hv
          | succ k =>
            have := hus.2 k (by simpa using hk)
            rw [show i + (k + 1) = i + 1 + k by omega]
            simpa using this
        · rintro ⟨hl, h⟩
          cases vs with
          | nil => simp at hl
          | cons w ws =>
            have h0 := h 0 (by simp)
            have hws := (ih (i := i + 1) (vs := ws)).2 ⟨by simpa using hl, fun k hk => by
              have := h (k + 1) (by simpa using hk)
              rw [show i + 1 + k = i + (k + 1) by omega]
              simpa using this⟩
            rw [hr] at hws
            simp [hv] at h0
            simp_all

/-- The first unwritten element of a run that cannot be read. -/
theorem Memory.readElems_error {m : Memory} {b : Buffer} {i n k : Nat}
    (h : Memory.readElems m b i n = .error k) :
    i ≤ k ∧ k < i + n ∧ Memory.readElem m b k = none := by
  induction n generalizing i with
  | zero => simp [Memory.readElems] at h
  | succ n ih =>
    rw [Memory.readElems] at h
    cases hv : Memory.readElem m b i with
    | none =>
      simp only [hv, Except.error.injEq] at h
      subst h
      exact ⟨by omega, by omega, hv⟩
    | some v =>
      rw [hv] at h
      cases hr : Memory.readElems m b (i + 1) n with
      | error j =>
        simp only [hr, Except.error.injEq] at h
        have := ih (h ▸ hr)
        exact ⟨by omega, by omega, this.2.2⟩
      | ok us => simp [hr] at h

/-! ### The canonical form -/

/-- A prefix write keeps the canonical form. -/
theorem Memory.writePrefix_wf {m : Memory} (b : Buffer) (vs : List Nat) (h : Memory.wf m) :
    Memory.wf (Memory.writePrefix m b vs) := by
  refine Memory.put_wf (by simp [Buffer.addr]) h (elemCells_wf _ _ _) fun c hc => ?_
  have := elemCells_bounds hc
  simpa [Buffer.addr] using this

/-- Forgetting a prefix keeps the canonical form. -/
theorem Memory.forgetPrefix_wf {m : Memory} (b : Buffer) (n : Nat) (h : Memory.wf m) :
    Memory.wf (Memory.forgetPrefix m b n) :=
  Memory.put_wf (by simp [Buffer.addr]) h List.Pairwise.nil (by simp)

/-- A write of a run of bytes keeps the canonical form. -/
theorem Memory.writeAt_wf {m : Memory} (a : Nat) (bs : List Byte) (h : Memory.wf m) :
    Memory.wf (Memory.writeAt m a bs) :=
  Memory.put_wf (by omega) h (cellsFrom_wf _ _) fun _ hc => cellsFrom_bounds hc

/-- The storage after power-on reset has the canonical form. -/
theorem reset_memory_wf : Memory.wf State.reset.mem := List.Pairwise.nil

end Sys2Proof.Machine
end

