-- ==== Sys2Proof/Laws/State.lean ====
section
/-! SUPPORT. One lemma per field per update of the state, each true by unfolding, so that no later proof
unfolds a record update. -/

namespace Sys2Proof.Machine

variable (s : State)

/-! ### completeOk -/

@[simp] theorem State.completeOk_seq : s.completeOk.seq = .idle := rfl
@[simp] theorem State.completeOk_cmdl : s.completeOk.cmdl = s.cmdl := rfl
@[simp] theorem State.completeOk_done : s.completeOk.done = true := rfl
@[simp] theorem State.completeOk_err : s.completeOk.err = false := rfl
@[simp] theorem State.completeOk_ovr : s.completeOk.ovr = s.ovr := rfl
@[simp] theorem State.completeOk_errcode : s.completeOk.errcode = 0#4 := rfl
@[simp] theorem State.completeOk_len : s.completeOk.len = s.len := rfl
@[simp] theorem State.completeOk_leakage : s.completeOk.leakage = s.leakage := rfl
@[simp] theorem State.completeOk_ie : s.completeOk.ie = s.ie := rfl
@[simp] theorem State.completeOk_mem : s.completeOk.mem = s.mem := rfl
@[simp] theorem State.completeOk_agenda : s.completeOk.agenda = s.agenda := rfl
@[simp] theorem State.completeOk_answer : s.completeOk.answer = s.answer := rfl

/-! ### completeErr -/

@[simp] theorem State.completeErr_seq (e : ErrorCode) : (s.completeErr e).seq = .idle := rfl
@[simp] theorem State.completeErr_cmdl (e : ErrorCode) : (s.completeErr e).cmdl = s.cmdl := rfl
@[simp] theorem State.completeErr_done (e : ErrorCode) : (s.completeErr e).done = true := rfl
@[simp] theorem State.completeErr_err (e : ErrorCode) : (s.completeErr e).err = true := rfl
@[simp] theorem State.completeErr_ovr (e : ErrorCode) : (s.completeErr e).ovr = s.ovr := rfl
@[simp] theorem State.completeErr_errcode (e : ErrorCode) :
    (s.completeErr e).errcode = e.code := rfl
@[simp] theorem State.completeErr_len (e : ErrorCode) : (s.completeErr e).len = s.len := rfl
@[simp] theorem State.completeErr_leakage (e : ErrorCode) :
    (s.completeErr e).leakage = s.leakage := rfl
@[simp] theorem State.completeErr_ie (e : ErrorCode) : (s.completeErr e).ie = s.ie := rfl
@[simp] theorem State.completeErr_mem (e : ErrorCode) : (s.completeErr e).mem = s.mem := rfl
@[simp] theorem State.completeErr_agenda (e : ErrorCode) :
    (s.completeErr e).agenda = s.agenda := rfl
@[simp] theorem State.completeErr_answer (e : ErrorCode) :
    (s.completeErr e).answer = s.answer := rfl

/-! ### accept -/

@[simp] theorem State.accept_seq (w : Word) : (s.accept w).seq = .busy := rfl
@[simp] theorem State.accept_cmdl (w : Word) : (s.accept w).cmdl = w := rfl
@[simp] theorem State.accept_done (w : Word) : (s.accept w).done = false := rfl
@[simp] theorem State.accept_err (w : Word) : (s.accept w).err = false := rfl
@[simp] theorem State.accept_ovr (w : Word) : (s.accept w).ovr = s.ovr := rfl
@[simp] theorem State.accept_errcode (w : Word) : (s.accept w).errcode = 0#4 := rfl
@[simp] theorem State.accept_len (w : Word) : (s.accept w).len = s.len := rfl
@[simp] theorem State.accept_leakage (w : Word) : (s.accept w).leakage = s.leakage := rfl
@[simp] theorem State.accept_ie (w : Word) : (s.accept w).ie = s.ie := rfl
@[simp] theorem State.accept_mem (w : Word) : (s.accept w).mem = s.mem := rfl
@[simp] theorem State.accept_agenda (w : Word) : (s.accept w).agenda = s.agenda := rfl
@[simp] theorem State.accept_answer (w : Word) : (s.accept w).answer = s.answer := rfl

/-! ### dropSubmission -/

@[simp] theorem State.dropSubmission_seq : s.dropSubmission.seq = s.seq := rfl
@[simp] theorem State.dropSubmission_cmdl : s.dropSubmission.cmdl = s.cmdl := rfl
@[simp] theorem State.dropSubmission_done : s.dropSubmission.done = s.done := rfl
@[simp] theorem State.dropSubmission_err : s.dropSubmission.err = s.err := rfl
@[simp] theorem State.dropSubmission_ovr : s.dropSubmission.ovr = true := rfl
@[simp] theorem State.dropSubmission_errcode : s.dropSubmission.errcode = s.errcode := rfl
@[simp] theorem State.dropSubmission_len : s.dropSubmission.len = s.len := rfl
@[simp] theorem State.dropSubmission_leakage : s.dropSubmission.leakage = s.leakage := rfl
@[simp] theorem State.dropSubmission_ie : s.dropSubmission.ie = s.ie := rfl
@[simp] theorem State.dropSubmission_mem : s.dropSubmission.mem = s.mem := rfl
@[simp] theorem State.dropSubmission_agenda : s.dropSubmission.agenda = s.agenda := rfl
@[simp] theorem State.dropSubmission_answer : s.dropSubmission.answer = s.answer := rfl

/-! ### clearFlags -/

@[simp] theorem State.clearFlags_seq (v : Word) : (s.clearFlags v).seq = s.seq := rfl
@[simp] theorem State.clearFlags_cmdl (v : Word) : (s.clearFlags v).cmdl = s.cmdl := rfl
@[simp] theorem State.clearFlags_done (v : Word) :
    (s.clearFlags v).done = (s.done && !v.getLsbD 1) := rfl
@[simp] theorem State.clearFlags_err (v : Word) :
    (s.clearFlags v).err = (s.err && !v.getLsbD 2) := rfl
@[simp] theorem State.clearFlags_ovr (v : Word) :
    (s.clearFlags v).ovr = (s.ovr && !v.getLsbD 3) := rfl
@[simp] theorem State.clearFlags_errcode (v : Word) : (s.clearFlags v).errcode = s.errcode := rfl
@[simp] theorem State.clearFlags_len (v : Word) : (s.clearFlags v).len = s.len := rfl
@[simp] theorem State.clearFlags_leakage (v : Word) : (s.clearFlags v).leakage = s.leakage := rfl
@[simp] theorem State.clearFlags_ie (v : Word) : (s.clearFlags v).ie = s.ie := rfl
@[simp] theorem State.clearFlags_mem (v : Word) : (s.clearFlags v).mem = s.mem := rfl
@[simp] theorem State.clearFlags_agenda (v : Word) : (s.clearFlags v).agenda = s.agenda := rfl
@[simp] theorem State.clearFlags_answer (v : Word) : (s.clearFlags v).answer = s.answer := rfl

/-! ### setBytes -/

@[simp] theorem State.setBytes_seq (vs : List Byte) : (s.setBytes vs).seq = s.seq := rfl
@[simp] theorem State.setBytes_cmdl (vs : List Byte) : (s.setBytes vs).cmdl = s.cmdl := rfl
@[simp] theorem State.setBytes_done (vs : List Byte) : (s.setBytes vs).done = s.done := rfl
@[simp] theorem State.setBytes_err (vs : List Byte) : (s.setBytes vs).err = s.err := rfl
@[simp] theorem State.setBytes_ovr (vs : List Byte) : (s.setBytes vs).ovr = s.ovr := rfl
@[simp] theorem State.setBytes_errcode (vs : List Byte) : (s.setBytes vs).errcode = s.errcode := rfl
@[simp] theorem State.setBytes_len (vs : List Byte) : (s.setBytes vs).len = s.len := rfl
@[simp] theorem State.setBytes_leakage (vs : List Byte) : (s.setBytes vs).leakage = s.leakage := rfl
@[simp] theorem State.setBytes_ie (vs : List Byte) : (s.setBytes vs).ie = s.ie := rfl
@[simp] theorem State.setBytes_mem (vs : List Byte) :
    (s.setBytes vs).mem = Memory.writePrefix s.mem .bytes (vs.map BitVec.toNat) := rfl
@[simp] theorem State.setBytes_agenda (vs : List Byte) : (s.setBytes vs).agenda = s.agenda := rfl
@[simp] theorem State.setBytes_answer (vs : List Byte) : (s.setBytes vs).answer = s.answer := rfl

/-! ### setWords -/

@[simp] theorem State.setWords_seq (vs : List Word) : (s.setWords vs).seq = s.seq := rfl
@[simp] theorem State.setWords_cmdl (vs : List Word) : (s.setWords vs).cmdl = s.cmdl := rfl
@[simp] theorem State.setWords_done (vs : List Word) : (s.setWords vs).done = s.done := rfl
@[simp] theorem State.setWords_err (vs : List Word) : (s.setWords vs).err = s.err := rfl
@[simp] theorem State.setWords_ovr (vs : List Word) : (s.setWords vs).ovr = s.ovr := rfl
@[simp] theorem State.setWords_errcode (vs : List Word) : (s.setWords vs).errcode = s.errcode := rfl
@[simp] theorem State.setWords_len (vs : List Word) : (s.setWords vs).len = s.len := rfl
@[simp] theorem State.setWords_leakage (vs : List Word) : (s.setWords vs).leakage = s.leakage := rfl
@[simp] theorem State.setWords_ie (vs : List Word) : (s.setWords vs).ie = s.ie := rfl
@[simp] theorem State.setWords_mem (vs : List Word) :
    (s.setWords vs).mem = Memory.writePrefix s.mem .words (vs.map BitVec.toNat) := rfl
@[simp] theorem State.setWords_agenda (vs : List Word) : (s.setWords vs).agenda = s.agenda := rfl
@[simp] theorem State.setWords_answer (vs : List Word) : (s.setWords vs).answer = s.answer := rfl

/-! ### setF64s -/

@[simp] theorem State.setF64s_seq (b : Buffer) (vs : List F64) : (s.setF64s b vs).seq = s.seq := rfl
@[simp] theorem State.setF64s_cmdl (b : Buffer) (vs : List F64) :
    (s.setF64s b vs).cmdl = s.cmdl := rfl
@[simp] theorem State.setF64s_done (b : Buffer) (vs : List F64) :
    (s.setF64s b vs).done = s.done := rfl
@[simp] theorem State.setF64s_err (b : Buffer) (vs : List F64) : (s.setF64s b vs).err = s.err := rfl
@[simp] theorem State.setF64s_ovr (b : Buffer) (vs : List F64) : (s.setF64s b vs).ovr = s.ovr := rfl
@[simp] theorem State.setF64s_errcode (b : Buffer) (vs : List F64) :
    (s.setF64s b vs).errcode = s.errcode := rfl
@[simp] theorem State.setF64s_len (b : Buffer) (vs : List F64) : (s.setF64s b vs).len = s.len := rfl
@[simp] theorem State.setF64s_leakage (b : Buffer) (vs : List F64) :
    (s.setF64s b vs).leakage = s.leakage := rfl
@[simp] theorem State.setF64s_ie (b : Buffer) (vs : List F64) : (s.setF64s b vs).ie = s.ie := rfl
@[simp] theorem State.setF64s_mem (b : Buffer) (vs : List F64) :
    (s.setF64s b vs).mem = Memory.writePrefix s.mem b (vs.map BitVec.toNat) := rfl
@[simp] theorem State.setF64s_agenda (b : Buffer) (vs : List F64) :
    (s.setF64s b vs).agenda = s.agenda := rfl
@[simp] theorem State.setF64s_answer (b : Buffer) (vs : List F64) :
    (s.setF64s b vs).answer = s.answer := rfl

/-! ### setLen -/

@[simp] theorem State.setLen_seq (n : Nat) : (s.setLen n).seq = s.seq := rfl
@[simp] theorem State.setLen_cmdl (n : Nat) : (s.setLen n).cmdl = s.cmdl := rfl
@[simp] theorem State.setLen_done (n : Nat) : (s.setLen n).done = s.done := rfl
@[simp] theorem State.setLen_err (n : Nat) : (s.setLen n).err = s.err := rfl
@[simp] theorem State.setLen_ovr (n : Nat) : (s.setLen n).ovr = s.ovr := rfl
@[simp] theorem State.setLen_errcode (n : Nat) : (s.setLen n).errcode = s.errcode := rfl
@[simp] theorem State.setLen_len (n : Nat) : (s.setLen n).len = BitVec.ofNat 9 n := rfl
@[simp] theorem State.setLen_leakage (n : Nat) : (s.setLen n).leakage = s.leakage := rfl
@[simp] theorem State.setLen_ie (n : Nat) : (s.setLen n).ie = s.ie := rfl
@[simp] theorem State.setLen_mem (n : Nat) : (s.setLen n).mem = s.mem := rfl
@[simp] theorem State.setLen_agenda (n : Nat) : (s.setLen n).agenda = s.agenda := rfl
@[simp] theorem State.setLen_answer (n : Nat) : (s.setLen n).answer = s.answer := rfl

/-! ### forget -/

@[simp] theorem State.forget_seq (b : Buffer) (n : Nat) : (s.forget b n).seq = s.seq := rfl
@[simp] theorem State.forget_cmdl (b : Buffer) (n : Nat) : (s.forget b n).cmdl = s.cmdl := rfl
@[simp] theorem State.forget_done (b : Buffer) (n : Nat) : (s.forget b n).done = s.done := rfl
@[simp] theorem State.forget_err (b : Buffer) (n : Nat) : (s.forget b n).err = s.err := rfl
@[simp] theorem State.forget_ovr (b : Buffer) (n : Nat) : (s.forget b n).ovr = s.ovr := rfl
@[simp] theorem State.forget_errcode (b : Buffer) (n : Nat) :
    (s.forget b n).errcode = s.errcode := rfl
@[simp] theorem State.forget_len (b : Buffer) (n : Nat) : (s.forget b n).len = s.len := rfl
@[simp] theorem State.forget_leakage (b : Buffer) (n : Nat) :
    (s.forget b n).leakage = s.leakage := rfl
@[simp] theorem State.forget_ie (b : Buffer) (n : Nat) : (s.forget b n).ie = s.ie := rfl
@[simp] theorem State.forget_mem (b : Buffer) (n : Nat) :
    (s.forget b n).mem = Memory.forgetPrefix s.mem b n := rfl
@[simp] theorem State.forget_agenda (b : Buffer) (n : Nat) : (s.forget b n).agenda = s.agenda := rfl
@[simp] theorem State.forget_answer (b : Buffer) (n : Nat) : (s.forget b n).answer = s.answer := rfl

/-! ### resetRegisters -/

@[simp] theorem State.resetRegisters_seq : s.resetRegisters.seq = .idle := rfl
@[simp] theorem State.resetRegisters_cmdl : s.resetRegisters.cmdl = 0#32 := rfl
@[simp] theorem State.resetRegisters_done : s.resetRegisters.done = false := rfl
@[simp] theorem State.resetRegisters_err : s.resetRegisters.err = false := rfl
@[simp] theorem State.resetRegisters_ovr : s.resetRegisters.ovr = false := rfl
@[simp] theorem State.resetRegisters_errcode : s.resetRegisters.errcode = 0#4 := rfl
@[simp] theorem State.resetRegisters_len : s.resetRegisters.len = 0#9 := rfl
@[simp] theorem State.resetRegisters_leakage : s.resetRegisters.leakage = 0#64 := rfl
@[simp] theorem State.resetRegisters_ie : s.resetRegisters.ie = false := rfl
@[simp] theorem State.resetRegisters_mem : s.resetRegisters.mem = s.mem := rfl
@[simp] theorem State.resetRegisters_agenda : s.resetRegisters.agenda = s.agenda := rfl
@[simp] theorem State.resetRegisters_answer : s.resetRegisters.answer = s.answer := rfl

/-! ### writeElem -/

@[simp] theorem State.writeElem_seq (b : Buffer) (i half : Nat) (v : Word) :
    (s.writeElem b i half v).seq = s.seq := rfl
@[simp] theorem State.writeElem_cmdl (b : Buffer) (i half : Nat) (v : Word) :
    (s.writeElem b i half v).cmdl = s.cmdl := rfl
@[simp] theorem State.writeElem_done (b : Buffer) (i half : Nat) (v : Word) :
    (s.writeElem b i half v).done = s.done := rfl
@[simp] theorem State.writeElem_err (b : Buffer) (i half : Nat) (v : Word) :
    (s.writeElem b i half v).err = s.err := rfl
@[simp] theorem State.writeElem_ovr (b : Buffer) (i half : Nat) (v : Word) :
    (s.writeElem b i half v).ovr = s.ovr := rfl
@[simp] theorem State.writeElem_errcode (b : Buffer) (i half : Nat) (v : Word) :
    (s.writeElem b i half v).errcode = s.errcode := rfl
@[simp] theorem State.writeElem_len (b : Buffer) (i half : Nat) (v : Word) :
    (s.writeElem b i half v).len = s.len := rfl
@[simp] theorem State.writeElem_leakage (b : Buffer) (i half : Nat) (v : Word) :
    (s.writeElem b i half v).leakage = s.leakage := rfl
@[simp] theorem State.writeElem_ie (b : Buffer) (i half : Nat) (v : Word) :
    (s.writeElem b i half v).ie = s.ie := rfl
@[simp] theorem State.writeElem_mem (b : Buffer) (i half : Nat) (v : Word) :
    (s.writeElem b i half v).mem = Memory.writeAt s.mem (b.addr i + 4 * half) (storedBytes b v) := rfl
@[simp] theorem State.writeElem_agenda (b : Buffer) (i half : Nat) (v : Word) :
    (s.writeElem b i half v).agenda = s.agenda := rfl
@[simp] theorem State.writeElem_answer (b : Buffer) (i half : Nat) (v : Word) :
    (s.writeElem b i half v).answer = s.answer := rfl

/-! ### reply -/

@[simp] theorem State.reply_seq (a : BusAnswer) : (s.reply a).seq = s.seq := rfl
@[simp] theorem State.reply_cmdl (a : BusAnswer) : (s.reply a).cmdl = s.cmdl := rfl
@[simp] theorem State.reply_done (a : BusAnswer) : (s.reply a).done = s.done := rfl
@[simp] theorem State.reply_err (a : BusAnswer) : (s.reply a).err = s.err := rfl
@[simp] theorem State.reply_ovr (a : BusAnswer) : (s.reply a).ovr = s.ovr := rfl
@[simp] theorem State.reply_errcode (a : BusAnswer) : (s.reply a).errcode = s.errcode := rfl
@[simp] theorem State.reply_len (a : BusAnswer) : (s.reply a).len = s.len := rfl
@[simp] theorem State.reply_leakage (a : BusAnswer) : (s.reply a).leakage = s.leakage := rfl
@[simp] theorem State.reply_ie (a : BusAnswer) : (s.reply a).ie = s.ie := rfl
@[simp] theorem State.reply_mem (a : BusAnswer) : (s.reply a).mem = s.mem := rfl
@[simp] theorem State.reply_agenda (a : BusAnswer) : (s.reply a).agenda = s.agenda := rfl
@[simp] theorem State.reply_answer (a : BusAnswer) : (s.reply a).answer = some a := rfl

/-! ### popTurn -/

@[simp] theorem State.popTurn_seq : s.popTurn.seq = s.seq := rfl
@[simp] theorem State.popTurn_cmdl : s.popTurn.cmdl = s.cmdl := rfl
@[simp] theorem State.popTurn_done : s.popTurn.done = s.done := rfl
@[simp] theorem State.popTurn_err : s.popTurn.err = s.err := rfl
@[simp] theorem State.popTurn_ovr : s.popTurn.ovr = s.ovr := rfl
@[simp] theorem State.popTurn_errcode : s.popTurn.errcode = s.errcode := rfl
@[simp] theorem State.popTurn_len : s.popTurn.len = s.len := rfl
@[simp] theorem State.popTurn_leakage : s.popTurn.leakage = s.leakage := rfl
@[simp] theorem State.popTurn_ie : s.popTurn.ie = s.ie := rfl
@[simp] theorem State.popTurn_mem : s.popTurn.mem = s.mem := rfl
@[simp] theorem State.popTurn_agenda : s.popTurn.agenda = s.agenda.tail := rfl
@[simp] theorem State.popTurn_answer : s.popTurn.answer = s.answer := rfl

end Sys2Proof.Machine
end

