-- ==== Sys2Proof/Laws/Ops.lean ====
section
/-! SUPPORT. What each shared operation can do, once: reading operands, checking, ending a command,
writing a buffer's prefix, and performing a host access. -/

namespace Sys2Proof.Machine

/-! ### Reading operands -/

/-- Reading operands goes on with the elements when all are written, and faults at the first unwritten
one otherwise. -/
theorem State.withElems_cases (s : State) (b : Buffer) (n : Nat) (k : List Nat → Result) :
    (∃ vs, vs.length = n ∧ (∀ i (h : i < vs.length), Memory.readElem s.mem b i = some vs[i]) ∧
        s.withElems b n k = k vs) ∨
    (∃ i, i < n ∧ s.written b i = false ∧ s.withElems b n k = .fault (.unwritten b i)) := by
  unfold State.withElems
  cases h : Memory.readElems s.mem b 0 n with
  | ok vs =>
    obtain ⟨h1, h2⟩ := Memory.readElems_ok.1 h
    exact .inl ⟨vs, h1, fun i hi => by simpa using h2 i hi, rfl⟩
  | error i =>
    obtain ⟨-, h2, h3⟩ := Memory.readElems_error h
    exact .inr ⟨i, by omega, by simp [State.written, h3], rfl⟩

/-- Reading operands that are all written. -/
theorem State.withElems_of_read {s : State} {b : Buffer} {n : Nat} {vs : List Nat}
    (hl : vs.length = n) (h : ∀ i (h : i < vs.length), Memory.readElem s.mem b i = some vs[i])
    (k : List Nat → Result) : s.withElems b n k = k vs := by
  have := (Memory.readElems_ok (m := s.mem) (b := b) (i := 0) (n := n) (vs := vs)).2
    ⟨hl, fun i hi => by simpa using h i hi⟩
  simp [State.withElems, this]

/-- Elements whose typed reads give `ws` are read as the patterns of `ws`. -/
theorem State.withElems_of_typed {w : Nat} {s : State} {b : Buffer} {n : Nat} {ws : List (BitVec w)}
    (hl : ws.length = n)
    (h : ∀ i (h : i < ws.length), (Memory.readElem s.mem b i).map (BitVec.ofNat w) = some ws[i])
    (k : List (BitVec w) → Result) :
    s.withElems b n (fun vs => k (vs.map (BitVec.ofNat w))) = k ws := by
  rcases s.withElems_cases b n (fun vs => k (vs.map (BitVec.ofNat w))) with
    ⟨vs, hvl, hv, he⟩ | ⟨i, hi, hu, -⟩
  · rw [he]
    congr 1
    refine List.ext_getElem (by simp; omega) fun i h1 h2 => ?_
    have a := h i h2
    rw [hv i (by simpa using h1)] at a
    simpa using a
  · have := h i (by omega)
    simp only [State.written] at hu
    cases hr : Memory.readElem s.mem b i <;> simp [hr] at hu this

theorem State.withBytes_eq {s : State} {n : Nat} {bs : List Byte} (hl : bs.length = n)
    (h : ∀ i (h : i < bs.length), s.byteAt i = some bs[i]) (k : List Byte → Result) :
    s.withBytes n k = k bs := State.withElems_of_typed hl h k

theorem State.withWords_eq {s : State} {n : Nat} {ws : List Word} (hl : ws.length = n)
    (h : ∀ i (h : i < ws.length), s.wordAt i = some ws[i]) (k : List Word → Result) :
    s.withWords n k = k ws := State.withElems_of_typed hl h k

theorem State.withF64s_eq {s : State} {b : Buffer} {n : Nat} {ds : List F64} (hl : ds.length = n)
    (h : ∀ i (h : i < ds.length), s.f64At b i = some ds[i]) (k : List F64 → Result) :
    s.withF64s b n k = k ds := State.withElems_of_typed hl h k

/-! ### Reading back what a command wrote -/

theorem State.byteAt_setBytes {s : State} {vs : List Byte} {i : Nat} (h : i < vs.length) :
    (s.setBytes vs).byteAt i = some vs[i] := by
  have hl : i < (vs.map BitVec.toNat).length := by simpa using h
  have e := Memory.readElem_writePrefix (m := s.mem) (b := .bytes) hl
  simp only [State.byteAt, State.setBytes_mem, e, Option.map_some, List.getElem_map,
    Buffer.width, Option.some.injEq]
  apply BitVec.eq_of_toNat_eq
  have hv := (vs[i]).isLt
  simpa using hv

theorem State.wordAt_setWords {s : State} {vs : List Word} {i : Nat} (h : i < vs.length) :
    (s.setWords vs).wordAt i = some vs[i] := by
  have hl : i < (vs.map BitVec.toNat).length := by simpa using h
  have e := Memory.readElem_writePrefix (m := s.mem) (b := .words) hl
  simp only [State.wordAt, State.setWords_mem, e, Option.map_some, List.getElem_map,
    Buffer.width, Option.some.injEq]
  apply BitVec.eq_of_toNat_eq
  have hv := (vs[i]).isLt
  simpa using hv

theorem State.f64At_setF64s {s : State} {b : Buffer} {vs : List F64} {i : Nat} (hb : b.width = 8)
    (h : i < vs.length) : (s.setF64s b vs).f64At b i = some vs[i] := by
  have hl : i < (vs.map BitVec.toNat).length := by simpa using h
  have e := Memory.readElem_writePrefix (m := s.mem) (b := b) hl
  simp only [State.f64At, State.setF64s_mem, e, Option.map_some, List.getElem_map, hb,
    Option.some.injEq]
  apply BitVec.eq_of_toNat_eq
  have hv := (vs[i]).isLt
  simpa using hv

/-- A binary64 element of another buffer is as before a write of a prefix within the buffer. -/
theorem State.f64At_setF64s_other {s : State} {b c : Buffer} {vs : List F64} {i : Nat} (hne : b ≠ c)
    (hi : i < b.count) (hl : vs.length ≤ c.count) : (s.setF64s c vs).f64At b i = s.f64At b i := by
  simp only [State.f64At, State.setF64s_mem]
  rw [Memory.readElem_writePrefix_other (.inl ⟨hne, hi, by simpa using hl⟩)]

/-! ### Checks and endings -/

/-- A checked command ends with the check's error, or runs. -/
theorem checked_cases (c : Option ErrorCode) (s : State) (run : Result) :
    (∃ e, c = some e ∧ checked c s run = .next (s.completeErr e)) ∨
    (c = none ∧ checked c s run = run) := by
  cases c with
  | none => exact .inr ⟨rfl, rfl⟩
  | some e => exact .inl ⟨e, rfl, rfl⟩

/-- The next state of an ended command without error. -/
theorem finishOk_eq {s t : State} (h : finishOk s = .next t) : t = s.completeOk := by
  simpa [finishOk, eq_comm] using h

/-- The next state of an ended command with an error. -/
theorem finishErr_eq {e : ErrorCode} {s t : State} (h : finishErr e s = .next t) :
    t = s.completeErr e := by
  simpa [finishErr, eq_comm] using h

/-! ### Host accesses -/

/-- The buffer of an offset in its window (20_memory.md R72). -/
theorem bufferAt_of_window {b : Buffer} {a : Nat} (h : b.base ≤ a ∧ a < b.limit) :
    bufferAt a = some b := by
  have key : ∀ c : Buffer, (decide (c.base ≤ a) && decide (a < c.limit)) = decide (c = b) := by
    intro c
    rw [Bool.eq_iff_iff]
    simp only [Bool.and_eq_true, decide_eq_true_eq]
    constructor
    · intro hc
      cases b <;> cases c <;> first
        | rfl
        | (simp only [Buffer.limit, Buffer.addr, Buffer.base, Buffer.stride, Buffer.count] at h hc
           omega)
    · rintro rfl
      exact h
  simp only [bufferAt, key]
  cases b <;> rfl

/-- The slot of a bus word of an element (20_memory.md R72, R75 to R77). -/
theorem slotAt_elem {b : Buffer} {i half : Nat} (hi : i < b.count) (hh : 4 * half < b.stride) :
    slotAt (b.addr i + 4 * half) = .elem b i half := by
  have hb : bufferAt (b.addr i + 4 * half) = some b := by
    apply bufferAt_of_window
    cases b <;>
      simp only [Buffer.count, Buffer.stride, Buffer.addr, Buffer.base, Buffer.limit] at * <;> omega
  have hlo : 0x400 ≤ b.addr i + 4 * half := by
    cases b <;> simp [Buffer.addr, Buffer.base, Buffer.stride] <;> omega
  have hd : (b.addr i + 4 * half - b.base) / b.stride = i := by
    cases b <;> simp only [Buffer.addr, Buffer.base, Buffer.stride] at * <;> omega
  have hm : (b.addr i + 4 * half - b.base) % b.stride / 4 = half := by
    cases b <;> simp only [Buffer.addr, Buffer.base, Buffer.stride] at * <;> omega
  simp only [slotAt, hb, hd, hm]
  repeat rw [if_neg (by omega)]

/-- Every element starts at a multiple of 4. -/
theorem Buffer.addr_aligned (b : Buffer) (i : Nat) : b.addr i % 4 = 0 := by
  cases b <;> simp only [Buffer.addr, Buffer.base, Buffer.stride] <;> omega

/-- A served read of an element's bus word. -/
theorem hostAccess_read_elem {s : State} {b : Buffer} {i half : Nat} {off : Offset}
    (hi : i < b.count) (hh : 4 * half < b.stride) (ho : off.toNat = b.addr i + 4 * half) :
    hostAccess (.read .w32 off) s =
      match Memory.readElem s.mem b i with
      | some v => .next (s.reply (.data (halfWord v half)))
      | none => .fault (.unwritten b i) := by
  have hal := Buffer.addr_aligned b i
  rw [hostAccess, if_pos (by simp [BusOp.served, BusOp.accessWidth, BusOp.offset, ho]; omega)]
  simp only [ho, slotAt_elem hi hh, State.readSlot]
  cases Memory.readElem s.mem b i <;> rfl

/-- A served write of an element's bus word. -/
theorem hostAccess_write_elem {s : State} {b : Buffer} {i half : Nat} {off : Offset} (v : Word)
    (hi : i < b.count) (hh : 4 * half < b.stride) (ho : off.toNat = b.addr i + 4 * half) :
    hostAccess (.write .w32 off v) s = .next ((s.writeElem b i half v).reply .done) := by
  have hal := Buffer.addr_aligned b i
  rw [hostAccess, if_pos (by simp [BusOp.served, BusOp.accessWidth, BusOp.offset, ho]; omega)]
  simp only [ho, slotAt_elem hi hh, State.writeSlot]

/-- What a host access does: a bus error changes nothing but the answer; a read answers the slot's
value or faults at an unwritten element; a write has the slot's effect. -/
theorem hostAccess_cases (op : BusOp) (s : State) :
    (op.served = false ∧ hostAccess op s = .next (s.reply .busError)) ∨
    (∃ w off v, op = .read w off ∧ op.served = true ∧ s.readSlot (slotAt off.toNat) = .ok v ∧
        hostAccess op s = .next (s.reply (.data v))) ∨
    (∃ w off b i, op = .read w off ∧ op.served = true ∧
        s.readSlot (slotAt off.toNat) = .error (.unwritten b i) ∧ s.written b i = false ∧
        hostAccess op s = .fault (.unwritten b i)) ∨
    (∃ w off v, op = .write w off v ∧ op.served = true ∧
        hostAccess op s = .next ((s.writeSlot v (slotAt off.toNat)).reply .done)) := by
  by_cases hs : op.served
  · cases op with
    | write w off v => exact .inr (.inr (.inr ⟨w, off, v, rfl, hs, by simp [hostAccess, hs]⟩))
    | read w off =>
      cases hr : s.readSlot (slotAt off.toNat) with
      | ok v => exact .inr (.inl ⟨w, off, v, rfl, hs, hr, by simp [hostAccess, hs, hr]⟩)
      | error f =>
        cases f with
        | unwritten b i =>
          refine .inr (.inr (.inl ⟨w, off, b, i, rfl, hs, hr, ?_, by simp [hostAccess, hs, hr]⟩))
          cases hslot : slotAt off.toNat <;> rw [hslot] at hr <;> simp [State.readSlot] at hr
          rename_i b' i' half
          cases he : Memory.readElem s.mem b' i' <;> simp [he] at hr
          obtain ⟨rfl, rfl⟩ := hr
          simp [State.written, he]
  · exact .inl ⟨by simpa using hs, by simp [hostAccess, hs]⟩

/-- What a step does: the sequencer's turn (on its own entry of the agenda, or before a held access, or
when no entry is left) or the next host access. -/
theorem step_cases (s : State) :
    (s.agenda = [] ∧ step s = sequencerTurn s) ∨
    (∃ rest, s.agenda = .sequencer :: rest ∧ step s = sequencerTurn s.popTurn) ∨
    (∃ op rest, s.agenda = .host op :: rest ∧ s.holds op = true ∧ step s = sequencerTurn s) ∨
    (∃ op rest, s.agenda = .host op :: rest ∧ s.holds op = false ∧
      step s = hostAccess op s.popTurn) := by
  unfold step
  cases h : s.agenda with
  | nil => exact .inl ⟨rfl, rfl⟩
  | cons t rest =>
    cases t with
    | sequencer => exact .inr (.inl ⟨rest, rfl, rfl⟩)
    | host op =>
      cases hh : s.holds op with
      | true => exact .inr (.inr (.inl ⟨op, rest, rfl, hh, by simp [hh]⟩))
      | false => exact .inr (.inr (.inr ⟨op, rest, rfl, hh, by simp [hh]⟩))

/-- A completion step is the sequencer's turn; of the agenda only the sequencer's own entry is used up. -/
theorem step_of_completionNext {s : State} (h : s.completionNext = true) :
    step s = sequencerTurn { s with agenda := s.agendaAfter } := by
  rcases step_cases s with ⟨ha, hs⟩ | ⟨rest, ha, hs⟩ | ⟨op, rest, ha, -, hs⟩ | ⟨op, rest, ha, hh, -⟩
  · rw [hs, State.agendaAfter, State.sequencerNext, ha, if_pos rfl, List.tail_nil, ← ha]
  · rw [hs, State.agendaAfter, State.sequencerNext, ha, if_pos rfl, State.popTurn, ha]
  · rw [hs, State.agendaAfter, State.sequencerNext, ha, if_neg Bool.false_ne_true, ← ha]
  · rw [State.completionNext, ha] at h
    exact absurd (h.symm.trans hh) (by decide)

/-- What the sequencer's turn does: nothing when idle; when busy it runs the command in CMDL, or ends an
illegal word with E_ILLEGAL. -/
theorem sequencerTurn_cases (s : State) :
    (s.seq = .idle ∧ sequencerTurn s = .next s) ∨
    (∃ i, s.seq = .busy ∧ decode s.cmdl = .ok i ∧ sequencerTurn s = exec i s) ∨
    (∃ e, s.seq = .busy ∧ decode s.cmdl = .error e ∧
      sequencerTurn s = .next (s.completeErr .illegal)) := by
  unfold sequencerTurn completeCommand
  cases hq : s.seq with
  | idle => exact .inl ⟨rfl, rfl⟩
  | busy =>
    cases hd : decode s.cmdl with
    | ok i => exact .inr (.inl ⟨i, rfl, rfl, rfl⟩)
    | error e => exact .inr (.inr ⟨e, rfl, rfl, rfl⟩)

end Sys2Proof.Machine
end

