-- ==== Sys2Proof/Laws/PerInstr.lean ====
section
/-! SUPPORT. Statements made per instruction: the word of each command fits its row of
spec/opcode_table.json, and no other row. -/

namespace Sys2Proof.Laws

/-- The command's word fits exactly the row of its mnemonic (30_encoding.md R110, R113). -/
def WordFitsItsRow.Statement (i : Instr) : Prop :=
  ∀ r ∈ opcodeTable, r.fits (encode i) = true ↔ r.mnemonic = i.mnemonic

theorem WordFitsItsRow.nop : WordFitsItsRow.Statement .nop := by
  unfold WordFitsItsRow.Statement; decide

theorem WordFitsItsRow.enc24 (c : BitVec 8) : WordFitsItsRow.Statement (.enc24 c) := by
  unfold WordFitsItsRow.Statement; revert c; decide +kernel

theorem WordFitsItsRow.dec24 : WordFitsItsRow.Statement .dec24 := by
  unfold WordFitsItsRow.Statement; decide

theorem WordFitsItsRow.fft (m : BitVec 8) : WordFitsItsRow.Statement (.fft m) := by
  unfold WordFitsItsRow.Statement; revert m; decide +kernel

theorem WordFitsItsRow.leakf (h : BitVec 8) : WordFitsItsRow.Statement (.leakf h) := by
  unfold WordFitsItsRow.Statement; revert h; decide +kernel

theorem WordFitsItsRow.untangle (m : BitVec 8) : WordFitsItsRow.Statement (.untangle m) := by
  unfold WordFitsItsRow.Statement; revert m; decide +kernel

theorem WordFitsItsRow.untangleLeak (m : BitVec 8) :
    WordFitsItsRow.Statement (.untangleLeak m) := by
  unfold WordFitsItsRow.Statement; revert m; decide +kernel

theorem WordFitsItsRow.decodeModelImp : WordFitsItsRow.Statement .decodeModelImp := by
  unfold WordFitsItsRow.Statement; decide

theorem WordFitsItsRow.decodeModelExc : WordFitsItsRow.Statement .decodeModelExc := by
  unfold WordFitsItsRow.Statement; decide

theorem WordFitsItsRow.encodeModel : WordFitsItsRow.Statement .encodeModel := by
  unfold WordFitsItsRow.Statement; decide

end Sys2Proof.Laws
end

