-- ==== Sys2Proof/Laws/Spectral.lean ====
section
/-! SUPPORT. The lengths of the lists the spectral engine and the transcoder work on: no stage of the
FFT changes the number of elements, and each function yields as many values as the command writes. -/

namespace Sys2Proof.Machine

@[simp] theorem dSet_length (d : List F64) (i : Nat) (x : F64) : (dSet d i x).length = d.length := by
  simp [dSet]

@[simp] theorem swapIfBelow_length (i j : Nat) (d : List F64) :
    (swapIfBelow i j d).length = d.length := by
  unfold swapIfBelow
  split <;> simp

@[simp] theorem permuteFrom_length (n rounds i j : Nat) (d : List F64) :
    (permuteFrom n rounds i j d).length = d.length := by
  induction rounds generalizing i j d with
  | zero => rfl
  | succ r ih => simp [permuteFrom, ih]

@[simp] theorem bitReverse_length (n : Nat) (d : List F64) : (bitReverse n d).length = d.length := by
  simp [bitReverse]

theorem strideLoop_length {limit step : Nat} {body : Nat → List F64 → List F64}
    (hb : ∀ i d, (body i d).length = d.length) (fuel i : Nat) (d : List F64) :
    (strideLoop limit step body fuel i d).length = d.length := by
  induction fuel generalizing i d with
  | zero => rfl
  | succ f ih =>
    rw [strideLoop]
    split
    · rw [ih, hb]
    · rfl

theorem lShapedLoop_length {limit off : Nat} {body : Nat → List F64 → List F64}
    (hb : ∀ i d, (body i d).length = d.length) (fuel i id : Nat) (d : List F64) :
    (lShapedLoop limit off body fuel i id d).length = d.length := by
  induction fuel generalizing i id d with
  | zero => rfl
  | succ f ih =>
    rw [lShapedLoop]
    split
    · rw [ih, strideLoop_length hb]
    · exact strideLoop_length hb _ _ _

@[simp] theorem butterfly2_length (i : Nat) (d : List F64) : (butterfly2 i d).length = d.length := by
  simp [butterfly2]

@[simp] theorem combineEdge_length (n4 i : Nat) (d : List F64) :
    (combineEdge n4 i d).length = d.length := by
  simp [combineEdge]

@[simp] theorem combineMiddle_length (n4 n8 i : Nat) (d : List F64) :
    (combineMiddle n4 n8 i d).length = d.length := by
  simp [combineMiddle]

@[simp] theorem combine_length (n4 n8 i : Nat) (d : List F64) :
    (combine n4 n8 i d).length = d.length := by
  unfold combine
  split <;> simp

@[simp] theorem rotate_length (n4 jj : Nat) (w : Twiddle) (i : Nat) (d : List F64) :
    (rotate n4 jj w i d).length = d.length := by
  simp [rotate]

@[simp] theorem twiddleLoop_length (sn cs : F64 → F64) (n n2 n4 : Nat) (e : F64) (rounds jj : Nat)
    (a : F64) (d : List F64) :
    (twiddleLoop sn cs n n2 n4 e rounds jj a d).length = d.length := by
  induction rounds generalizing jj a d with
  | zero => rfl
  | succ r ih => rw [twiddleLoop, ih, lShapedLoop_length (rotate_length n4 jj _)]

@[simp] theorem combineStages_length (sn cs : F64 → F64) (n rounds n2 : Nat) (d : List F64) :
    (combineStages sn cs n rounds n2 d).length = d.length := by
  induction rounds generalizing n2 d with
  | zero => rfl
  | succ r ih =>
    rw [combineStages, ih]
    simp only [combineStage, twiddleLoop_length]
    exact lShapedLoop_length (combine_length _ _) _ _ _ _

/-- The FFT is in place: as many values as it was given (41_spectral.md R162). -/
@[simp] theorem rfft_length (sn cs : F64 → F64) (m : Nat) (d : List F64) :
    (rfft sn cs m d).length = d.length := by
  simp only [rfft, combineStages_length, length2Stage]
  rw [lShapedLoop_length butterfly2_length, bitReverse_length]

@[simp] theorem leakageFilter_length (sn : F64 → F64) (h : Nat) (l : F64) :
    (leakageFilter sn h l).length = h := by simp [leakageFilter]

@[simp] theorem untangle_length (rule : Bin0Rule) (n : Nat) (d : List F64) :
    (untangle rule n d).length = n / 2 := by simp [untangle]

@[simp] theorem untangleLeakage_length (sn : F64 → F64) (rule : Bin0Rule) (n : Nat) (l : F64)
    (d : List F64) : (untangleLeakage sn rule n l d).length = n / 2 := by simp [untangleLeakage]

theorem leakageFilter_getElem (sn : F64 → F64) (h : Nat) (l : F64) (i : Nat)
    (hi : i < (leakageFilter sn h l).length) :
    (leakageFilter sn h l)[i] = leakageAt sn h l i := by simp [leakageFilter]

theorem untangle_getElem (rule : Bin0Rule) (n : Nat) (d : List F64) (i : Nat)
    (hi : i < (untangle rule n d).length) :
    (untangle rule n d)[i] = untangleAt rule n d i := by simp [untangle]

theorem untangleLeakage_getElem (sn : F64 → F64) (rule : Bin0Rule) (n : Nat) (l : F64) (d : List F64)
    (i : Nat) (hi : i < (untangleLeakage sn rule n l d).length) :
    (untangleLeakage sn rule n l d)[i] = fdiv (untangleAt rule n d i) (leakageAt sn (n / 2) l i) := by
  simp [untangleLeakage, untangle, leakageFilter]

/-! ### The codec -/

/-- `encode24` gives three bytes for a value (40_codec.md R141). -/
@[simp] theorem encode24_length (vs : List Word) : (encode24 vs).length = 3 * vs.length := by
  induction vs with
  | nil => rfl
  | cons v vs ih =>
    have : encode24 (v :: vs) = encodeOne v ++ encode24 vs := rfl
    rw [this, List.length_append, ih]
    simp [encodeOne, wireBytes]
    omega

/-- Byte 3k + j of `encode24` is byte j of value k (40_codec.md R141). -/
theorem encode24_getElem? (vs : List Word) (k j : Nat) (hj : j < 3) (h : k < vs.length) :
    (encode24 vs)[3 * k + j]? = (encodeOne vs[k])[j]? := by
  induction vs generalizing k with
  | nil => simp at h
  | cons v vs ih =>
    have hc : encode24 (v :: vs) = encodeOne v ++ encode24 vs := rfl
    have hl : (encodeOne v).length = 3 := rfl
    cases k with
    | zero => rw [hc, List.getElem?_append_left (by omega)]; simp
    | succ k =>
      rw [hc, List.getElem?_append_right (by omega), hl,
        show 3 * (k + 1) + j - 3 = 3 * k + j by omega, ih k (by simpa using h)]
      rfl

/-- `decode24` is defined exactly when the length is a multiple of 3, and then gives one value for
three bytes (40_codec.md R143). -/
theorem decode24_spec (bs : List Byte) :
    (bs.length % 3 = 0 → ∃ vs, decode24 bs = some vs ∧ 3 * vs.length = bs.length ∧
      ∀ k, k < vs.length → vs[k]? =
        some (sext24 (wireWord (bs.getD (3 * k) 0) (bs.getD (3 * k + 1) 0) (bs.getD (3 * k + 2) 0))))
    ∧ (bs.length % 3 ≠ 0 → decode24 bs = none) := by
  induction bs using decode24.induct with
  | case1 => simp [decode24]
  | case2 b0 b1 b2 rest ih =>
    constructor
    · intro h
      obtain ⟨vs, hd, hl, hk⟩ := ih.1 (by simp at h; omega)
      refine ⟨sext24 (wireWord b0 b1 b2) :: vs, by simp [decode24, hd], by simp; omega, ?_⟩
      intro k hkl
      cases k with
      | zero => simp
      | succ k =>
        have := hk k (by simpa using hkl)
        rw [List.getElem?_cons_succ, this]
        congr 3
    · intro h
      simp [decode24, ih.2 (by simp at h; omega)]
  | case3 bs h1 h2 =>
    match bs with
    | [] => exact absurd rfl h1
    | [_] => simp [decode24]
    | [_, _] => simp [decode24]
    | b0 :: b1 :: b2 :: rest => exact absurd rfl (h2 b0 b1 b2 rest)

/-! ### The transcoder -/

@[simp] theorem recordFracs_length : recordFracs.length = 141 := by
  simp [recordFracs, paramFracs, tapCount]

@[simp] theorem scaleRecord_length (ws : List Word) :
    (scaleRecord ws).length = min ws.length 141 := by simp [scaleRecord]

@[simp] theorem modelWords_length (fs : List F64) : (modelWords fs).length = min fs.length 141 := by
  simp [modelWords]

@[simp] theorem orderTaps_length (kind : ModelKind) (taps : List F64) :
    (orderTaps kind taps).length = taps.length := by cases kind <;> simp [orderTaps]

@[simp] theorem modelSpectrum_length (sn cs : F64 → F64) (kind : ModelKind) (taps : List F64) :
    (modelSpectrum sn cs kind taps).length = taps.length := by simp [modelSpectrum]

@[simp] theorem modelMagnitudes_length (sn : F64 → F64) (kind : ModelKind) (ps sp : List F64) :
    (modelMagnitudes sn kind ps sp).length = 64 := by cases kind <;> simp [modelMagnitudes, fftMax]

@[simp] theorem frequencyAxis_length (kind : ModelKind) : (frequencyAxis kind).length = 64 := by
  simp [frequencyAxis, magCount]

end Sys2Proof.Machine
end

