-- ==== Sys2Proof/Tests/Slice0.lean ====
section
/-! SUPPORT. The model's own tests: words written out from the spec's encodings, the ill-formed terms that
the checks refuse, a few worked examples of the spec, and for each statement with hypotheses a state and
operands that meet them. -/

namespace Sys2Proof.Tests

-- One theorem after another: many kernel evaluations at once take more memory than a build may use.
set_option Elab.async false

open Sys2Proof Sys2Proof.Machine

/-! ### Encoding (30_encoding.md R114, 95_test_vectors.md 2.7) -/

/-- OP, ARG, T and RSV as 30_encoding.md R100 lays them out: RSV 15 bits, T 1 bit, ARG 8, OP 8. -/
theorem test_decode_nop : decode 0b000000000000000_0_00000000_00000000#32 = .ok .nop := by decide
theorem test_decode_enc24 : decode 0b000000000000000_0_00000011_00000001#32 = .ok (.enc24 3) := by
  decide
theorem test_decode_dec24 : decode 0b000000000000000_0_00000000_00000010#32 = .ok .dec24 := by
  decide
theorem test_decode_fft : decode 0b000000000000000_0_00000111_00010000#32 = .ok (.fft 7) := by
  decide
theorem test_decode_leakf : decode 0b000000000000000_0_01000001_00010001#32 = .ok (.leakf 65) := by
  decide
theorem test_decode_untangle :
    decode 0b000000000000000_0_00000100_00010010#32 = .ok (.untangle 4) := by decide
theorem test_decode_untangle_leak :
    decode 0b000000000000000_0_00000010_00010011#32 = .ok (.untangleLeak 2) := by decide
theorem test_decode_model_imp :
    decode 0b000000000000000_0_00000000_00100000#32 = .ok .decodeModelImp := by decide
theorem test_decode_model_exc :
    decode 0b000000000000000_1_00000000_00100000#32 = .ok .decodeModelExc := by decide
theorem test_decode_encode_model :
    decode 0b000000000000000_0_00000000_00100001#32 = .ok .encodeModel := by decide

/-- The illegal words of 95_test_vectors.md 2.7. -/
theorem test_illegal_words :
    [0x00000100#32, 0x00010000#32, 0x00020000#32, 0x00000003#32, 0x0000000F#32, 0x00000014#32,
      0x0000001F#32, 0x00000022#32, 0x000000FF#32, 0xFFFFFFFF#32, 0x00000102#32, 0x00020210#32,
      0x00010021#32, 0x00010210#32, 0x00000120#32].all
      (fun w => (decode w).toOption.isNone && illegalWord w) = true := by decide

/-- No word fits two rows of the opcode table (30_encoding.md R113). -/
theorem test_rows_disjoint :
    opcodeTable.Pairwise (fun r r' => (r.pattern ^^^ r'.pattern) &&& (r.mask &&& r'.mask) ≠ 0#32) := by
  decide

/-- WellFormed refuses a length that is no power of two in [4, 128] (30_encoding.md R114). -/
theorem test_ill_formed_fft : Instr.wellFormed (.fft 1) = false ∧ Instr.wellFormed (.fft 8) = false := by
  decide
theorem test_ill_formed_untangle :
    Instr.wellFormed (.untangle 0) = false ∧ Instr.wellFormed (.untangle 255) = false := by decide
theorem test_ill_formed_untangle_leak :
    Instr.wellFormed (.untangleLeak 1) = false ∧ Instr.wellFormed (.untangleLeak 8) = false := by decide
theorem test_table_word : decodeTableWord 32 0x00010020 = some .decodeModelExc ∧
    decodeTableWord 32 3 = none := by decide

/-! ### Small states -/

/-- The reset state with a prefix of one buffer written. -/
def withBuffer (s : State) (b : Buffer) (vals : List Nat) : State :=
  { s with mem := Memory.writePrefix s.mem b vals }

/-- The first elements of a buffer. -/
def firstElems (s : State) (b : Buffer) (n : Nat) : List (Option Nat) :=
  (List.range n).map (Memory.readElem s.mem b)

/-- What a step or a meaning leaves, seen through a function; none where it stops. -/
def seen {α : Type} (r : Result) (f : State → α) : Option α :=
  match r with
  | .next t => some (f t)
  | _ => none

/-- 1.0, 2.0, 3.0, 4.0 in DATA[0..3] (95_test_vectors.md P2). -/
def fourSamples : State :=
  withBuffer .reset .data
    [0x3FF0000000000000, 0x4000000000000000, 0x4008000000000000, 0x4010000000000000]

/-- The packed spectrum 10, -2, -2, 2 in DATA[0..3] (95_test_vectors.md 2.4). -/
def fourSpectrum : State :=
  withBuffer .reset .data
    [0x4024000000000000, 0xC000000000000000, 0xC000000000000000, 0x4000000000000000]

/-- The three words of 95_test_vectors.md P1. -/
def threeWords : State := withBuffer .reset .words [0x00123456, 0xFFFFFFFE, 0x7FFFFFFF]

/-- BYTES[0..5] = 80 00 00 00 00 01 and LEN = 6 (95_test_vectors.md 2.1). -/
def sixBytes : State :=
  { withBuffer .reset .bytes [0x80, 0, 0, 0, 0, 0x01] with len := 6#9 }

/-- A full record of 423 zero bytes. -/
def fullRecord : State := { State.reset.setBytes (List.replicate 423 0#8) with len := 423#9 }

/-- 128 taps: 2.0, -inf, 0.3, the rest 0. -/
def someTaps : List F64 :=
  0x4000000000000000#64 :: 0xFFF0000000000000#64 :: 0x3FD3333333333333#64 :: List.replicate 125 0#64

/-- All of TAP and PARAM written: the taps above and scalars 0. -/
def fullModel : State := (State.reset.setF64s .tap someTaps).setF64s .param (List.replicate 13 0#64)

/-- 13 scalars, the last a NaN. -/
def nanParams : List F64 := List.replicate 12 0#64 ++ [0x7FF8000000000000#64]

/-- All of TAP and PARAM written, the last of PARAM a NaN. -/
def nanModel : State := (State.reset.setF64s .tap someTaps).setF64s .param nanParams

/-- The elements of a state whose TAP and PARAM were written with two lists. -/
theorem model_elements {s : State} {taps params : List F64} (ht : taps.length = 128)
    (hp : params.length = 13) :
    let m := (s.setF64s .tap taps).setF64s .param params
    (∀ k (h : k < taps.length), m.f64At .tap k = some taps[k]) ∧
      ∀ k (h : k < params.length), m.f64At .param k = some params[k] := by
  refine ⟨fun k h => ?_, fun k h => State.f64At_setF64s rfl h⟩
  rw [State.f64At_setF64s_other (by decide) (by simpa [Buffer.count, ht] using h)
    (by simp [Buffer.count, hp])]
  exact State.f64At_setF64s rfl h

/-- A busy state with a command word and an agenda. -/
def busyWith (s : State) (w : Word) (agenda : List Turn) : State :=
  { s.accept w with agenda := agenda }

/-! ### Worked examples of the spec -/

/-- 44_control.md R220. -/
theorem test_nop : seen (step (State.reset.withFetchWord 32 0)) State.status = some 0x02#32 := by
  decide +kernel

/-- 40_codec.md R140's example. -/
theorem test_enc24 :
    seen (exec (.enc24 3) threeWords) (fun t => (firstElems t .bytes 9, t.len)) =
      some ([0x12, 0x34, 0x56, 0xFF, 0xFF, 0xFE, 0x7F, 0xFF, 0xFF].map some, 9#9) := by
  decide +kernel

/-- 40_codec.md R142's example. -/
theorem test_dec24 :
    seen (exec .dec24 sixBytes) (fun t => (firstElems t .words 3, t.status)) =
      some ([some 0xFF800000, some 1, none], 0x02#32) := by decide +kernel

/-- 41_spectral.md R160's example, with the bits of 95_test_vectors.md 2.2. -/
theorem test_fft_four :
    seen (exec (.fft 2) fourSamples) (fun t => firstElems t .data 5) =
      some [some 0x4024000000000000, some 0xC000000000000000, some 0xC000000000000000,
        some 0x4000000000000000, none] := by decide +kernel

/-- The ramp of length 8 (95_test_vectors.md 2.2): the sqrt(2) branch, no twiddle. -/
theorem test_fft_ramp :
    rfft id id 3 ((List.range 8).map fun i => i2f i) =
      [0x403C000000000000#64, 0xC010000000000000#64, 0xC010000000000000#64, 0xC010000000000000#64,
       0xC010000000000000#64, 0x3FFA827999FCEF30#64, 0x4010000000000000#64,
       0x4023504F333F9DE6#64] := by decide +kernel

/-- The impulse at index 1 of length 16 (95_test_vectors.md 2.2): the twiddle loop, with the binary64
sines and cosines of pi/8 and 3 pi/8. -/
theorem test_fft_twiddle :
    let c : F64 := 0x3FED906BCF328D46#64
    let s : F64 := 0x3FD87DE2A6AEA963#64
    let angle : F64 := 0x3FD921FB54442D18#64
    let minus : F64 → F64 := fneg
    rfft (fun x => if x = angle then s else c)
      (fun x => if x = angle then c else 0x3FD87DE2A6AEA964#64) 4
      ((List.range 16).map fun i => i2f (if i = 1 then 1 else 0)) =
      [fOne, c, 0x3FE6A09E667F3BCC#64, s, 0, minus s, minus 0x3FE6A09E667F3BCC#64, minus c,
       minus fOne, minus s, minus 0x3FE6A09E667F3BCC#64, minus c, minus fOne, minus c,
       minus 0x3FE6A09E667F3BCC#64, minus s] := by decide +kernel

/-- `LEAKF 1` with LEAKAGE = 0.5 gives 1.5 (95_test_vectors.md 2.3), for a sine with sin(+0) = +0. -/
theorem test_leakage_filter :
    leakageFilter id 1 0x3FE0000000000000#64 = [0x3FF8000000000000#64] := by decide +kernel

/-- `LEAKF 0` writes nothing and completes (41_spectral.md R170). -/
theorem test_leakf_zero :
    seen (exec (.leakf 0) .reset) (fun t => (t.mem, t.status)) = some ([], 0x02#32) := by
  decide +kernel

/-- 95_test_vectors.md 2.4, the first row. -/
theorem test_untangle :
    seen (exec (.untangle 2) fourSpectrum) (fun t => firstElems t .mag 3) =
      some [some 0x402465655F122FF6, some 0x4006A09E667F3BCD, none] := by decide +kernel

/-- The alternatives of 41_spectral.md R174 give 8.0 and 10.0 (95_test_vectors.md 1.2). -/
theorem test_bin0_alternatives :
    bin0 .absSum (i2f 10) (i2f (-2)) = i2f 8 ∧ bin0 .absDc (i2f 10) (i2f (-2)) = i2f 10 := by
  decide +kernel

/-- 95_test_vectors.md 2.4: with LEAKAGE = 1.0, MAG[0] = 5.0990195135927845. -/
theorem test_untangle_leakage :
    (untangleLeakage id .hypot 4 fOne [i2f 10, i2f (-2), i2f (-2), i2f 2]).head? =
      some 0x401465655F122FF6#64 := by decide +kernel

/-- 95_test_vectors.md 2.5: words 7F FF FF at 23 and 80 00 00 at 21 fractional bits. -/
theorem test_scale_word :
    scaleWord 0x007FFFFF#32 23 = 0x3FEFFFFFC0000000#64 ∧
      scaleWord 0xFF800000#32 21 = 0xC010000000000000#64 := by decide +kernel

/-- 95_test_vectors.md 2.5: the thirteen scalars of a record, each with its fractional bits. -/
theorem test_scalars :
    ((scaleRecord (List.replicate 128 0#32 ++ [3#32, 0x00400000#32, 0x007FFFFF#32, 0x00200000#32,
      0xFF800000#32, 0x00100000#32, 0x00400000#32, 0x0000028A#32, 0x007FFFFF#32, 0x00030000#32,
      0x00010000#32, 0x00190000#32, 0xFFC00000#32])).drop 128) =
    [i2f 3, 0x3FE0000000000000#64, 0x3FEFFFFFC0000000#64, fOne, 0xC010000000000000#64,
      0x3FE0000000000000#64, fTwo, i2f 650, 0x415FFFFFC0000000#64, 0x3FF8000000000000#64, fOne,
      i2f 100, 0xBFE0000000000000#64] := by decide +kernel

/-- The last point of each frequency axis (42_transcoder.md R192, R193). -/
theorem test_frequency_axis :
    (frequencyAxis .impedance).getLast? = some 0x40AEC30000000000#64 ∧
      (frequencyAxis .excursion).getLast? = some 0x40AF400000000000#64 := by decide +kernel

/-- 95_test_vectors.md 2.6: the rounding and the saturation of ENCODE_MODEL. -/
theorem test_to_word :
    [0x3FF0000000000000#64, 0xC000000000000000#64, 0x4000000000000000#64, 0x3E80000000000000#64,
      0xBE80000000000000#64, 0x7FF0000000000000#64, 0xFFF0000000000000#64, 0x8000000000000000#64,
      0x3E98000000000000#64, 0x3FD3333333333333#64, 0x7E37E43C8800759C#64, 0x0000000000000001#64].map
      (toWord · 22) =
    [0x00400000#32, 0xFF800000#32, 0x00800000#32, 0x00000001#32, 0xFFFFFFFF#32, 0x7FFFFFFF#32,
      0x80000000#32, 0x00000000#32, 0x00000002#32, 0x00133333#32, 0x7FFFFFFF#32,
      0x00000000#32] := by decide +kernel

/-- 95_test_vectors.md 2.6: WORDS before the clamp, BYTES after it. -/
theorem test_encode_model :
    modelWords (someTaps.take 3) = [0x00800000#32, 0x80000000#32, 0x00133333#32] ∧
    encode24 (modelWords (someTaps.take 3)) =
      [0x7F#8, 0xFF#8, 0xFF#8, 0x80#8, 0#8, 0#8, 0x13#8, 0x33#8, 0x33#8] := by decide +kernel

/-- ENCODE_MODEL on read operands whose check fails. -/
theorem encode_model_of_nan {m : State} {taps params : List F64} (ht : taps.length = 128)
    (hp : params.length = 13) (h1 : ∀ k (h : k < taps.length), m.f64At .tap k = some taps[k])
    (h2 : ∀ k (h : k < params.length), m.f64At .param k = some params[k])
    (hn : checkNaN (taps ++ params) = some .nan) :
    execEncodeModel m = .next (m.completeErr .nan) := by
  rw [execEncodeModel, State.withF64s_eq (by simpa [tapCount] using ht) h1,
    State.withF64s_eq (by simpa [paramCount] using hp) h2, hn]
  simp only [checked, finishErr]

/-- A NaN among the inputs ends ENCODE_MODEL with E_NAN (95_test_vectors.md 2.6): STATUS = 0x56. -/
theorem test_encode_model_nan :
    execEncodeModel nanModel = .next (nanModel.completeErr .nan) ∧
      (State.reset.completeErr .nan).status = 0x56#32 := by
  have ht : someTaps.length = 128 := by simp [someTaps]
  have hp : nanParams.length = 13 := by simp [nanParams]
  obtain ⟨h1, h2⟩ := model_elements (s := State.reset) ht hp
  exact ⟨encode_model_of_nan ht hp h1 h2 (by decide +kernel), by decide⟩

/-- Rounding at the edges: a tie goes to even, the smallest number halved is 0, overflow is
infinity. -/
theorem test_rounding_edges :
    fadd 0x3FF0000000000000#64 0x3CA0000000000000#64 = 0x3FF0000000000000#64 ∧
    fadd 0x3FF0000000000001#64 0x3CA0000000000000#64 = 0x3FF0000000000002#64 ∧
    fdiv 0x0000000000000001#64 fTwo = 0#64 ∧
    fadd 0x7FEFFFFFFFFFFFFF#64 0x7FEFFFFFFFFFFFFF#64 = 0x7FF0000000000000#64 ∧
    fsub fOne fOne = 0#64 ∧ fsqrt fTwo = 0x3FF6A09E667F3BCD#64 := by decide +kernel

/-- 95_test_vectors.md P4: the two orders of a CMD write and FFT's completion. -/
theorem test_race_dropped :
    seen (step (busyWith fourSamples 0x00000210#32 [.host (.write .w32 0x004#14 0#32)]))
      (fun t => seen (step t) (fun u => (u.cmdl, u.status))) =
      some (some (0x00000210#32, 0x0A#32)) := by decide +kernel
theorem test_race_accepted :
    seen (step (busyWith fourSamples 0x00000210#32
      [.sequencer, .host (.write .w32 0x004#14 0#32)]))
      (fun t => seen (step t) (fun u => (u.cmdl, u.status))) =
      some (some (0x00000000#32, 0x01#32)) := by decide +kernel

/-- 95_test_vectors.md 2.8: W1C of STATUS = 0x16 with 0x02 and with 0x0E. -/
theorem test_status_w1c :
    (({ State.reset with done := true, err := true, errcode := 1#4 } : State).clearFlags 0x02#32).status
      = 0x14#32 ∧
    (({ State.reset with done := true, err := true, errcode := 1#4 } : State).clearFlags 0x0E#32).status
      = 0x10#32 := by decide

/-- 70_reset_and_hazards.md R272: a soft reset during `FFT 4` forgets DATA[0..3] and keeps the rest. -/
theorem test_soft_reset :
    (busyWith fourSamples 0x00000210#32 []).softReset.mem = [] ∧
    (busyWith fourSamples 0x00000110#32 []).softReset.mem = fourSamples.mem ∧
    (busyWith threeWords 0x00000210#32 []).softReset.mem = threeWords.mem := by decide +kernel

/-! ### Witnesses: for each statement with hypotheses, a state and operands that meet them -/

theorem witness_encode_decode : decode 0x00000301#32 = .ok (.enc24 3) := by decide

theorem witness_legal_and_illegal : illegalWord 0x0000FF01#32 = false ∧ illegalWord 0x00010001#32 = true ∧
    illegalWord 0x00020000#32 = true ∧ illegalWord 0x00000120#32 = true := by decide

/-- StepRunsDecodedCommand: each of its ways to the sequencer's turn. -/
theorem witness_step_runs :
    let a := busyWith .reset 0#32 []
    let b := busyWith .reset 0#32 [.sequencer]
    let c := busyWith .reset 0#32 [.host (.read .w32 0x00C#14)]
    a.seq = .busy ∧ decode a.cmdl = .ok .nop ∧ a.sequencerNext = true ∧ b.seq = .busy ∧
      decode b.cmdl = .ok .nop ∧ b.sequencerNext = true ∧ c.seq = .busy ∧ decode c.cmdl = .ok .nop ∧
      c.agenda = [.host (.read .w32 0x00C#14)] ∧ c.holds (.read .w32 0x00C#14) = true := by decide

/-- IllegalWordEndsWithIllegal: both clauses, the second on the sequencer's turn and before a held access. -/
theorem witness_illegal_word :
    illegalWord 0x00000003#32 = true ∧
    (∃ s : State, s.seq = .idle ∧ s.agenda = .host (.write .w32 0x004#14 0x00000003#32) :: []) ∧
    (∃ s : State, s.seq = .busy ∧ s.cmdl = 0x00000003#32 ∧ s.completionNext = true ∧
      s.sequencerNext = true) ∧
    ∃ s : State, s.seq = .busy ∧ s.cmdl = 0x00000003#32 ∧ s.completionNext = true ∧
      s.sequencerNext = false :=
  ⟨by decide, ⟨{ State.reset with agenda := [.host (.write .w32 0x004#14 0x00000003#32)] }, rfl, rfl⟩,
    ⟨busyWith .reset 0x00000003#32 [], rfl, rfl, rfl, rfl⟩,
    ⟨busyWith .reset 0x00000003#32 [.host (.write .w32 0x00C#14 3#32)], rfl, rfl, by decide, rfl⟩⟩

/-- CommandWriteIsAcceptedWhenIdle. -/
theorem witness_accept : ∃ s : State, s.seq = .idle ∧
    s.agenda = .host (.write .w32 0x004#14 0x00000301#32) :: [] :=
  ⟨{ State.reset with agenda := [.host (.write .w32 0x004#14 0x00000301#32)] }, rfl, rfl⟩

/-- CommandWriteIsDroppedWhenBusy. -/
theorem witness_drop : ∃ s : State, s.seq = .busy ∧
    s.agenda = .host (.write .w32 0x004#14 0x00000301#32) :: [] :=
  ⟨busyWith .reset 0#32 [.host (.write .w32 0x004#14 0x00000301#32)], rfl, rfl⟩

/-- CommandWriteRacesCompletion: both clauses; in the second the step answers a next state. -/
theorem witness_race :
    (∃ s : State, s.seq = .busy ∧
      s.agenda = .host (.write .w32 0x004#14 0#32) :: .sequencer :: []) ∧
    ∃ s t : State, s.seq = .busy ∧ s.agenda = .sequencer :: .host (.write .w32 0x004#14 0#32) :: [] ∧
      step s = .next t :=
  ⟨⟨busyWith .reset 0#32 [.host (.write .w32 0x004#14 0#32), .sequencer], rfl, rfl⟩,
    ⟨busyWith .reset 0#32 [.sequencer, .host (.write .w32 0x004#14 0#32)], _, rfl, rfl, rfl⟩⟩

/-- CompletionEndsTheCommand, and IrqFollowsDoneAndEnable's second clause: without an error, with one, and
before a held access. -/
theorem witness_completion :
    (∃ s t : State, s.seq = .busy ∧ s.completionNext = true ∧ step s = .next t ∧ t.err = false) ∧
    (∃ s t : State, s.seq = .busy ∧ s.completionNext = true ∧ step s = .next t ∧ t.err = true) ∧
    ∃ s t : State, s.seq = .busy ∧ s.completionNext = true ∧ s.sequencerNext = false ∧
      step s = .next t :=
  ⟨⟨busyWith .reset 0#32 [], _, rfl, rfl, rfl, rfl⟩,
    ⟨busyWith .reset 0x00000003#32 [.sequencer], _, rfl, rfl, rfl, rfl⟩,
    ⟨busyWith .reset 0#32 [.host (.read .w32 0x00C#14)], _, rfl, by decide, rfl, rfl⟩⟩

/-- ErrorsWriteOnlyStatus and CommandsWriteOnlyTheirWriteSet. -/
theorem witness_exec_error : ∃ t, exec (.fft 1) State.reset = .next t ∧ t.err = true :=
  ⟨_, rfl, rfl⟩
theorem witness_exec_writes : ∃ t, exec (.enc24 3) threeWords = .next t ∧
    inWriteSet (threeWords.writeSet (.enc24 3)) .bytes 8 = true :=
  ⟨_, rfl, by decide⟩

/-- CompletesIffOperandsWritten: both clauses, at the boundary of the length check. -/
theorem witness_operands :
    State.reset.operandsWritten (.fft 1) = true ∧ State.reset.operandsWritten (.fft 8) = true ∧
    State.reset.operandsWritten (.fft 2) = false ∧ fourSamples.operandsWritten (.fft 2) = true := by
  decide +kernel

/-- AcceptedCommandEnds. -/
theorem witness_busy : (busyWith .reset 0#32 [.host (.read .w32 0x008#14)]).seq = .busy := rfl

/-- OperandsAreStableWhileBusy. -/
theorem witness_stays_busy : ∃ s t : State, s.seq = .busy ∧ step s = .next t ∧ t.seq = .busy :=
  ⟨busyWith .reset 0#32 [.host (.read .w32 0x008#14)], _, rfl, rfl, rfl⟩

/-- Enc24Completes and Dec24AfterEnc24Clamps, at the capacity. -/
theorem witness_enc24 :
    let ws : List Word := List.replicate 141 5#32
    let s := State.reset.setWords ws
    (141#8).toNat ≤ 141 ∧ ws.length = (141#8).toNat ∧
      ∀ k (h : k < ws.length), s.wordAt k = some ws[k] :=
  ⟨by decide, by rw [List.length_replicate]; rfl, fun _ h => State.wordAt_setWords h⟩

/-- CountAboveCapacityIsRangeError: both clauses, at the boundary. -/
theorem witness_range : 141 < (142#8).toNat ∧ 64 < (65#8).toNat := by decide

/-- Dec24Completes, at the capacity; DecodeModelImpCompletes and DecodeModelExcCompletes. -/
theorem witness_record :
    let bs : List Byte := List.replicate 423 0#8
    fullRecord.len.toNat ≤ 423 ∧ fullRecord.len.toNat % 3 = 0 ∧ bs.length = fullRecord.len.toNat ∧
      fullRecord.len.toNat = 423 ∧ ∀ k (h : k < bs.length), fullRecord.byteAt k = some bs[k] :=
  ⟨by decide, by decide, by rw [List.length_replicate]; rfl, by decide,
    fun _ h => State.byteAt_setBytes (s := State.reset) h⟩

/-- Dec24LengthErrors: both clauses, where they meet. -/
theorem witness_dec24_errors :
    423 < ({ State.reset with len := 424#9 } : State).len.toNat ∧
    ({ State.reset with len := 422#9 } : State).len.toNat ≤ 423 ∧
    ({ State.reset with len := 422#9 } : State).len.toNat % 3 ≠ 0 := by decide

/-- CodecRoundTrip: a list with a value in range and one beyond each end. -/
theorem witness_codec_values :
    let vs : List Word := [0xFF800000#32, 0x00800000#32, 0xFF7FFFFF#32]
    (∃ v ∈ vs, -8388608 ≤ v.toInt ∧ v.toInt ≤ 8388607) ∧ (∃ v ∈ vs, 8388607 < v.toInt) ∧
      ∃ v ∈ vs, v.toInt < -8388608 :=
  ⟨⟨0xFF800000#32, by simp, by decide⟩, ⟨0x00800000#32, by simp, by decide⟩,
    ⟨0xFF7FFFFF#32, by simp, by decide⟩⟩

/-- FftCompletes, UntangleCompletes, UntangleLeakCompletes, ZeroLeakageMakesUntangle: the shortest and
the longest length. -/
theorem witness_transform :
    let d : List F64 := [0x3FF0000000000000#64, 0x4000000000000000#64, 0x4008000000000000#64,
      0x4010000000000000#64]
    2 ≤ (2#8).toNat ∧ (2#8).toNat ≤ 7 ∧ d.length = 2 ^ (2#8).toNat ∧
      (∀ k (h : k < d.length), fourSamples.f64At .data k = some d[k]) ∧
      fourSamples.leakage = 0x0000000000000000#64 := by
  refine ⟨by decide, by decide, by decide, ?_, rfl⟩
  decide +kernel
theorem witness_transform_longest :
    let d : List F64 := List.replicate 128 0#64
    let s := State.reset.setF64s .data d
    2 ≤ (7#8).toNat ∧ (7#8).toNat ≤ 7 ∧ d.length = 2 ^ (7#8).toNat ∧
      ∀ k (h : k < d.length), s.f64At .data k = some d[k] :=
  ⟨by decide, by decide, by rw [List.length_replicate]; rfl,
    fun _ h => State.f64At_setF64s (s := State.reset) rfl h⟩

/-- IllegalLengthIsParameterError: both ends. -/
theorem witness_length_errors : (1#8).toNat < 2 ∧ 7 < (8#8).toNat := by decide

/-- LeakfCompletes, at the capacity. -/
theorem witness_leakf : (64#8).toNat ≤ 64 := by decide

/-- RecordLengthIsFormatError. -/
theorem witness_record_length : ({ State.reset with len := 420#9 } : State).len.toNat ≠ 423 := by
  decide

/-- EncodeModelCompletes: every element written, none a NaN. -/
theorem witness_encode_model :
    let params : List F64 := List.replicate 13 0#64
    someTaps.length = 128 ∧ params.length = 13 ∧
    (∀ k (h : k < someTaps.length), fullModel.f64At .tap k = some someTaps[k]) ∧
    (∀ k (h : k < params.length), fullModel.f64At .param k = some params[k]) ∧
    ∀ x ∈ someTaps ++ params, fIsNaN x = false := by
  have hm := model_elements (s := State.reset) (taps := someTaps) (params := List.replicate 13 0#64)
    (by simp [someTaps]) (by simp)
  have hn : (someTaps ++ List.replicate 13 0#64).all (fun x => !fIsNaN x) = true := by
    decide +kernel
  exact ⟨by simp [someTaps], by simp, hm.1, hm.2, fun x hx => by simpa using List.all_eq_true.1 hn x hx⟩

/-- ModelRoundTrip: the fields of `fullModel`, one above the range, one below it and one inside. -/
theorem witness_model_round_trip :
    let fields : List F64 := someTaps ++ List.replicate 13 0#64
    fields.length = 141 ∧
    (∀ k (h : k < fields.length),
      (if k < 128 then fullModel.f64At .tap k else fullModel.f64At .param (k - 128)) =
        some fields[k] ∧ fIsNaN fields[k] = false) ∧
    8388607 < toInt (fields.getD 0 0) 22 ∧ toInt (fields.getD 1 0) 22 < -8388608 ∧
    -8388608 ≤ toInt (fields.getD 2 0) 22 ∧ toInt (fields.getD 2 0) 22 ≤ 8388607 := by
  obtain ⟨ht, hp, h1, h2, hn⟩ := witness_encode_model
  refine ⟨by simp [ht], fun k h => ⟨?_, hn _ (List.getElem_mem h)⟩, by decide +kernel,
    by decide +kernel, by decide +kernel, by decide +kernel⟩
  by_cases hk : k < 128
  · rw [if_pos hk, List.getElem_append_left (by omega)]
    exact h1 k (by omega)
  · rw [if_neg hk, List.getElem_append_right (by omega)]
    simp only [ht]
    exact h2 (k - 128) (by simp at h ⊢; omega)

/-- NaNInputIsNaNError. -/
theorem witness_nan_model :
    nanModel.operandsWritten .encodeModel = true ∧
    ∃ k x, k < 13 ∧ nanModel.f64At .param k = some x ∧ fIsNaN x = true := by
  have hm := model_elements (s := State.reset) (taps := someTaps) (params := nanParams)
    (by simp [someTaps]) (by simp [nanParams])
  have hw : ∀ {b : Buffer} {vs : List F64} {n : Nat}, vs.length = n →
      (∀ k (h : k < vs.length), nanModel.f64At b k = some vs[k]) →
      nanModel.allWritten b n = true := by
    intro b vs n hl h
    simp only [State.allWritten, List.all_eq_true, List.mem_range]
    intro k hk
    have := h k (by omega)
    simp only [State.f64At, Option.map_eq_some_iff] at this
    obtain ⟨v, hv, -⟩ := this
    simp [State.written, hv]
  refine ⟨?_, 12, 0x7FF8000000000000#64, by decide, ?_, by decide +kernel⟩
  · rw [State.operandsWritten, hw (n := 128) (by simp [someTaps]) hm.1,
      hw (n := 13) (by simp [nanParams]) hm.2]
    rfl
  · exact hm.2 12 (by simp [nanParams])

/-- EncodeRoundsHalfAway and ArithmeticRoundsToNearest: finite patterns, a finite result of each operation
and one beyond the largest number. -/
theorem witness_finite :
    fIsFinite 0x3E80000000000000#64 = true ∧ fIsFinite fOne = true ∧ fIsFinite (fadd fOne fTwo) = true ∧
    fIsFinite (fsub fOne fTwo) = true ∧ fIsFinite (fmul fOne fTwo) = true ∧
    fIsFinite (fdiv fOne fThree) = true ∧ fIsFinite (fsqrt fTwo) = true ∧
    fIsFinite 0x7FE0000000000000#64 = true ∧
    fmul 0x7FE0000000000000#64 fTwo = 0x7FF0000000000000#64 := by decide +kernel
theorem witness_nonzero : fVal fThree ≠ 0 := by
  have : fClass fThree = .fin false (3 * 2 ^ 51) (-51) := by decide +kernel
  rw [fVal, this]
  norm_num

/-- DecodeScalingIsExact, at the ends of its ranges. -/
theorem witness_scaling :
    -8388608 ≤ (0xFF800000#32 : Word).toInt ∧ (0x007FFFFF#32 : Word).toInt ≤ 8388607 := by decide

/-- NaNsAndInfinities: every clause. -/
theorem witness_nan : fIsNaN 0x7FF8000000000000#64 = true ∧ fSign 0xBFF0000000000000#64 = true ∧
    fClass 0xBFF0000000000000#64 = .fin true (2 ^ 52) (-52) := by
  decide +kernel
theorem witness_inf_zero : isInf 0x7FF0000000000000#64 ∧ isInf 0xFFF0000000000000#64 ∧
    isZero 0x0000000000000000#64 ∧ isZero 0x8000000000000000#64 :=
  ⟨.inl rfl, .inr rfl, .inl rfl, .inr rfl⟩

/-- SoftResetForgetsTheCancelledWriteSet: a command, an illegal word and a command that would end with
an error. -/
theorem witness_soft_reset :
    (∃ s : State, s.seq = .busy ∧ decode s.cmdl = .ok (.fft 2)) ∧
    (∃ s : State, s.seq = .busy ∧ illegalWord s.cmdl = true) ∧
    ∃ s t : State, s.seq = .busy ∧ decode s.cmdl = .ok (.fft 1) ∧ exec (.fft 1) s = .next t ∧
      t.err = true :=
  ⟨⟨busyWith fourSamples 0x00000210#32 [], rfl, by decide⟩,
    ⟨busyWith .reset 0x00000003#32 [], rfl, by decide⟩,
    ⟨busyWith .reset 0x00000110#32 [], _, rfl, by decide, rfl, rfl⟩⟩

/-- EveryStepKeepsInvariant: a state that meets the invariant and steps. -/
theorem witness_invariant : State.reset.Inv ∧ step State.reset = .next State.reset :=
  ⟨{ memory_wf := List.Pairwise.nil
     memory_stored := fun _ h => absurd h (by simp [State.reset])
     memory_words := fun _ _ => rfl
     errcode_legal := by decide
     busy_clear := fun h => by simp [State.reset] at h
     err_coded := fun h => by simp [State.reset] at h }, rfl⟩

/-- StopsOnlyAtUnwrittenElements: a step that stops. -/
theorem witness_fault :
    step (busyWith .reset 0x00000210#32 []) = .fault (.unwritten .data 0) := rfl

/-- HostAccessIsPerformedOrWaits: every clause, the last two where they meet. -/
theorem witness_held :
    let op : BusOp := .read .w32 0x0400#14
    let op' : BusOp := .read .w32 0x03FC#14
    (∃ s t : State, s.seq = .busy ∧ s.agenda = .host op :: [] ∧ op.accessWidth = .w32 ∧
      op.offset.toNat % 4 = 0 ∧ 0x0400 ≤ op.offset.toNat ∧ step s = .next t) ∧
    (∃ s : State, s.seq = .idle ∧ s.agenda = .host op :: []) ∧
    ∃ s : State, s.seq = .busy ∧ s.agenda = .host op' :: [] ∧ op'.accessWidth = .w32 ∧
      op'.offset.toNat % 4 = 0 ∧ op'.offset.toNat < 0x0400 ∧ op'.offset.toNat ≠ 0x00C ∧
      op'.offset.toNat ≠ 0x010 ∧ op'.offset.toNat ≠ 0x014 :=
  ⟨⟨busyWith .reset 0#32 [.host (.read .w32 0x0400#14)], _, rfl, rfl, rfl, by decide, by decide, rfl⟩,
    ⟨{ State.reset with agenda := [.host (.read .w32 0x0400#14)] }, rfl, rfl⟩,
    ⟨busyWith .reset 0#32 [.host (.read .w32 0x03FC#14)], rfl, rfl, rfl, by decide, by decide,
      by decide, by decide, by decide⟩⟩

/-- ReadsHaveNoSideEffects. -/
theorem witness_read : ∃ t, hostAccess (.read .w32 0x000#14) State.reset = .next t := ⟨_, rfl⟩

/-- BusErrorsChangeNothing: a narrow access, and a misaligned one. -/
theorem witness_bus_error :
    (∃ s : State, s.agenda = .host (.read .w16 0x008#14) :: []) ∧
    (BusOp.read .w16 0x008#14).accessWidth ≠ .w32 ∧
    (∃ s : State, s.agenda = .host (.read .w32 0x002#14) :: []) ∧
    (BusOp.read .w32 0x002#14).offset.toNat % 4 ≠ 0 :=
  ⟨⟨{ State.reset with agenda := [.host (.read .w16 0x008#14)] }, rfl⟩, by decide,
    ⟨{ State.reset with agenda := [.host (.read .w32 0x002#14)] }, rfl⟩, by decide⟩

/-- StatusAccess and CtrlAccess: every clause. -/
theorem witness_status_ctrl :
    (∃ s : State, s.agenda = .host (.read .w32 0x008#14) :: []) ∧
    (∃ s : State, s.agenda = .host (.write .w32 0x008#14 0x02#32) :: []) ∧
    (0x02#32).getLsbD 1 = true ∧ (∃ s : State, s.agenda = .host (.read .w32 0x018#14) :: []) ∧
    (∃ s : State, s.agenda = .host (.write .w32 0x018#14 0x3#32) :: []) ∧
    (0x3#32).getLsbD 1 = true ∧ (0x1#32).getLsbD 1 = false :=
  ⟨⟨{ State.reset with agenda := [.host (.read .w32 0x008#14)] }, rfl⟩,
    ⟨{ State.reset with agenda := [.host (.write .w32 0x008#14 0x02#32)] }, rfl⟩, by decide,
    ⟨{ State.reset with agenda := [.host (.read .w32 0x018#14)] }, rfl⟩,
    ⟨{ State.reset with agenda := [.host (.write .w32 0x018#14 0x3#32)] }, rfl⟩, by decide, by decide⟩

/-- ReservedOffsetsReadZero: the ends of every reserved range, and that they are reserved slots; the
words beside them are elements (20_memory.md R72). -/
theorem witness_reserved :
    [0x001C, 0x03FC, 0x0A9C, 0x0BFC, 0x0E34, 0x0FFC, 0x1A00, 0x1FFC, 0x2468, 0x3FFC].all
      (fun a => decide (slotAt a = .reserved) && decide (a % 4 = 0)) = true ∧
    slotAt 0x0A98 = .elem .bytes 422 0 ∧ slotAt 0x0E30 = .elem .words 140 0 ∧
    slotAt 0x13FC = .elem .data 127 1 ∧ slotAt 0x15F8 = .elem .mag 63 0 ∧
    slotAt 0x17FC = .elem .freq 63 1 ∧ slotAt 0x19FC = .elem .leak 63 1 ∧
    slotAt 0x23FC = .elem .tap 127 1 ∧ slotAt 0x2464 = .elem .param 12 1 := by decide +kernel

/-- BytesElementAccess and WordsElementAccess, at the last element. -/
theorem witness_element :
    (0x0A98#14).toNat = 0x0400 + 4 * 422 ∧ (0x0E30#14).toNat = 0x0C00 + 4 * 140 := by decide

/-- Binary64HalfAccess and ElementNeedsBothHalves, at the last element of PARAM and for both halves. -/
theorem witness_half :
    (0x2464#14).toNat = Buffer.param.addr 12 + 4 * 1 ∧ (0x2460#14).toNat = Buffer.param.addr 12 + 4 * 0 ∧
    (12 : Nat) < Buffer.param.count ∧
    (State.reset.setF64s .param (List.replicate 13 0#64)).f64At .param 12 = some 0#64 ∧
    Memory.read State.reset.mem (0x2460#14).toNat = none ∧
    Memory.read State.reset.mem (0x2464#14).toNat = none := by decide +kernel

/-- UnwrittenReadFaults. -/
theorem witness_unwritten : State.reset.written .data 127 = false ∧ (127 : Nat) < Buffer.data.count ∧
    4 * 1 < Buffer.data.stride ∧ (0x13FC#14).toNat = Buffer.data.addr 127 + 4 * 1 := by decide

/-- LeakageFilterCornerCases, ZeroLeakageMakesUntangle: a zero leakage. The records of the last clause
reach both ends of the leakage of an excursion record, 1.0 and -1.0 + 2^-23 (42_transcoder.md R193). -/
theorem witness_leakage :
    isZero 0x8000000000000000#64 ∧
    fneg (recordParam (List.replicate 387 0#8 ++ [0x80#8, 0#8, 0#8]) 1) = fOne ∧
    fneg (recordParam (List.replicate 387 0#8 ++ [0x7F#8, 0xFF#8, 0xFF#8]) 1) =
      0xBFEFFFFFC0000000#64 := by
  refine ⟨.inr rfl, ?_⟩
  decide +kernel

/-- Every angle of the filter that DECODE_MODEL divides by is below 99/64, where the sine is kept below 1
(log entry 8). -/
theorem test_filter_angles :
    (List.range 64).all (fun i =>
      decide (fMag (fdiv (fmul Config.pi64 (i2f i)) (i2f 128)) ≤ 0x3FF8C00000000000)) = true := by
  decide +kernel

/-- R170, R193: with leakage 1.0 and the largest sine that is kept, 1 - 2^-12, the filter is the root of
4 - 4 (1 - 2^-12)^2 = 2^-9 - 2^-22, above 0. -/
theorem test_filter_positive :
    leakageAt (fun x => keepMag (sinBound (fMag x)) fOne) 64 fOne 63 = 0x3FA6A043E3509A08#64 := by
  decide +kernel

end Sys2Proof.Tests
end

section
/-! PROOFS. Binary64 rounding (00_scope.md R12): what the pattern of an exponent and a significand
stands for, that `roundPack` answers the nearest pattern, ties to even, and that each operation of R12
rounds its exact result once. -/

namespace Sys2Proof.Machine

/-! ### Signs -/

/-- The factor that a sign bit stands for. -/
noncomputable def sgn (neg : Bool) : ℝ := if neg then -1 else 1

@[simp] theorem sgn_true : sgn true = -1 := rfl
@[simp] theorem sgn_false : sgn false = 1 := rfl

theorem sgn_xor (s t : Bool) : sgn (s ^^ t) = sgn s * sgn t := by
  cases s <;> cases t <;> simp

theorem sgn_not (s : Bool) : sgn (!s) = -sgn s := by cases s <;> simp

theorem sgn_mul_self (s : Bool) : sgn s * sgn s = 1 := by cases s <;> simp

@[simp] theorem abs_sgn (s : Bool) : |sgn s| = 1 := by cases s <;> simp

theorem cast_signedInt (s : Bool) (m : Nat) : (signedInt s m : ℝ) = sgn s * m := by
  cases s <;> simp [signedInt]

/-! ### What a finite pattern stands for -/

theorem fExp_eq_fMag_div (x : F64) : fExp x = fMag x / 2 ^ 52 := by
  simp only [fExp, fMag, BitVec.extractLsb'_toNat, Nat.shiftRight_eq_div_pow]
  omega

theorem fFrac_eq_fMag_mod (x : F64) : fFrac x = fMag x % 2 ^ 52 := by
  simp only [fFrac, fMag, BitVec.extractLsb'_toNat, Nat.shiftRight_eq_div_pow]
  omega

theorem fVal_of_fClass {x : F64} {s : Bool} {m : Nat} {e : Int} (h : fClass x = .fin s m e) :
    (fVal x : ℝ) = sgn s * (m * 2 ^ e) := by
  rw [fVal, h]
  cases s <;> simp

/-- A finite pattern has a significand below 2^53 and an exponent of its last place in [-1074, 971]. -/
theorem fClass_of_finite {x : F64} (h : fIsFinite x = true) :
    ∃ s m e, fClass x = .fin s m e ∧ m < 2 ^ 53 ∧ -1074 ≤ e ∧ e ≤ 971 := by
  have hexp : fExp x ≠ 2047 := by simpa [fIsFinite] using h
  have hexp' : fExp x < 2 ^ 11 := BitVec.isLt _
  have hfrac : fFrac x < 2 ^ 52 := BitVec.isLt _
  unfold fClass
  rw [if_neg hexp]
  split
  · exact ⟨_, _, _, rfl, by omega, by omega, by omega⟩
  · exact ⟨_, _, _, rfl, by omega, by omega, by omega⟩

theorem fIsFinite_packMag {mag : Nat} (neg : Bool) (h : mag < infMag) :
    fIsFinite (packMag neg mag) = true := by
  unfold infMag at h
  simp only [fIsFinite, fExp_eq_fMag_div, fMag_packMag neg (show mag < 2 ^ 63 by omega),
    decide_eq_true_eq]
  omega

/-- The pattern with `c` in the exponent field and a significand added below it is that significand at
the last place 2^(c - 1074). A significand of 2^53 has carried into the exponent. -/
theorem fVal_packMag {neg : Bool} {c sig : Nat} (hfin : c * 2 ^ 52 + sig < infMag)
    (hsig : sig ≤ 2 ^ 53) (hnorm : c = 0 ∨ 2 ^ 52 ≤ sig) :
    (fVal (packMag neg (c * 2 ^ 52 + sig)) : ℝ) = sgn neg * (sig * 2 ^ ((c : Int) - 1074)) := by
  unfold infMag at hfin
  have hmag : c * 2 ^ 52 + sig < 2 ^ 63 := by omega
  have hclass (E F : Nat) (hE : E < 2047) (hF : F < 2 ^ 52) (h : c * 2 ^ 52 + sig = E * 2 ^ 52 + F) :
      fClass (packMag neg (c * 2 ^ 52 + sig)) =
        if E = 0 then .fin neg F (-1074) else .fin neg (2 ^ 52 + F) ((E : Int) - 1075) := by
    have hexp : fExp (packMag neg (c * 2 ^ 52 + sig)) = E := by
      rw [fExp_eq_fMag_div, fMag_packMag neg hmag]; omega
    have hfrac : fFrac (packMag neg (c * 2 ^ 52 + sig)) = F := by
      rw [fFrac_eq_fMag_mod, fMag_packMag neg hmag]; omega
    rw [fClass, hexp, hfrac, fSign_packMag neg hmag, if_neg hE.ne]
  rcases lt_or_ge sig (2 ^ 52) with hsub | hnormal
  · obtain rfl : c = 0 := by omega
    rw [fVal_of_fClass (hclass 0 sig (by omega) hsub rfl)]
    simp
  rcases hsig.lt_or_eq with hlt | rfl
  · rw [fVal_of_fClass ((hclass (c + 1) (sig - 2 ^ 52) (by omega) (by omega) (by omega)).trans
      (if_neg (by omega)))]
    rw [Nat.add_sub_cancel' hnormal, show ((c + 1 : Nat) : Int) - 1075 = (c : Int) - 1074 by omega]
  · rw [fVal_of_fClass ((hclass (c + 2) 0 (by omega) (by omega) (by omega)).trans
      (if_neg (by omega))),
      show ((c + 2 : Nat) : Int) - 1075 = ((c : Int) - 1074) + 1 by omega,
      zpow_add_one₀ two_ne_zero]
    push_cast
    ring

theorem getLsbD_zero_packMag (neg : Bool) (mag : Nat) :
    (packMag neg mag).getLsbD 0 = decide (mag % 2 = 1) := by
  cases neg <;> simp [packMag, BitVec.getLsbD, Nat.testBit_zero]; omega

/-! ### The numbers beside a last place -/

/-- `w` is a multiple of 2^q, or smaller in magnitude than every number whose last place is 2^q. -/
def OnGrid (q : Int) (w : ℝ) : Prop :=
  (∃ n : Int, w = n * 2 ^ q) ∨ (-1074 < q ∧ |w| < 2 ^ 52 * 2 ^ q)

theorem OnGrid.sgn_mul {q : Int} {w : ℝ} (s : Bool) (h : OnGrid q w) : OnGrid q (sgn s * w) := by
  obtain ⟨n, rfl⟩ | ⟨hq, hw⟩ := h
  · refine .inl ⟨if s then -n else n, ?_⟩
    cases s <;> simp
  · exact .inr ⟨hq, by rwa [abs_mul, abs_sgn, one_mul]⟩

/-- Every finite pattern lies on the grid of every last place. -/
theorem onGrid_fVal {z : F64} {q : Int} (hz : fIsFinite z = true) : OnGrid q (fVal z) := by
  obtain ⟨s, m, e, hclass, hm, he, -⟩ := fClass_of_finite hz
  rw [fVal_of_fClass hclass]
  refine OnGrid.sgn_mul s ?_
  rcases le_or_gt q e with hqe | heq
  · refine .inl ⟨m * 2 ^ (e - q).toNat, ?_⟩
    push_cast
    rw [mul_assoc, ← zpow_natCast, ← zpow_add₀ two_ne_zero]
    congr 2
    omega
  · refine .inr ⟨by omega, ?_⟩
    have hm' : (m : ℝ) < 2 ^ 53 := by exact_mod_cast hm
    have hpow : (2 : ℝ) ^ e ≤ 2 ^ (q - 1) := zpow_le_zpow_right₀ one_le_two (by omega)
    rw [abs_of_nonneg (by positivity)]
    calc (m : ℝ) * 2 ^ e ≤ m * 2 ^ (q - 1) := by gcongr
      _ < 2 ^ 53 * 2 ^ (q - 1) := by gcongr
      _ = 2 ^ 52 * 2 ^ q := by rw [zpow_sub_one₀ two_ne_zero]; ring

/-! ### Rounding to an integer -/

/-- `k` is the integer nearest to `t`, and the even one at a tie. -/
def NearestInt (k : Nat) (t : ℝ) : Prop := |(k : ℝ) - t| ≤ 1 / 2 ∧ (|(k : ℝ) - t| = 1 / 2 → Even k)

theorem NearestInt.cast (m : Nat) : NearestInt m m := by simp [NearestInt]

/-- No integer is nearer, and at a tie with another one the nearest integer is even. -/
theorem NearestInt.le_abs_sub {k : Nat} {t : ℝ} (h : NearestInt k t) (n : Int) :
    |(k : ℝ) - t| ≤ |(n : ℝ) - t| ∧ (|(k : ℝ) - t| = |(n : ℝ) - t| → n ≠ k → Even k) := by
  obtain ⟨hle, heven⟩ := h
  rcases eq_or_ne n k with rfl | hne
  · simp
  have hone : (1 : ℝ) ≤ |(n : ℝ) - k| := by
    exact_mod_cast Int.one_le_abs (sub_ne_zero.2 hne)
  have htri : |(n : ℝ) - k| ≤ |(n : ℝ) - t| + |(k : ℝ) - t| := by
    simpa [abs_sub_comm t] using abs_sub_le (n : ℝ) t k
  exact ⟨by linarith, fun heq _ => heven (by linarith)⟩

theorem NearestInt.le_of_le {k : Nat} {t : ℝ} {n : Nat} (h : NearestInt k t) (hn : (n : ℝ) ≤ t) :
    n ≤ k := by
  by_contra! hlt
  have hlt' : (k : ℝ) + 1 ≤ n := by exact_mod_cast hlt
  have := (abs_le.1 h.1).1
  linarith

theorem NearestInt.le_of_ge {k : Nat} {t : ℝ} {n : Nat} (h : NearestInt k t) (hn : t ≤ n) :
    k ≤ n := by
  by_contra! hlt
  have hlt' : (n : ℝ) + 1 ≤ k := by exact_mod_cast hlt
  have := (abs_le.1 h.1).2
  linarith

/-- The significand carries out of 53 bits from half a last place below 2^53 on. -/
theorem NearestInt.lt_two_pow_iff {k : Nat} {t : ℝ} (hk : NearestInt k t) :
    k < 2 ^ 53 ↔ t < 2 ^ 53 - 1 / 2 := by
  obtain ⟨habs, htie⟩ := hk
  constructor
  · intro hlt
    by_contra! hge
    have hcast : (k : ℝ) + 1 ≤ 2 ^ 53 := by exact_mod_cast hlt
    have heq : (k : ℝ) + 1 = 2 ^ 53 := by linarith [(abs_le.1 habs).1]
    have heven : Even k := htie <| by
      rw [abs_sub_comm, abs_of_nonneg] <;> linarith [(abs_le.1 habs).1]
    have : k + 1 = 2 ^ 53 := by exact_mod_cast heq
    rw [Nat.even_iff] at heven
    omega
  · intro hlt
    have hcast : (k : ℝ) < 2 ^ 53 := by linarith [(abs_le.1 habs).2]
    exact_mod_cast hcast

/-- Rounding `m` to 53 bits rounds `y`: `m` is `y` itself, or it has at least 55 bits, the last a sticky
one, and `y` lies strictly between its neighbours. -/
def StandsFor (m : Nat) (y : ℝ) : Prop := y = m ∨ (Odd m ∧ 2 ^ 54 ≤ m ∧ |y - m| < 1)

theorem StandsFor.refl (m : Nat) : StandsFor m m := .inl rfl

theorem StandsFor.eq_zero {y : ℝ} (h : StandsFor 0 y) : y = 0 := by
  simpa [StandsFor] using h

/-- A remainder of a division by 2H and what it stands for lie on the same side of the middle H. -/
theorem remainder_side {H rest : Nat} {ρ : ℝ} (hlt : rest < 2 * H)
    (h : ρ = rest ∨ (Even H ∧ Odd rest ∧ |ρ - rest| < 1)) :
    (rest < H → 0 ≤ ρ ∧ ρ < H) ∧ (rest = H → ρ = H) ∧ (H < rest → H < ρ ∧ ρ ≤ 2 * H) := by
  obtain rfl | ⟨hH, hrest, habs⟩ := h
  · exact ⟨fun h => ⟨by positivity, by exact_mod_cast h⟩, fun h => by rw [h],
      fun h => ⟨by exact_mod_cast h, by exact_mod_cast hlt.le⟩⟩
  · obtain ⟨hlo, hhi⟩ := abs_lt.1 habs
    refine ⟨fun h => ?_, fun h => ?_, fun h => ?_⟩
    · have h1 : (1 : ℝ) ≤ rest := by exact_mod_cast hrest.pos
      have h2 : (rest : ℝ) + 1 ≤ H := by exact_mod_cast h
      constructor <;> linarith
    · exact absurd hH (by rw [← h]; exact Nat.not_even_iff_odd.2 hrest)
    · have h1 : (H : ℝ) + 1 ≤ rest := by exact_mod_cast h
      have h2 : (rest : ℝ) + 1 ≤ 2 * H := by exact_mod_cast hlt
      constructor <;> linarith

theorem nearestInt_down {hi : Nat} {θ : ℝ} (h0 : 0 ≤ θ) (h : θ < 1 / 2 ∨ (θ = 1 / 2 ∧ Even hi)) :
    NearestInt hi (hi + θ) := by
  rw [NearestInt, sub_add_cancel_left, abs_neg, abs_of_nonneg h0]
  obtain hlt | ⟨heq, heven⟩ := h
  · exact ⟨hlt.le, fun heq => absurd heq hlt.ne⟩
  · exact ⟨heq.le, fun _ => heven⟩

theorem nearestInt_up {hi : Nat} {θ : ℝ} (h1 : θ ≤ 1) (h : 1 / 2 < θ ∨ (θ = 1 / 2 ∧ Odd hi)) :
    NearestInt (hi + 1) (hi + θ) := by
  rw [NearestInt, Nat.cast_succ, add_sub_add_left_eq_sub, abs_of_nonneg (by linarith)]
  obtain hlt | ⟨heq, hodd⟩ := h
  · exact ⟨by linarith, fun heq => absurd heq (by linarith)⟩
  · exact ⟨by linarith, fun _ => hodd.add_one⟩

/-- `roundShift` by the quotient and the remainder. -/
theorem roundShift_mul_add {d hi rest : Nat} (h : rest < 2 * 2 ^ d) :
    roundShift (2 * 2 ^ d * hi + rest) (d + 1) =
      if 2 ^ d < rest ∨ (rest = 2 ^ d ∧ hi % 2 = 1) then hi + 1 else hi := by
  have hdiv : (2 * 2 ^ d * hi + rest) / (2 * 2 ^ d) = hi := by
    rw [Nat.mul_add_div (by positivity), Nat.div_eq_of_lt h, Nat.add_zero]
  have hmod : (2 * 2 ^ d * hi + rest) % (2 * 2 ^ d) = rest := by
    rw [Nat.mul_add_mod, Nat.mod_eq_of_lt h]
  simp only [roundShift, Nat.pow_succ', hdiv, hmod, Nat.mul_lt_mul_left two_pos,
    Nat.mul_right_inj two_ne_zero]

/-- Rounding what stands for `y`, cut at bit 1 or above, rounds `y` itself. -/
theorem nearestInt_roundShift {m d : Nat} {y : ℝ}
    (h : y = m ∨ (1 ≤ d ∧ Odd m ∧ |y - m| < 1)) :
    NearestInt (roundShift m (d + 1)) (y / 2 ^ (d + 1)) := by
  obtain ⟨hi, rest, hlt, rfl⟩ : ∃ hi rest, rest < 2 * 2 ^ d ∧ m = 2 * 2 ^ d * hi + rest :=
    ⟨_, _, Nat.mod_lt m (by positivity), (Nat.div_add_mod m _).symm⟩
  obtain ⟨ρ, rfl⟩ : ∃ ρ : ℝ, y = 2 * 2 ^ d * hi + ρ := ⟨y - 2 * 2 ^ d * hi, by ring⟩
  have hside := remainder_side (ρ := ρ) hlt <| by
    push_cast [add_sub_add_left_eq_sub, add_right_inj] at h
    refine h.imp_right fun ⟨hd, hodd, habs⟩ => ⟨even_two.pow_of_ne_zero (by omega), ?_, habs⟩
    exact (Nat.odd_add'.1 hodd).2 (by simp [mul_assoc])
  push_cast at hside
  obtain ⟨hbelow, hmiddle, habove⟩ := hside
  have hpos : (0 : ℝ) < 2 * 2 ^ d := by positivity
  have hsplit : (2 * 2 ^ d * hi + ρ) / 2 ^ (d + 1) = hi + ρ / (2 * 2 ^ d) := by
    rw [pow_succ']; field_simp
  rw [roundShift_mul_add hlt, hsplit]
  rcases lt_trichotomy rest (2 ^ d) with hc | hc | hc
  · obtain ⟨h0, h1⟩ := hbelow hc
    rw [if_neg (by omega)]
    exact nearestInt_down (by positivity) (.inl (by rw [div_lt_iff₀ hpos]; linarith))
  · have hhalf : ρ / (2 * 2 ^ d) = 1 / 2 := by rw [hmiddle hc]; field_simp
    rcases Nat.even_or_odd hi with heven | hodd
    · rw [if_neg (by rw [Nat.even_iff] at heven; omega)]
      exact nearestInt_down (by rw [hhalf]; norm_num) (.inr ⟨hhalf, heven⟩)
    · rw [if_pos (.inr ⟨hc, Nat.odd_iff.1 hodd⟩)]
      exact nearestInt_up (by rw [hhalf]; norm_num) (.inr ⟨hhalf, hodd⟩)
  · obtain ⟨h0, h1⟩ := habove hc
    rw [if_pos (.inl hc)]
    exact nearestInt_up ((div_le_one hpos).2 h1) (.inl (by rw [lt_div_iff₀ hpos]; linarith))

/-! ### Rounding to a pattern -/

/-- 2^q is the last place of the binary64 numbers beside `t * 2^q` (00_scope.md R12, with gradual
underflow). -/
structure Placed (q : Int) (t : ℝ) : Prop where
  underflow : -1074 ≤ q
  nonneg : 0 ≤ t
  lt : t < 2 ^ 53
  normal : q = -1074 ∨ 2 ^ 52 ≤ t

section
variable {q : Int} {t : ℝ} {k : Nat} (hp : Placed q t) (hk : NearestInt k t)
include hp hk

theorem Placed.sig_le : k ≤ 2 ^ 53 := hk.le_of_ge (by exact_mod_cast hp.lt.le)

theorem Placed.sig_normal : q = -1074 ∨ 2 ^ 52 ≤ k :=
  hp.normal.imp_right fun h => hk.le_of_le (by exact_mod_cast h)

/-- On the grid of the last place nothing is nearer than the rounded significand. -/
theorem Placed.le_abs_sub {w : ℝ} (hw : OnGrid q w) :
    |k * 2 ^ q - t * 2 ^ q| ≤ |w - t * 2 ^ q| ∧
      (|k * 2 ^ q - t * 2 ^ q| = |w - t * 2 ^ q| → w ≠ k * 2 ^ q → Even k) := by
  have hpos : (0 : ℝ) < 2 ^ q := by positivity
  have hscale (a : ℝ) : |a * 2 ^ q - t * 2 ^ q| = |a - t| * 2 ^ q := by
    rw [← sub_mul, abs_mul, abs_of_pos hpos]
  obtain ⟨n, rfl⟩ | ⟨hq, hw⟩ := hw
  · obtain ⟨hle, heven⟩ := hk.le_abs_sub n
    rw [hscale, hscale, mul_le_mul_iff_left₀ hpos, mul_left_inj' hpos.ne']
    exact ⟨hle, fun heq hne => heven heq fun h => hne (by rw [h, Int.cast_natCast])⟩
  · have ht : 2 ^ 52 ≤ t := hp.normal.resolve_left hq.ne'
    have hk52 : |(k : ℝ) - t| ≤ t - 2 ^ 52 := by
      have := (hk.le_abs_sub (2 ^ 52)).1
      rwa [Int.cast_pow, Int.cast_ofNat, abs_of_nonpos (sub_nonpos.2 ht), neg_sub] at this
    have hlt : |k * 2 ^ q - t * 2 ^ q| < |w - t * 2 ^ q| :=
      calc |k * 2 ^ q - t * 2 ^ q| = |(k : ℝ) - t| * 2 ^ q := hscale k
        _ ≤ (t - 2 ^ 52) * 2 ^ q := by gcongr
        _ < t * 2 ^ q - w := by linarith [(abs_lt.1 hw).2]
        _ ≤ |w - t * 2 ^ q| := by rw [abs_sub_comm]; exact le_abs_self _
    exact ⟨hlt.le, fun heq => absurd heq hlt.ne⟩

/-- The pattern is finite exactly below 2^1024 - 2^970, half a last place above the largest number. -/
theorem Placed.lt_infMag_iff :
    (q + 1074).toNat * 2 ^ 52 + k < infMag ↔ t * 2 ^ q < 2 ^ 1024 - 2 ^ 970 := by
  have hle := hp.sig_le hk
  have hunder := hp.underflow
  have hlimit : (2 : ℝ) ^ 1024 - 2 ^ 970 = (2 ^ 53 - 1 / 2) * 2 ^ (971 : Int) := by
    rw [show (971 : Int) = ((970 + 1 : Nat) : Int) from rfl, zpow_natCast,
      show 1024 = 970 + 54 from rfl, pow_add, pow_succ 2 970]
    generalize (2 : ℝ) ^ 970 = p
    ring
  have hpos : (0 : ℝ) < 2 ^ (971 : Int) := by positivity
  rw [hlimit]
  unfold infMag
  rcases lt_trichotomy q 971 with hq | rfl | hq
  · refine iff_of_true (by omega) ?_
    calc t * 2 ^ q ≤ 2 ^ 53 * 2 ^ (970 : Int) := by
          gcongr
          · exact hp.lt.le
          · exact one_le_two
          · omega
      _ = 2 ^ 52 * 2 ^ (971 : Int) := by
          rw [show (971 : Int) = 970 + 1 from rfl, zpow_add_one₀ two_ne_zero]; ring
      _ < (2 ^ 53 - 1 / 2) * 2 ^ (971 : Int) := by gcongr; norm_num
  · rw [mul_lt_mul_iff_left₀ hpos, ← hk.lt_two_pow_iff]
    omega
  · have hnormal : 2 ^ 52 ≤ k := (hp.sig_normal hk).resolve_left (by omega)
    refine iff_of_false (by omega) (not_lt.2 ?_)
    calc (2 ^ 53 - 1 / 2) * (2 : ℝ) ^ (971 : Int) ≤ 2 ^ 53 * 2 ^ (971 : Int) := by gcongr; norm_num
      _ = 2 ^ 52 * 2 ^ (972 : Int) := by
          rw [show (972 : Int) = 971 + 1 from rfl, zpow_add_one₀ two_ne_zero]; ring
      _ ≤ t * 2 ^ q := by
          gcongr
          · exact hp.nonneg
          · exact hp.normal.resolve_left (by omega)
          · exact one_le_two
          · omega

end

/-- The significand that `roundMag` rounds to. -/
def roundedSig (m : Nat) (e : Int) : Nat :=
  if lastPlace m e ≤ e then m * 2 ^ (e - lastPlace m e).toNat
  else roundShift m (lastPlace m e - e).toNat

theorem roundMag_of_ne_zero {m : Nat} (hm : m ≠ 0) (e : Int) :
    roundMag m e = min infMag ((lastPlace m e + 1074).toNat * 2 ^ 52 + roundedSig m e) := by
  rw [roundMag, if_neg hm]
  rfl

@[simp] theorem roundMag_zero (e : Int) : roundMag 0 e = 0 := rfl

section
variable {m : Nat} {y : ℝ} (h : StandsFor m y)
include h

theorem StandsFor.nonneg : 0 ≤ y := by
  obtain rfl | ⟨hodd, -, habs⟩ := h
  · positivity
  · have : (1 : ℝ) ≤ m := by exact_mod_cast hodd.pos
    linarith [(abs_lt.1 habs).1]

/-- What `m` stands for has as many bits as `m`. -/
theorem StandsFor.log2_bounds (hm : m ≠ 0) :
    (2 : ℝ) ^ Nat.log2 m ≤ y ∧ y < 2 ^ (Nat.log2 m + 1) := by
  have hlo : 2 ^ Nat.log2 m ≤ m := Nat.log2_self_le hm
  have hhi : m < 2 ^ (Nat.log2 m + 1) := Nat.lt_log2_self
  obtain rfl | ⟨hodd, hlong, habs⟩ := h
  · exact ⟨by exact_mod_cast hlo, by exact_mod_cast hhi⟩
  · obtain ⟨hy1, hy2⟩ := abs_lt.1 habs
    have hlog : 54 ≤ Nat.log2 m := (Nat.le_log2 hm).2 hlong
    have hne : 2 ^ Nat.log2 m ≠ m := fun heq =>
      (Nat.not_even_iff_odd.2 hodd) (heq ▸ even_two.pow_of_ne_zero (by omega))
    have hlo' : (2 : ℝ) ^ Nat.log2 m + 1 ≤ m := by exact_mod_cast hlo.lt_of_ne hne
    have hhi' : (m : ℝ) + 1 ≤ 2 ^ (Nat.log2 m + 1) := by exact_mod_cast hhi
    constructor <;> linarith

/-- `lastPlace` is the last place of the numbers beside `y * 2^e`. -/
theorem StandsFor.placed (hm : m ≠ 0) (e : Int) :
    Placed (lastPlace m e) (y * 2 ^ (e - lastPlace m e)) := by
  obtain ⟨hlo, hhi⟩ := h.log2_bounds hm
  rw [← zpow_natCast] at hlo hhi
  refine ⟨le_max_right .., mul_nonneg h.nonneg (by positivity), ?_, ?_⟩
  · have hq : e + Nat.log2 m - 52 ≤ lastPlace m e := le_max_left ..
    calc y * 2 ^ (e - lastPlace m e)
        < 2 ^ ((Nat.log2 m + 1 : Nat) : Int) * 2 ^ (e - lastPlace m e) := by gcongr
      _ = 2 ^ (((Nat.log2 m + 1 : Nat) : Int) + (e - lastPlace m e)) :=
          (zpow_add₀ two_ne_zero ..).symm
      _ ≤ 2 ^ ((53 : Nat) : Int) := zpow_le_zpow_right₀ one_le_two (by omega)
      _ = 2 ^ 53 := zpow_natCast ..
  · rcases max_choice (e + (Nat.log2 m : Int) - 52) (-1074) with hq | hq
    · right
      calc (2 : ℝ) ^ 52 = 2 ^ ((52 : Nat) : Int) := (zpow_natCast ..).symm
        _ = 2 ^ ((Nat.log2 m : Int) + (e - lastPlace m e)) := by
            rw [lastPlace, hq]; congr 1; omega
        _ = 2 ^ (Nat.log2 m : Int) * 2 ^ (e - lastPlace m e) := zpow_add₀ two_ne_zero ..
        _ ≤ y * 2 ^ (e - lastPlace m e) := by gcongr
    · exact .inl hq

/-- The significand is the nearest integer to what `m` stands for at the last place. -/
theorem StandsFor.nearestInt_roundedSig (e : Int) :
    NearestInt (roundedSig m e) (y * 2 ^ (e - lastPlace m e)) := by
  have hq : e + Nat.log2 m - 52 ≤ lastPlace m e := le_max_left ..
  have hlog (hlong : 2 ^ 54 ≤ m) : 54 ≤ Nat.log2 m := (Nat.le_log2 (by omega)).2 hlong
  unfold roundedSig
  split
  · next hle =>
    obtain rfl | ⟨-, hlong, -⟩ := h
    · convert NearestInt.cast (m * 2 ^ (e - lastPlace m e).toNat) using 1
      push_cast
      rw [← zpow_natCast, Int.toNat_of_nonneg (by omega)]
    · have := hlog hlong
      omega
  · next hlt =>
    obtain ⟨d, hd⟩ : ∃ d : Nat, lastPlace m e - e = (d + 1 : Nat) :=
      ⟨(lastPlace m e - e).toNat - 1, by omega⟩
    rw [show e - lastPlace m e = -((d + 1 : Nat) : Int) by omega, hd, Int.toNat_natCast, zpow_neg,
      zpow_natCast, ← div_eq_mul_inv]
    refine nearestInt_roundShift (h.imp_right fun ⟨hodd, hlong, habs⟩ => ⟨?_, hodd, habs⟩)
    have := hlog hlong
    omega

end

/-- `r` is `v` rounded as 00_scope.md R12 says: to nearest, ties to even, and to an infinity from
2^1024 - 2^970 on. -/
def RoundsTo (r : F64) (v : ℝ) : Prop :=
  (|v| < 2 ^ 1024 - 2 ^ 970 → nearestTo r v) ∧
  (2 ^ 1024 - 2 ^ 970 ≤ |v| → r = if v < 0 then 0xFFF0000000000000#64 else 0x7FF0000000000000#64)

theorem overflow_pos : (0 : ℝ) < 2 ^ 1024 - 2 ^ 970 :=
  sub_pos.2 (pow_lt_pow_right₀ one_lt_two (by decide))

/-- A finite pattern is nearest to its own value. -/
theorem nearestTo_of_fVal_eq {r : F64} {v : ℝ} (hr : fIsFinite r = true) (hv : (fVal r : ℝ) = v) :
    nearestTo r v := by
  subst hv
  refine ⟨hr, fun z _ => ?_⟩
  rw [sub_self, abs_zero]
  refine ⟨abs_nonneg _, fun heq hne => absurd ?_ hne⟩
  exact_mod_cast sub_eq_zero.1 (abs_eq_zero.1 heq.symm)

theorem fVal_packMag_zero (neg : Bool) : (fVal (packMag neg 0) : ℝ) = 0 := by
  simpa using fVal_packMag (neg := neg) (c := 0) (sig := 0) (by decide) (by omega) (.inl rfl)

theorem roundsTo_packMag_zero (neg : Bool) : RoundsTo (packMag neg 0) 0 :=
  ⟨fun _ => nearestTo_of_fVal_eq (fIsFinite_packMag neg (by decide)) (fVal_packMag_zero neg),
    fun h => absurd h (by rw [abs_zero]; exact not_le.2 overflow_pos)⟩

theorem packMag_infMag (neg : Bool) :
    packMag neg infMag = if neg then 0xFFF0000000000000#64 else 0x7FF0000000000000#64 := by
  cases neg <;> rfl

/-- A sign, an exponent field and a nearest significand make the nearest pattern. -/
theorem Placed.nearestTo_packMag {q : Int} {t : ℝ} {k : Nat} (neg : Bool) (hp : Placed q t)
    (hk : NearestInt k t) (hfin : (q + 1074).toNat * 2 ^ 52 + k < infMag) :
    nearestTo (packMag neg ((q + 1074).toNat * 2 ^ 52 + k)) (sgn neg * (t * 2 ^ q)) := by
  have hunder := hp.underflow
  have hval : (fVal (packMag neg ((q + 1074).toNat * 2 ^ 52 + k)) : ℝ) = sgn neg * (k * 2 ^ q) := by
    rw [fVal_packMag hfin (hp.sig_le hk) ((hp.sig_normal hk).imp_left fun h => by omega)]
    congr 3
    omega
  refine ⟨fIsFinite_packMag neg hfin, fun z hz => ?_⟩
  have hflip (a b : ℝ) : |a - sgn neg * b| = |sgn neg * a - b| := by
    rw [← one_mul |a - _|, ← abs_sgn neg, ← abs_mul, mul_sub, ← mul_assoc, sgn_mul_self, one_mul]
  obtain ⟨hle, heven⟩ := hp.le_abs_sub hk ((onGrid_fVal hz).sgn_mul neg)
  rw [hval, hflip, hflip, ← mul_assoc, sgn_mul_self, one_mul]
  refine ⟨hle, fun heq hne => ?_⟩
  have hsig : Even k := heven heq fun h => hne <| by
    have : (fVal z : ℝ) = fVal (packMag neg ((q + 1074).toNat * 2 ^ 52 + k)) := by
      rw [hval, ← h, ← mul_assoc, sgn_mul_self, one_mul]
    exact_mod_cast this
  rw [Nat.even_iff] at hsig
  rw [getLsbD_zero_packMag, decide_eq_false_iff_not]
  omega

/-- The one rounding of the model rounds the number that its argument stands for. -/
theorem StandsFor.roundsTo_roundPack {m : Nat} {y : ℝ} (h : StandsFor m y) (neg : Bool) (e : Int) :
    RoundsTo (roundPack neg m e) (sgn neg * (y * 2 ^ e)) := by
  unfold roundPack
  rcases eq_or_ne m 0 with rfl | hm
  · simpa [h.eq_zero] using roundsTo_packMag_zero neg
  set q := lastPlace m e with hq
  have hp := h.placed hm e
  have hk := h.nearestInt_roundedSig e
  have hv : y * 2 ^ e = y * 2 ^ (e - q) * 2 ^ q := by
    rw [mul_assoc, ← zpow_add₀ two_ne_zero, sub_add_cancel]
  have habs : |sgn neg * (y * 2 ^ e)| = y * 2 ^ e := by
    rw [abs_mul, abs_sgn, one_mul, abs_of_nonneg (mul_nonneg h.nonneg (by positivity))]
  have hiff := hp.lt_infMag_iff hk
  rw [RoundsTo, habs, roundMag_of_ne_zero hm, hv]
  refine ⟨fun hlt => ?_, fun hge => ?_⟩
  · rw [min_eq_right (hiff.2 hlt).le]
    exact hp.nearestTo_packMag neg hk (hiff.2 hlt)
  · rw [min_eq_left (not_lt.1 (mt hiff.1 (not_lt.2 hge))), packMag_infMag]
    have hpos := overflow_pos.trans_le hge
    cases neg
    · rw [sgn_false, one_mul, if_neg (not_lt.2 hpos.le)]; rfl
    · rw [sgn_true, neg_one_mul, if_pos (neg_lt_zero.2 hpos)]; rfl

/-! ### The operations -/

/-- A truncated result with its sticky bit stands for twice the exact result, where it is long. -/
theorem standsFor_withSticky {q : Nat} {exact : Bool} {z : ℝ} (hlo : (q : ℝ) ≤ z) (hhi : z < q + 1)
    (hexact : exact = true ↔ z = q) (hlong : exact = false → 2 ^ 53 ≤ q) :
    StandsFor (withSticky q exact) (2 * z) := by
  unfold StandsFor
  cases exact with
  | true => left; simp [withSticky, hexact.1 rfl]
  | false =>
    have hne : z ≠ q := by simpa using hexact
    have hlt := hlo.lt_of_ne' hne
    have hq := hlong rfl
    refine .inr ⟨by simp [withSticky], by simp [withSticky]; omega, ?_⟩
    simp only [withSticky, Bool.false_eq_true, ↓reduceIte]
    push_cast
    rw [abs_lt]
    constructor <;> linarith

theorem sgn_mul_natAbs (k : Int) : sgn (decide (k < 0)) * (k.natAbs : ℝ) = k := by
  rw [← cast_signedInt]
  congr 1
  rcases lt_or_ge k 0 with hk | hk <;> simp only [signedInt, decide_eq_true_eq] <;> omega

theorem roundsTo_addFinite (s : Bool) (m : Nat) (e : Int) (t : Bool) (n : Nat) (f : Int) :
    RoundsTo (addFinite s m e t n f) (sgn s * (m * 2 ^ e) + sgn t * (n * 2 ^ f)) := by
  set g := min e f with hg
  set sum := signedInt s (m * 2 ^ (e - g).toNat) + signedInt t (n * 2 ^ (f - g).toNat) with hsum
  have hshift (a : Nat) {c : Int} (hc : g ≤ c) :
      ((a * 2 ^ (c - g).toNat : Nat) : ℝ) * 2 ^ g = a * 2 ^ c := by
    push_cast
    rw [mul_assoc, ← zpow_natCast, ← zpow_add₀ two_ne_zero]
    congr 2
    omega
  have hval : (sum : ℝ) * 2 ^ g = sgn s * (m * 2 ^ e) + sgn t * (n * 2 ^ f) := by
    rw [hsum, Int.cast_add, cast_signedInt, cast_signedInt, add_mul, mul_assoc, mul_assoc,
      hshift m (min_le_left ..), hshift n (min_le_right ..)]
  have hdef : addFinite s m e t n f = if sum = 0 then packMag (s && t) 0
      else roundPack (decide (sum < 0)) sum.natAbs g := rfl
  rw [← hval, hdef]
  split
  · next h0 =>
    rw [h0, Int.cast_zero, zero_mul]
    exact roundsTo_packMag_zero _
  · rw [← sgn_mul_natAbs sum, mul_assoc]
    exact (StandsFor.refl _).roundsTo_roundPack _ _

section
variable {x y : F64} (hx : fIsFinite x = true) (hy : fIsFinite y = true)
include hx hy

theorem roundsTo_fadd : RoundsTo (fadd x y) (fVal x + fVal y) := by
  obtain ⟨s, m, e, hcx, -⟩ := fClass_of_finite hx
  obtain ⟨t, n, f, hcy, -⟩ := fClass_of_finite hy
  simp only [fadd, hcx, hcy, fVal_of_fClass hcx, fVal_of_fClass hcy]
  exact roundsTo_addFinite ..

theorem roundsTo_fsub : RoundsTo (fsub x y) (fVal x - fVal y) := by
  obtain ⟨s, m, e, hcx, -⟩ := fClass_of_finite hx
  obtain ⟨t, n, f, hcy, -⟩ := fClass_of_finite hy
  simp only [fsub, hcx, hcy, fVal_of_fClass hcx, fVal_of_fClass hcy, sub_eq_add_neg, ← neg_mul,
    ← sgn_not]
  exact roundsTo_addFinite ..

theorem roundsTo_fmul : RoundsTo (fmul x y) (fVal x * fVal y) := by
  obtain ⟨s, m, e, hcx, -⟩ := fClass_of_finite hx
  obtain ⟨t, n, f, hcy, -⟩ := fClass_of_finite hy
  simp only [fmul, hcx, hcy, fVal_of_fClass hcx, fVal_of_fClass hcy]
  convert (StandsFor.refl (m * n)).roundsTo_roundPack (s ^^ t) (e + f) using 1
  rw [sgn_xor, zpow_add₀ two_ne_zero]
  push_cast
  ring

end

/-- The quotient of significands, taken to 120 more bits with a sticky one. -/
theorem standsFor_quotient {m n : Nat} (hn : n ≠ 0) (hn53 : n < 2 ^ 53) :
    StandsFor (withSticky (m * 2 ^ quotientBits / n) (decide (m * 2 ^ quotientBits % n = 0)))
      (2 * (m * 2 ^ quotientBits / n : ℝ)) := by
  set a := m * 2 ^ quotientBits with ha
  have hcast : (m : ℝ) * 2 ^ quotientBits = a := by rw [ha]; push_cast; rfl
  have hnpos : (0 : ℝ) < n := by exact_mod_cast Nat.pos_of_ne_zero hn
  have hdiv : (a : ℝ) = n * (a / n : Nat) + (a % n : Nat) := by
    exact_mod_cast (Nat.div_add_mod a n).symm
  have hmod : ((a % n : Nat) : ℝ) < n := by exact_mod_cast Nat.mod_lt a (Nat.pos_of_ne_zero hn)
  have hz : (a : ℝ) / n = (a / n : Nat) + (a % n : Nat) / n := by rw [hdiv]; field_simp
  rw [hcast, hz]
  refine standsFor_withSticky ?_ ?_ ?_ ?_
  · exact le_add_of_nonneg_right (by positivity)
  · gcongr
    exact (div_lt_one hnpos).2 hmod
  · simp [hn]
  · intro hinexact
    have hm : m ≠ 0 := by rintro rfl; simp [ha] at hinexact
    rw [Nat.le_div_iff_mul_le (Nat.pos_of_ne_zero hn)]
    calc 2 ^ 53 * n ≤ 2 ^ 53 * 2 ^ 53 := by gcongr
      _ ≤ 1 * 2 ^ quotientBits := by decide
      _ ≤ m * 2 ^ quotientBits := by gcongr; omega

theorem roundsTo_fdiv {x y : F64} (hx : fIsFinite x = true) (hy : fIsFinite y = true)
    (hne : fVal y ≠ 0) : RoundsTo (fdiv x y) (fVal x / fVal y) := by
  obtain ⟨s, m, e, hcx, -⟩ := fClass_of_finite hx
  obtain ⟨t, n, f, hcy, hn53, -⟩ := fClass_of_finite hy
  have hn : n ≠ 0 := by
    rintro rfl
    have : (fVal y : ℝ) = 0 := by rw [fVal_of_fClass hcy]; simp
    exact hne (by exact_mod_cast this)
  simp only [fdiv, hcx, hcy, if_neg hn, fVal_of_fClass hcx, fVal_of_fClass hcy]
  convert (standsFor_quotient (m := m) hn hn53).roundsTo_roundPack (s ^^ t)
    (e - f - quotientBits - 1) using 1
  have hsgn : (sgn t)⁻¹ = sgn t := inv_eq_of_mul_eq_one_left (sgn_mul_self t)
  rw [sgn_xor, zpow_sub_one₀ two_ne_zero, zpow_sub₀ two_ne_zero, zpow_sub₀ two_ne_zero, zpow_natCast,
    div_eq_mul_inv (sgn s * _), mul_inv, hsgn]
  field_simp

/-- The root found bit by bit is the integer root. -/
theorem isqrtFrom_spec {k m r : Nat} (hlo : r * r ≤ m) (hhi : m < (r + 2 ^ k) * (r + 2 ^ k)) :
    isqrtFrom k m r * isqrtFrom k m r ≤ m ∧ m < (isqrtFrom k m r + 1) * (isqrtFrom k m r + 1) := by
  induction k generalizing r with
  | zero => exact ⟨hlo, hhi⟩
  | succ k ih =>
    rw [pow_succ', two_mul, ← add_assoc] at hhi
    unfold isqrtFrom
    split
    · next hbit => exact ih hbit hhi
    · next hbit => exact ih hlo (not_le.1 hbit)

theorem isqrtFrom_eq_sqrt {m : Nat} (h : m < 2 ^ 180) : isqrtFrom rootBits m 0 = Nat.sqrt m :=
  Nat.eq_sqrt.2 (isqrtFrom_spec (Nat.zero_le m) (h.trans_eq (by decide)))

/-- The integer root of a long radicand with its sticky bit. -/
theorem standsFor_sqrt {a : Nat} (hlong : 2 ^ 106 ≤ a) :
    StandsFor (withSticky (Nat.sqrt a) (decide (Nat.sqrt a * Nat.sqrt a = a))) (2 * Real.sqrt a) := by
  refine standsFor_withSticky Real.nat_sqrt_le_real_sqrt Real.real_sqrt_lt_nat_sqrt_succ ?_ ?_
  · rw [decide_eq_true_iff, Real.sqrt_eq_iff_mul_self_eq (by positivity) (by positivity), eq_comm]
    norm_cast
  · exact fun _ => Nat.le_sqrt.2 (hlong.trans_eq' (by decide))

/-- Scaling to an even exponent takes the root out of the power of two. -/
theorem sqrt_mul_zpow_even (a : ℝ) (k : Int) : Real.sqrt (a * 2 ^ (2 * k)) = Real.sqrt a * 2 ^ k := by
  rw [mul_comm 2 k, zpow_mul, zpow_ofNat, Real.sqrt_mul' _ (by positivity),
    Real.sqrt_sq (by positivity)]

/-- The root of a finite number never overflows. -/
theorem sqrt_fVal_lt {x : F64} (hx : fIsFinite x = true) :
    |Real.sqrt (fVal x)| < 2 ^ 1024 - 2 ^ 970 := by
  obtain ⟨s, m, e, hcx, hm, -, he⟩ := fClass_of_finite hx
  have hm' : (m : ℝ) ≤ 2 ^ 53 := by exact_mod_cast hm.le
  have hval : (fVal x : ℝ) ≤ (2 ^ 512) ^ 2 :=
    calc (fVal x : ℝ) = sgn s * (m * 2 ^ e) := fVal_of_fClass hcx
      _ ≤ 1 * (m * 2 ^ e) := by gcongr; exact (le_abs_self _).trans_eq (abs_sgn s)
      _ ≤ 1 * (2 ^ 53 * 2 ^ ((971 : Nat) : Int)) := by
          gcongr
          · exact one_le_two
          · exact he
      _ = (2 ^ 512) ^ 2 := by rw [one_mul, zpow_natCast, ← pow_add, ← pow_mul]
  rw [abs_of_nonneg (Real.sqrt_nonneg _), lt_sub_iff_add_lt]
  calc Real.sqrt (fVal x) + 2 ^ 970 ≤ 2 ^ 512 + 2 ^ 970 := by
        gcongr
        exact Real.sqrt_le_iff.2 ⟨by positivity, hval⟩
    _ ≤ 2 ^ 970 + 2 ^ 970 := by gcongr <;> norm_num
    _ = 2 ^ 971 := by rw [pow_succ 2 970, mul_two]
    _ < 2 ^ 1024 := pow_lt_pow_right₀ one_lt_two (by decide)

/-- A scaled radicand is long enough for the sticky bit and short enough for the root bits computed. -/
theorem radicand_bounds {m o : Nat} (hm : m ≠ 0) (hm53 : m < 2 ^ 53) (ho : o ≤ 1) :
    2 ^ 106 ≤ m * 2 ^ o * 2 ^ quotientBits ∧ m * 2 ^ o * 2 ^ quotientBits < 2 ^ 180 := by
  constructor
  · calc 2 ^ 106 ≤ 1 * 2 ^ quotientBits := by decide
      _ ≤ m * 2 ^ o * 2 ^ quotientBits :=
          Nat.mul_le_mul_right _ (Nat.mul_pos (Nat.pos_of_ne_zero hm) (by positivity))
  · calc m * 2 ^ o * 2 ^ quotientBits ≤ m * 2 ^ 1 * 2 ^ quotientBits := by gcongr; decide
      _ < 2 ^ 53 * 2 ^ 1 * 2 ^ quotientBits := by gcongr
      _ ≤ 2 ^ 180 := by decide

/-- The root of a positive number is taken of a long integer `a` at an even exponent. -/
theorem fsqrt_of_pos {x : F64} {m : Nat} {e : Int} (hcx : fClass x = .fin false m e) (hm : m ≠ 0)
    (hm53 : m < 2 ^ 53) :
    ∃ (a : Nat) (k : Int), 2 ^ 106 ≤ a ∧ (m : ℝ) * 2 ^ e = a * 2 ^ (2 * k) ∧ fsqrt x =
      roundPack false (withSticky (Nat.sqrt a) (decide (Nat.sqrt a * Nat.sqrt a = a))) (k - 1) := by
  obtain ⟨hlong, hshort⟩ := radicand_bounds hm hm53 (o := (e % 2).toNat) (by omega)
  refine ⟨_, (e - e % 2 - quotientBits) / 2, hlong, ?_, ?_⟩
  · push_cast
    rw [← zpow_natCast, ← zpow_natCast, mul_assoc, mul_assoc, ← zpow_add₀ two_ne_zero,
      ← zpow_add₀ two_ne_zero]
    congr 2
    simp only [quotientBits]
    omega
  · rw [← isqrtFrom_eq_sqrt hshort]
    simp [fsqrt, hcx, hm]

theorem nearestTo_fsqrt {x : F64} (hx : fIsFinite x = true) (hx0 : 0 ≤ fVal x) :
    nearestTo (fsqrt x) (Real.sqrt (fVal x)) := by
  obtain ⟨neg, m, e, hcx, hm53, -⟩ := fClass_of_finite hx
  have hval := fVal_of_fClass hcx
  rcases eq_or_ne m 0 with rfl | hm
  · have h0 : (fVal x : ℝ) = 0 := by simpa using hval
    simp only [fsqrt, hcx, if_true]
    exact nearestTo_of_fVal_eq hx (by rw [h0, Real.sqrt_zero])
  obtain rfl : neg = false := by
    by_contra hneg
    have hpos : (0 : ℝ) < m * 2 ^ e := by positivity
    have hge : (0 : ℝ) ≤ fVal x := by exact_mod_cast hx0
    rw [hval, eq_true_of_ne_false hneg, sgn_true] at hge
    linarith
  obtain ⟨a, k, hlong, hscaled, hroot⟩ := fsqrt_of_pos hcx hm hm53
  have hexact : Real.sqrt (fVal x) = sgn false * (2 * Real.sqrt a * 2 ^ (k - 1)) := by
    rw [hval, hscaled, sgn_false, one_mul, sqrt_mul_zpow_even, zpow_sub_one₀ two_ne_zero]
    ring
  have hbound := sqrt_fVal_lt hx
  rw [hexact] at hbound ⊢
  rw [hroot]
  exact ((standsFor_sqrt hlong).roundsTo_roundPack false (k - 1)).1 hbound

/-- Settles O40: every operation answers the rounding of its exact result (`RoundsTo`), and a root lies
below the overflow threshold. -/
theorem arithmeticRoundsToNearest : Obligations.ArithmeticRoundsToNearest := by
  refine ⟨fun x y r v hx hy hop => ?_, fun x hx hx0 => nearestTo_fsqrt hx hx0⟩
  have hround : RoundsTo r v := by
    rcases hop with ⟨rfl, rfl⟩ | ⟨rfl, rfl⟩ | ⟨rfl, rfl⟩ | ⟨rfl, hne, rfl⟩
    · simpa using roundsTo_fadd hx hy
    · simpa using roundsTo_fsub hx hy
    · simpa using roundsTo_fmul hx hy
    · simpa using roundsTo_fdiv hx hy hne
  obtain ⟨hnear, hover⟩ := hround
  exact ⟨fun h => hnear (by exact_mod_cast h), fun h => by exact_mod_cast hover (by exact_mod_cast h)⟩

end Sys2Proof.Machine
end

section
/-! PROOFS. The storage the block can hold: which offsets store a byte of an element (20_memory.md R72),
and that every storage operation keeps `Memory.Sound`, the storage's part of the invariant. -/

namespace Sys2Proof.Machine

/-! ### The map -/

/-- The buffer found at an offset is one whose window holds it. -/
theorem window_of_bufferAt {b : Buffer} {a : Nat} (h : bufferAt a = some b) :
    b.base ≤ a ∧ a < b.limit := by
  simpa using List.find?_some h

/-- The stored offsets are the bytes of the elements. -/
theorem storedOffset_iff {a : Nat} :
    storedOffset a = true ↔ ∃ (b : Buffer) (i k : Nat), i < b.count ∧ k < b.width ∧ a = b.addr i + k := by
  constructor
  · intro h
    unfold storedOffset at h
    split at h
    · next b hb =>
      obtain ⟨hlo, hhi⟩ := window_of_bufferAt hb
      have hdiv := Nat.div_add_mod (a - b.base) b.stride
      refine ⟨b, (a - b.base) / b.stride, (a - b.base) % b.stride, ?_, of_decide_eq_true h, ?_⟩
      · refine Nat.div_lt_of_lt_mul ?_
        simp only [Buffer.limit, Buffer.addr] at hhi
        omega
      · simp only [Buffer.addr]
        omega
    · exact absurd h Bool.false_ne_true
  · rintro ⟨b, i, k, hi, hk, rfl⟩
    have hnext := b.addr_succ i
    have hend := b.addr_mono (show i + 1 ≤ b.count from hi)
    have hws := b.width_le_stride
    have hb : bufferAt (b.addr i + k) = some b :=
      bufferAt_of_window ⟨by simp only [Buffer.addr]; omega, by simp only [Buffer.limit]; omega⟩
    have hmod : (b.addr i + k - b.base) % b.stride = k := by
      rw [Buffer.addr, Nat.add_assoc, Nat.add_sub_cancel_left, Nat.mul_add_mod,
        Nat.mod_eq_of_lt (by omega)]
    simp [storedOffset, hb, hmod, hk]

/-- A stored offset in the window of a buffer's first elements is a byte of one of them. -/
theorem elem_of_storedOffset {b : Buffer} {n a : Nat} (hn : n ≤ b.count) (h : storedOffset a = true)
    (hlo : b.base ≤ a) (hhi : a < b.addr n) : ∃ i k, i < n ∧ k < b.width ∧ a = b.addr i + k := by
  obtain ⟨c, i, k, hi, hk, rfl⟩ := storedOffset_iff.1 h
  obtain rfl : b = c := by
    by_contra hne
    have hnext := c.addr_succ i
    have hend := c.addr_mono (show i + 1 ≤ c.count from hi)
    have hws := c.width_le_stride
    have hbase : c.base ≤ c.addr i := Nat.le_add_right ..
    have hb := bufferAt_of_window (b := b) (a := c.addr i + k) ⟨hlo, hhi.trans_le (b.addr_mono hn)⟩
    have hc := bufferAt_of_window (b := c) (a := c.addr i + k)
      ⟨by omega, by simp only [Buffer.limit]; omega⟩
    exact hne (Option.some.inj (hb.symm.trans hc))
  refine ⟨i, k, ?_, hk, rfl⟩
  by_contra! hni
  have := b.addr_mono hni
  omega

/-- The first offset of a stored byte's bus word is stored too. -/
theorem storedOffset_busWord {a : Nat} (h : storedOffset a = true) :
    storedOffset (a - a % 4) = true := by
  obtain ⟨b, i, k, hi, hk, rfl⟩ := storedOffset_iff.1 h
  have haligned := b.addr_aligned i
  exact storedOffset_iff.2 ⟨b, i, k - k % 4, hi, by omega, by omega⟩

/-- An aligned offset whose slot is an element's is the offset of that element's bus word. -/
theorem addr_of_slotAt {a : Nat} {b : Buffer} {i half : Nat} (ha : a % 4 = 0)
    (h : slotAt a = .elem b i half) :
    i < b.count ∧ 4 * half < b.stride ∧ a = b.addr i + 4 * half := by
  have hslot : ∃ c, bufferAt a = some c ∧
      Slot.elem c ((a - c.base) / c.stride) ((a - c.base) % c.stride / 4) = .elem b i half := by
    unfold slotAt at h
    split_ifs at h
    split at h
    · next c hc => exact ⟨c, hc, h⟩
    · cases h
  obtain ⟨c, hc, heq⟩ := hslot
  obtain ⟨rfl, rfl, rfl⟩ := Slot.elem.inj heq
  obtain ⟨hlo, hhi⟩ := window_of_bufferAt hc
  cases c <;>
    simp only [Buffer.limit, Buffer.addr, Buffer.base, Buffer.count, Buffer.stride] at * <;> omega

/-! ### Sound storage -/

/-- What the invariant says of the storage: canonical, only bytes of elements, whole bus words. -/
structure Memory.Sound (m : Memory) : Prop where
  canonical : Memory.wf m
  stored : ∀ c ∈ m, storedOffset c.1 = true
  words : ∀ a, storedOffset a = true →
    (Memory.read m a).isSome = (Memory.read m (a - a % 4)).isSome

theorem Memory.Sound.nil : Memory.Sound [] where
  canonical := List.Pairwise.nil
  stored := by simp
  words := by simp

/-- Replacing a range keeps the storage sound when the range cuts no bus word and its new content is
either everything stored there or nothing. -/
theorem Memory.Sound.put {m new : Memory} {lo hi : Nat} (full : Bool) (h : m.Sound) (hle : lo ≤ hi)
    (hwf : Memory.wf new) (hnew : ∀ c ∈ new, lo ≤ c.1 ∧ c.1 < hi ∧ storedOffset c.1 = true)
    (hcut : ∀ a, storedOffset a = true →
      (lo ≤ a ∧ a < hi ↔ lo ≤ a - a % 4 ∧ a - a % 4 < hi))
    (hfull : ∀ a, storedOffset a = true → lo ≤ a → a < hi → (Memory.read new a).isSome = full) :
    (Memory.put lo hi new m).Sound where
  canonical := Memory.put_wf hle h.canonical hwf fun c hc => ⟨(hnew c hc).1, (hnew c hc).2.1⟩
  stored c hc := (Memory.mem_put hc).elim (h.stored c) fun hc => (hnew c hc).2.2
  words a ha := by
    have hread (x : Nat) := Memory.read_put m x fun c hc => ⟨(hnew c hc).1, (hnew c hc).2.1⟩
    rw [hread, hread]
    by_cases hin : lo ≤ a ∧ a < hi
    · have hin' := (hcut a ha).1 hin
      rw [if_pos hin, if_pos hin', hfull a ha hin.1 hin.2,
        hfull _ (storedOffset_busWord ha) hin'.1 hin'.2]
    · rw [if_neg hin, if_neg (mt (hcut a ha).2 hin), h.words a ha]

/-- A range of whole bus words cuts none. -/
theorem busWord_mem_range_iff {lo hi : Nat} (hlo : lo % 4 = 0) (hhi : hi % 4 = 0) (a : Nat) :
    lo ≤ a ∧ a < hi ↔ lo ≤ a - a % 4 ∧ a - a % 4 < hi := by
  omega

theorem Buffer.base_aligned (b : Buffer) : b.base % 4 = 0 := by cases b <;> rfl

/-- The cells of a buffer's first elements are stored offsets of its window. -/
theorem storedOffset_elemCells {b : Buffer} {i : Nat} {vs : List Nat} {c : Host.Cell}
    (hn : i + vs.length ≤ b.count) (h : c ∈ elemCells b i vs) : storedOffset c.1 = true := by
  induction vs generalizing i with
  | nil => simp [elemCells] at h
  | cons v vs ih =>
    rw [List.length_cons] at hn
    rw [elemCells, List.mem_append] at h
    rcases h with h | h
    · have hbounds := cellsFrom_bounds h
      rw [leBytes_length] at hbounds
      exact storedOffset_iff.2 ⟨b, i, c.1 - b.addr i, by omega, by omega, by omega⟩
    · exact ih (by omega) h

theorem Memory.Sound.writePrefix {m : Memory} (h : m.Sound) {b : Buffer} {vs : List Nat}
    (hn : vs.length ≤ b.count) : (Memory.writePrefix m b vs).Sound := by
  refine h.put true (Nat.le_add_right ..) (elemCells_wf ..) (fun c hc => ?_)
    (fun a _ => busWord_mem_range_iff b.base_aligned (b.addr_aligned _) a) fun a ha hlo hhi => ?_
  · have hbounds := elemCells_bounds hc
    rw [Nat.zero_add] at hbounds
    exact ⟨(Nat.le_add_right ..).trans hbounds.1, hbounds.2,
      storedOffset_elemCells (by omega) hc⟩
  · obtain ⟨i, k, hi, hk, rfl⟩ := elem_of_storedOffset hn ha hlo hhi
    have hread := read_elemCells (b := b) (i := 0) hi hk
    rw [Nat.zero_add] at hread
    rw [hread]
    simpa using hk

theorem Memory.Sound.forgetPrefix {m : Memory} (h : m.Sound) (b : Buffer) (n : Nat) :
    (Memory.forgetPrefix m b n).Sound :=
  h.put false (Nat.le_add_right ..) List.Pairwise.nil (by simp)
    (fun a _ => busWord_mem_range_iff b.base_aligned (b.addr_aligned _) a) fun _ _ _ _ => rfl

/-- The bytes that a bus word of a buffer stores. -/
theorem storedOffset_in_busWord {b : Buffer} {i half a : Nat} (hi : i < b.count)
    (hh : 4 * half < b.stride) :
    storedOffset a = true ∧ a - a % 4 = b.addr i + 4 * half ↔
      b.addr i + 4 * half ≤ a ∧ a < b.addr i + 4 * half + min b.width 4 := by
  have hal := b.addr_aligned i
  constructor
  · rintro ⟨ha, hword⟩
    have hbase : b.base ≤ b.addr i := Nat.le_add_right ..
    have hnext := b.addr_succ i
    have hstride : b.stride % 4 = 0 := by cases b <;> rfl
    obtain ⟨j, k, hj, hk, rfl⟩ := elem_of_storedOffset (n := i + 1) hi ha (by omega) (by omega)
    obtain rfl : i = j := by
      by_contra hne
      have := b.addr_mono (show j + 1 ≤ i by omega)
      have := b.addr_succ j
      have := b.width_le_stride
      omega
    omega
  · rintro ⟨hlo, hhi⟩
    refine ⟨storedOffset_iff.2 ⟨b, i, a - b.addr i, hi, ?_, by omega⟩, by omega⟩
    cases b <;> simp only [Buffer.width, Buffer.stride] at * <;> omega

theorem Memory.Sound.writeAt_busWord {m : Memory} (h : m.Sound) {b : Buffer} {i half : Nat}
    (hi : i < b.count) (hh : 4 * half < b.stride) (v : Word) :
    (Memory.writeAt m (b.addr i + 4 * half) (storedBytes b v)).Sound := by
  have hlen : (storedBytes b v).length = min b.width 4 := leBytes_length ..
  have hiff (a : Nat) := storedOffset_in_busWord (a := a) hi hh
  have hal := b.addr_aligned i
  refine h.put true (Nat.le_add_right ..) (cellsFrom_wf ..) (fun c hc => ?_) (fun a ha => ?_)
    fun a ha hlo hhi => ?_
  · have hbounds := cellsFrom_bounds hc
    rw [hlen] at hbounds ⊢
    exact ⟨hbounds.1, hbounds.2, ((hiff _).2 hbounds).1⟩
  · have hidem : (a - a % 4) - (a - a % 4) % 4 = a - a % 4 := by omega
    have h1 := hiff a
    have h2 := hiff (a - a % 4)
    rw [hidem] at h2
    rw [hlen, ← h1, ← h2, and_iff_right ha, and_iff_right (storedOffset_busWord ha)]
  · have hj : a - (b.addr i + 4 * half) < (storedBytes b v).length := by omega
    rw [read_cellsFrom, if_pos hlo]
    simpa using hj

end Sys2Proof.Machine
end

section
/-! PROOFS. How a command ends (44_control.md R223, R224): with an error and nothing else changed,
without error after writes of buffer prefixes and LEN, or at an unwritten operand; and which of the
three, by the operands it reads (70_reset_and_hazards.md R271). -/

namespace Sys2Proof.Machine

/-! ### What a command writes before it ends -/

/-- `u` is `s` after writes of prefixes within buffers and of LEN: the only writes of a command
(10_state.md R48). -/
inductive State.Writes (s : State) : State → Prop
  | none : s.Writes s
  | elems {u : State} (b : Buffer) (vs : List Nat) (h : s.Writes u) (hn : vs.length ≤ b.count) :
      s.Writes { u with mem := Memory.writePrefix u.mem b vs }
  | len {u : State} (n : Nat) (h : s.Writes u) : s.Writes (u.setLen n)

section
variable {s u : State} (h : s.Writes u)
include h

theorem State.Writes.setBytes {vs : List Byte} (hn : vs.length ≤ 423) : s.Writes (u.setBytes vs) :=
  h.elems .bytes (vs.map BitVec.toNat) (by simpa [Buffer.count] using hn)

theorem State.Writes.setWords {vs : List Word} (hn : vs.length ≤ 141) : s.Writes (u.setWords vs) :=
  h.elems .words (vs.map BitVec.toNat) (by simpa [Buffer.count] using hn)

theorem State.Writes.setF64s {b : Buffer} {vs : List F64} (hn : vs.length ≤ b.count) :
    s.Writes (u.setF64s b vs) :=
  h.elems b (vs.map BitVec.toNat) (by simpa using hn)

/-- The writes of a command reach the storage and LEN alone. -/
theorem State.Writes.eq_with : u = { s with mem := u.mem, len := u.len } := by
  induction h with
  | none => rfl
  | elems b vs _ _ ih => rw [ih]
  | len n _ ih => rw [ih]; rfl

theorem State.Writes.sound (hs : Memory.Sound s.mem) : Memory.Sound u.mem := by
  induction h with
  | none => exact hs
  | elems b vs _ hn ih => exact ih.writePrefix hn
  | len n _ ih => exact ih

/-- All six buffers of a record are written within their counts (42_transcoder.md R191). -/
theorem State.Writes.setModel (kind : ModelKind) {ws : List Word} (hl : ws.length = 141) :
    s.Writes (u.setModel kind ws) := by
  have htaps : ((scaleRecord ws).take tapCount).length = 128 := by simp [hl, tapCount]
  have hparams : ((scaleRecord ws).drop tapCount).length = 13 := by simp [hl, tapCount]
  refine State.Writes.setF64s (.setF64s (.setF64s (.setF64s (.setF64s (h.setWords hl.le) ?_) ?_) ?_)
    ?_) ?_
  · exact htaps.le
  · exact hparams.le
  · rw [modelSpectrum_length]; exact htaps.le
  · rw [modelMagnitudes_length]; exact le_rfl
  · rw [frequencyAxis_length]; exact le_rfl

end

/-! ### How a command ends -/

/-- How a command that started in `s` ends; the Boolean says whether its operands are written. -/
inductive Ends (s : State) : Bool → Result → Prop
  | error (e : ErrorCode) : Ends s true (finishErr e s)
  | done {u : State} (h : s.Writes u) : Ends s true (finishOk u)
  | unwritten {b : Buffer} {k : Nat} (hk : k < b.count) (hu : s.written b k = false) :
      Ends s false (.fault (.unwritten b k))

theorem Ends.completes {s : State} {r : Result} (h : Ends s true r) : ∃ t, r = .next t := by
  cases h with
  | error e => exact ⟨_, rfl⟩
  | done _ => exact ⟨_, rfl⟩

theorem Ends.faults {s : State} {r : Result} (h : Ends s false r) :
    ∃ b k, r = .fault (.unwritten b k) ∧ k < b.count ∧ s.written b k = false := by
  cases h with
  | unwritten hk hu => exact ⟨_, _, rfl, hk, hu⟩

/-- The next state of a command: an error alone, or its writes and a completion. -/
theorem Ends.next_cases {s t : State} {ok : Bool} (h : Ends s ok (.next t)) :
    (∃ e, t = s.completeErr e) ∨ ∃ u, s.Writes u ∧ t = u.completeOk := by
  generalize hr : (Host.Outcome.next t : Result) = r at h
  cases h with
  | error e => exact .inl ⟨e, finishErr_eq hr.symm⟩
  | done hu => exact .inr ⟨_, hu, finishOk_eq hr.symm⟩
  | unwritten => cases hr

/-- A failing check ends the command before any operand is read (60_exceptions.md R246). -/
theorem Ends.checked {s : State} {c : Option ErrorCode} {ok : Bool} {run : Result}
    (h : c = none → Ends s ok run) : Ends s (c.isSome || ok) (checked c s run) := by
  cases c with
  | some e => exact .error e
  | none => exact h rfl

theorem State.allWritten_iff {s : State} {b : Buffer} {n : Nat} :
    s.allWritten b n = true ↔ ∀ i < n, s.written b i = true := by
  simp [State.allWritten]

/-- A command goes on with its operands when they are all written, and stops at an unwritten one. -/
theorem Ends.withElems {s : State} {b : Buffer} {n w : Nat} {ok : Bool}
    {k : List (BitVec w) → Result} (hn : n ≤ b.count)
    (h : ∀ vs : List (BitVec w), vs.length = n → Ends s ok (k vs)) :
    Ends s (s.allWritten b n && ok) (s.withElems b n fun vs => k (vs.map (BitVec.ofNat w))) := by
  rcases s.withElems_cases b n fun vs => k (vs.map (BitVec.ofNat w)) with
    ⟨vs, hl, hread, heq⟩ | ⟨i, hi, hu, heq⟩
  · have hall : s.allWritten b n = true := State.allWritten_iff.2 fun i hi => by
      simp [State.written, hread i (by omega)]
    rw [heq, hall]
    exact h _ (by simpa using hl)
  · have hall : s.allWritten b n = false := by
      rw [Bool.eq_false_iff, Ne, State.allWritten_iff]
      exact fun hall => by simp [hall i hi] at hu
    rw [heq, hall]
    exact .unwritten (by omega) hu

section
variable {s : State} {n : Nat} {ok : Bool}

theorem Ends.withBytes {k : List Byte → Result} (hn : n ≤ 423)
    (h : ∀ bs : List Byte, bs.length = n → Ends s ok (k bs)) :
    Ends s (s.allWritten .bytes n && ok) (s.withBytes n k) :=
  .withElems hn h

theorem Ends.withWords {k : List Word → Result} (hn : n ≤ 141)
    (h : ∀ ws : List Word, ws.length = n → Ends s ok (k ws)) :
    Ends s (s.allWritten .words n && ok) (s.withWords n k) :=
  .withElems hn h

theorem Ends.withF64s {b : Buffer} {k : List F64 → Result} (hn : n ≤ b.count)
    (h : ∀ ds : List F64, ds.length = n → Ends s ok (k ds)) :
    Ends s (s.allWritten b n && ok) (s.withF64s b n k) :=
  .withElems hn h

end

/-! ### The checks -/

theorem checkCount_isSome (n cap : Nat) : (checkCount n cap).isSome = decide (cap < n) := by
  unfold checkCount
  split <;> simp_all

theorem checkLength_isSome (m : BitVec 8) : (checkLength m).isSome = !legalLog2 m := by
  unfold checkLength legalLog2
  split <;> grind

theorem checkStream_isSome (n : Nat) :
    (checkStream n).isSome = (decide (423 < n) || decide (n % 3 ≠ 0)) := by
  unfold checkStream recordBytes
  split_ifs <;> simp_all

theorem checkRecord_isSome (n : Nat) : (checkRecord n).isSome = decide (n ≠ 423) := by
  unfold checkRecord recordBytes
  split <;> simp_all

theorem le_of_checkCount {n cap : Nat} (h : checkCount n cap = none) : n ≤ cap := by
  simpa [h] using checkCount_isSome n cap

theorem argLength_le_of_checkLength {m : BitVec 8} (h : checkLength m = none) :
    argLength m ≤ 128 := by
  have hm : m.toNat ≤ 7 := by
    unfold checkLength at h
    split at h
    · cases h
    · omega
  exact Nat.pow_le_pow_right two_pos hm

theorem le_of_checkStream {n : Nat} (h : checkStream n = none) : n ≤ 423 ∧ n % 3 = 0 := by
  have := checkStream_isSome n
  simp_all

/-! ### The commands -/

section
variable (s : State)

theorem ends_enc24 (c : BitVec 8) : Ends s (s.operandsWritten (.enc24 c)) (execEnc24 c s) := by
  have h : Ends s ((checkCount (argCount c) recordWords).isSome ||
      (s.allWritten .words (argCount c) && true)) (execEnc24 c s) :=
    .checked fun hc => .withWords (le_of_checkCount hc) fun vs hl =>
      .done <| .len _ <| State.Writes.none.setBytes <| by
        have := le_of_checkCount hc
        simp only [recordWords] at this
        rw [encode24_length]
        omega
  simpa [checkCount_isSome, State.operandsWritten, argCount, recordWords] using h

theorem ends_dec24 : Ends s (s.operandsWritten .dec24) (execDec24 s) := by
  have h : Ends s ((checkStream s.lenBytes).isSome || (s.allWritten .bytes s.lenBytes && true))
      (execDec24 s) := by
    refine .checked fun hc => ?_
    obtain ⟨hcap, hmod⟩ := le_of_checkStream hc
    refine .withBytes hcap fun bs hl => ?_
    obtain ⟨vs, hvs, hvl, -⟩ := (decode24_spec bs).1 (hl ▸ hmod)
    rw [hvs]
    exact .done (State.Writes.none.setWords (by omega))
  simpa [checkStream_isSome, State.operandsWritten, State.lenBytes] using h

/-- FFT and both untangles: a length in [4, 128], DATA read, one buffer written. -/
theorem ends_transform (m : BitVec 8) {b : Buffer} {f : List F64 → List F64}
    (hf : ∀ d, d.length = argLength m → argLength m ≤ 128 → (f d).length ≤ b.count) :
    Ends s (!legalLog2 m || s.allWritten .data (2 ^ m.toNat))
      (checked (checkLength m) s <| s.withF64s .data (argLength m) fun d =>
        finishOk (s.setF64s b (f d))) := by
  have h : Ends s ((checkLength m).isSome || (s.allWritten .data (argLength m) && true))
      (checked (checkLength m) s <| s.withF64s .data (argLength m) fun d =>
        finishOk (s.setF64s b (f d))) :=
    .checked fun hc =>
      have hcap := argLength_le_of_checkLength hc
      .withF64s hcap fun d hl => .done (State.Writes.none.setF64s (hf d hl hcap))
  simpa [checkLength_isSome, argLength] using h

theorem ends_fft (m : BitVec 8) : Ends s (s.operandsWritten (.fft m)) (execFft m s) :=
  ends_transform s m fun d hl hcap => by
    rw [rfft_length, hl]
    exact hcap

theorem ends_untangle (m : BitVec 8) :
    Ends s (s.operandsWritten (.untangle m)) (execUntangle m s) :=
  ends_transform s m fun d _ hcap => by
    rw [untangle_length, Buffer.count]
    omega

theorem ends_untangleLeak (m : BitVec 8) :
    Ends s (s.operandsWritten (.untangleLeak m)) (execUntangleLeak m s) :=
  ends_transform s m fun d _ hcap => by
    rw [untangleLeakage_length, Buffer.count]
    omega

theorem ends_leakf (h : BitVec 8) : Ends s (s.operandsWritten (.leakf h)) (execLeakf h s) := by
  have hends : Ends s ((checkCount (argCount h) magCount).isSome || true) (execLeakf h s) :=
    .checked fun hc => .done <| State.Writes.none.setF64s <| by
      rw [leakageFilter_length]
      exact le_of_checkCount hc
  simpa [State.operandsWritten] using hends

theorem ends_decodeBody (kind : ModelKind) :
    Ends s (decide (s.len.toNat ≠ 423) || s.allWritten .bytes 423) (decodeBody kind s) := by
  have h : Ends s ((checkRecord s.lenBytes).isSome || (s.allWritten .bytes recordBytes && true))
      (decodeBody kind s) := by
    refine .checked fun _ => .withBytes le_rfl fun bs hl => ?_
    simp only [recordBytes] at hl
    obtain ⟨ws, hws, hwl, -⟩ := (decode24_spec bs).1 (by rw [hl])
    rw [hws]
    exact .done (State.Writes.none.setModel kind (by omega))
  simpa [checkRecord_isSome, State.lenBytes, recordBytes] using h

theorem ends_encodeModel : Ends s (s.operandsWritten .encodeModel) (execEncodeModel s) := by
  refine .withF64s le_rfl fun taps ht => ?_
  rw [← Bool.and_true (s.allWritten .param 13)]
  refine .withF64s le_rfl fun params hp => ?_
  rw [← Bool.or_true (checkNaN (taps ++ params)).isSome]
  refine .checked fun _ => ?_
  have hl : (modelWords (taps ++ params)).length = 141 := by
    simp [ht, hp]
  exact .done <| .len _ <| (State.Writes.none.setWords hl.le).setBytes <| by
    rw [encode24_length, hl]

end

/-- Every command ends, and its operands decide whether at a next state or at a fault. -/
theorem exec_ends (i : Instr) (s : State) : Ends s (s.operandsWritten i) (exec i s) := by
  cases i with
  | nop => exact .done .none
  | enc24 c => exact ends_enc24 s c
  | dec24 => exact ends_dec24 s
  | fft m => exact ends_fft s m
  | leakf h => exact ends_leakf s h
  | untangle m => exact ends_untangle s m
  | untangleLeak m => exact ends_untangleLeak s m
  | decodeModelImp => exact ends_decodeBody s .impedance
  | decodeModelExc => exact ends_decodeBody s .excursion
  | encodeModel => exact ends_encodeModel s

/-- Settles O13: `exec_ends`, and what each end answers. -/
theorem completesIffOperandsWritten : Obligations.CompletesIffOperandsWritten := by
  intro i s
  have hends := exec_ends i s
  constructor
  · intro hok
    rw [hok] at hends
    exact hends.completes
  · intro hok
    rw [hok] at hends
    exact hends.faults

end Sys2Proof.Machine
end

section
/-! PROOFS. The invariant (10_state.md R47, 60_exceptions.md R240): each update of a step keeps its two
parts, the storage's and the flags', and a step stops only at an unwritten element; soft reset and the
interrupt line (10_state.md R50, R51). -/

namespace Sys2Proof.Machine

/-! ### The flags' part of the invariant -/

/-- What the invariant says of SEQ and STATUS. -/
structure State.FlagsLegal (s : State) : Prop where
  errcode : s.errcode.toNat ≤ 5
  busy : s.seq = .busy → s.done = false ∧ s.err = false ∧ s.errcode = 0#4
  coded : s.err = true → s.errcode ≠ 0#4

theorem State.inv_iff {s : State} : s.Inv ↔ Memory.Sound s.mem ∧ s.FlagsLegal :=
  ⟨fun h => ⟨⟨h.memory_wf, h.memory_stored, h.memory_words⟩,
      ⟨h.errcode_legal, h.busy_clear, h.err_coded⟩⟩,
    fun ⟨hm, hf⟩ =>
      ⟨hm.canonical, hm.stored, hm.words, hf.errcode, hf.busy, hf.coded⟩⟩

theorem State.flagsLegal_completeOk (s : State) : s.completeOk.FlagsLegal where
  errcode := by simp
  busy := by simp
  coded := by simp

/-- Every error has a code from 1 to 5 (60_exceptions.md R240). -/
theorem ErrorCode.code_legal (e : ErrorCode) : e.code.toNat ≤ 5 ∧ e.code ≠ 0#4 := by
  cases e <;> decide

theorem State.flagsLegal_completeErr (s : State) (e : ErrorCode) : (s.completeErr e).FlagsLegal where
  errcode := e.code_legal.1
  busy := by simp
  coded _ := e.code_legal.2

theorem State.flagsLegal_accept (s : State) (w : Word) : (s.accept w).FlagsLegal where
  errcode := by simp
  busy := by simp
  coded := by simp

theorem State.flagsLegal_resetRegisters (s : State) : s.resetRegisters.FlagsLegal where
  errcode := by simp
  busy := by simp
  coded := by simp

theorem State.FlagsLegal.clearFlags {s : State} (h : s.FlagsLegal) (v : Word) :
    (s.clearFlags v).FlagsLegal where
  errcode := h.errcode
  busy hb := by
    obtain ⟨hdone, herr, hcode⟩ := h.busy hb
    simp [hdone, herr, hcode]
  coded herr := h.coded (by simp_all)

/-- A CMD write is accepted, or sets OVR alone (44_control.md R221, R222). -/
theorem State.FlagsLegal.submit {s : State} (h : s.FlagsLegal) (w : Word) :
    (s.submit w).FlagsLegal := by
  unfold State.submit
  split
  · exact s.flagsLegal_accept w
  · exact ⟨h.errcode, h.busy, h.coded⟩

/-! ### Soft reset -/

@[simp] theorem State.softReset_mem (s : State) : s.softReset.mem = s.cancelCommand.mem := rfl

theorem State.resetRegisters_status (s : State) : s.resetRegisters.status = 0#32 := by
  simp [State.status, State.busy, flagBit]

theorem State.cancelCommand_of_idle {s : State} (h : s.seq = .idle) : s.cancelCommand = s := by
  unfold State.cancelCommand
  rw [h]

theorem State.sound_forgetUnless {s : State} (h : Memory.Sound s.mem) (c : Option ErrorCode)
    (b : Buffer) (n : Nat) : Memory.Sound (s.forgetUnless c b n).mem := by
  cases c with
  | some _ => exact h
  | none => exact h.forgetPrefix b n

theorem State.sound_forgetModel {s : State} (h : Memory.Sound s.mem) :
    Memory.Sound (State.cancel.forgetModel s).mem := by
  unfold State.cancel.forgetModel
  split
  · exact h
  · exact (((((h.forgetPrefix _ _).forgetPrefix _ _).forgetPrefix _ _).forgetPrefix _ _).forgetPrefix
      _ _).forgetPrefix _ _

/-- Cancelling a command forgets prefixes of buffers (70_reset_and_hazards.md R272). -/
theorem State.sound_cancel {s : State} (h : Memory.Sound s.mem) (i : Instr) :
    Memory.Sound (s.cancel i).mem := by
  cases i with
  | nop => exact h
  | decodeModelImp => exact sound_forgetModel h
  | decodeModelExc => exact sound_forgetModel h
  | encodeModel =>
    simp only [State.cancel]
    split
    · exact h
    · exact (h.forgetPrefix _ _).forgetPrefix _ _
  | enc24 _ | dec24 | fft _ | leakf _ | untangle _ | untangleLeak _ => exact sound_forgetUnless h ..

theorem State.sound_cancelCommand {s : State} (h : Memory.Sound s.mem) :
    Memory.Sound s.cancelCommand.mem := by
  unfold State.cancelCommand
  split
  · exact sound_cancel h _
  · exact h

theorem State.inv_softReset {s : State} (h : Memory.Sound s.mem) : s.softReset.Inv :=
  State.inv_iff.2 ⟨sound_cancelCommand h, s.cancelCommand.flagsLegal_resetRegisters⟩

/-! ### Host accesses -/

/-- A write to a slot of the map keeps the invariant. -/
theorem State.Inv.writeSlot {s : State} (h : s.Inv) (v : Word) {a : Nat} (ha : a % 4 = 0) :
    (s.writeSlot v (slotAt a)).Inv := by
  obtain ⟨hm, hf⟩ := State.inv_iff.1 h
  cases hslot : slotAt a with
  | id | reserved => exact h
  | cmd =>
    refine State.inv_iff.2 ⟨?_, hf.submit v⟩
    simp only [State.writeSlot, State.submit]
    split <;> exact hm
  | status => exact State.inv_iff.2 ⟨hm, hf.clearFlags v⟩
  | len | leakageLo | leakageHi => exact State.inv_iff.2 ⟨hm, hf.errcode, hf.busy, hf.coded⟩
  | ctrl =>
    simp only [State.writeSlot, State.writeCtrl]
    split
    · exact State.inv_softReset hm
    · exact State.inv_iff.2 ⟨hm, hf.errcode, hf.busy, hf.coded⟩
  | elem b i half =>
    obtain ⟨hi, hh, -⟩ := addr_of_slotAt ha hslot
    exact State.inv_iff.2 ⟨hm.writeAt_busWord hi hh v, hf.errcode, hf.busy, hf.coded⟩

theorem State.Inv.reply {s : State} (h : s.Inv) (a : BusAnswer) : (s.reply a).Inv :=
  ⟨h.memory_wf, h.memory_stored, h.memory_words, h.errcode_legal, h.busy_clear, h.err_coded⟩

theorem State.Inv.popTurn {s : State} (h : s.Inv) : s.popTurn.Inv :=
  ⟨h.memory_wf, h.memory_stored, h.memory_words, h.errcode_legal, h.busy_clear, h.err_coded⟩

theorem aligned_of_served {op : BusOp} (h : op.served = true) : op.offset.toNat % 4 = 0 := by
  simp only [BusOp.served, Bool.and_eq_true, decide_eq_true_eq] at h
  exact h.2

theorem hostAccess_keeps_inv {op : BusOp} {s t : State} (h : s.Inv)
    (ht : hostAccess op s = .next t) : t.Inv := by
  rcases hostAccess_cases op s with ⟨-, heq⟩ | ⟨w, off, v, -, -, -, heq⟩ |
    ⟨w, off, b, i, -, -, -, -, heq⟩ | ⟨w, off, v, rfl, hserved, heq⟩ <;> rw [heq] at ht <;> cases ht
  · exact h.reply _
  · exact h.reply _
  · exact (h.writeSlot v (aligned_of_served hserved)).reply _

/-- Only the slot of an element refuses a read. -/
theorem State.slot_of_readSlot_error {s : State} {slot : Slot} {b : Buffer} {k : Nat}
    (h : s.readSlot slot = .error (.unwritten b k)) : ∃ half, slot = .elem b k half := by
  cases slot with
  | elem c j half =>
    simp only [State.readSlot] at h
    split at h <;> cases h
    exact ⟨half, rfl⟩
  | id | cmd | status | len | leakageLo | leakageHi | ctrl | reserved => cases h

/-- The result is a next state, or a fault at an element that exists and is unwritten in `s`. -/
def NextOrUnwritten (s : State) (r : Result) : Prop :=
  (∃ t, r = .next t) ∨
    ∃ b k, r = .fault (.unwritten b k) ∧ k < b.count ∧ s.written b k = false

theorem hostAccess_nextOrUnwritten (op : BusOp) (s : State) :
    NextOrUnwritten s (hostAccess op s) := by
  rcases hostAccess_cases op s with ⟨-, heq⟩ | ⟨w, off, v, -, -, -, heq⟩ |
    ⟨w, off, b, i, rfl, hserved, hread, hu, heq⟩ | ⟨w, off, v, -, -, heq⟩
  · exact .inl ⟨_, heq⟩
  · exact .inl ⟨_, heq⟩
  · obtain ⟨half, hslot⟩ := State.slot_of_readSlot_error hread
    obtain ⟨hi, -⟩ := addr_of_slotAt (aligned_of_served hserved) hslot
    exact .inr ⟨b, i, heq, hi, hu⟩
  · exact .inl ⟨_, heq⟩

/-! ### The sequencer's turn -/

theorem sequencerTurn_keeps_inv {s t : State} (h : s.Inv) (ht : sequencerTurn s = .next t) :
    t.Inv := by
  obtain ⟨hm, -⟩ := State.inv_iff.1 h
  rcases sequencerTurn_cases s with ⟨-, heq⟩ | ⟨i, -, -, heq⟩ | ⟨e, -, -, heq⟩ <;> rw [heq] at ht
  · cases ht
    exact h
  · rcases Ends.next_cases (ht ▸ exec_ends i s) with ⟨e, rfl⟩ | ⟨u, hu, rfl⟩
    · exact State.inv_iff.2 ⟨hm, s.flagsLegal_completeErr e⟩
    · exact State.inv_iff.2 ⟨hu.sound hm, u.flagsLegal_completeOk⟩
  · cases ht
    exact State.inv_iff.2 ⟨hm, s.flagsLegal_completeErr _⟩

theorem Ends.nextOrUnwritten {s : State} {ok : Bool} {r : Result} (h : Ends s ok r) :
    NextOrUnwritten s r := by
  cases ok with
  | true => exact .inl h.completes
  | false => exact .inr h.faults

theorem sequencerTurn_nextOrUnwritten (s : State) : NextOrUnwritten s (sequencerTurn s) := by
  rcases sequencerTurn_cases s with ⟨-, heq⟩ | ⟨i, -, -, heq⟩ | ⟨e, -, -, heq⟩ <;> rw [heq]
  · exact .inl ⟨_, rfl⟩
  · exact (exec_ends i s).nextOrUnwritten
  · exact .inl ⟨_, rfl⟩

/-- The turn of a busy block raises DONE and leaves CTRL.IE (60_exceptions.md R241, R242). -/
theorem done_of_sequencerTurn {s t : State} (hb : s.seq = .busy) (ht : sequencerTurn s = .next t) :
    t.done = true ∧ t.ie = s.ie := by
  rcases sequencerTurn_cases s with ⟨hidle, -⟩ | ⟨i, -, -, heq⟩ | ⟨e, -, -, heq⟩
  · rw [hb] at hidle
    cases hidle
  · rw [heq] at ht
    rcases Ends.next_cases (ht ▸ exec_ends i s) with ⟨e, rfl⟩ | ⟨u, hu, rfl⟩
    · exact ⟨rfl, rfl⟩
    · exact ⟨rfl, by rw [hu.eq_with]; rfl⟩
  · rw [heq] at ht
    cases ht
    exact ⟨rfl, rfl⟩

/-! ### The statements -/

/-- Settles O45: by the cases of a step, each update keeps both parts of the invariant. -/
theorem everyStepKeepsInvariant : Obligations.EveryStepKeepsInvariant := by
  intro s t h ht
  rcases step_cases s with ⟨-, heq⟩ | ⟨rest, -, heq⟩ | ⟨op, rest, -, -, heq⟩ | ⟨op, rest, -, -, heq⟩ <;>
    rw [heq] at ht
  · exact sequencerTurn_keeps_inv h ht
  · exact sequencerTurn_keeps_inv h.popTurn ht
  · exact sequencerTurn_keeps_inv h ht
  · exact hostAccess_keeps_inv h.popTurn ht

/-- Settles O47: a step is the sequencer's turn or a host access, and neither stops elsewhere. -/
theorem stopsOnlyAtUnwrittenElements : Obligations.StopsOnlyAtUnwrittenElements := by
  intro s
  have hstops : NextOrUnwritten s (step s) := by
    rcases step_cases s with
      ⟨-, heq⟩ | ⟨rest, -, heq⟩ | ⟨op, rest, -, -, heq⟩ | ⟨op, rest, -, -, heq⟩ <;> rw [heq]
    · exact sequencerTurn_nextOrUnwritten s
    · exact sequencerTurn_nextOrUnwritten s.popTurn
    · exact sequencerTurn_nextOrUnwritten s
    · exact hostAccess_nextOrUnwritten op s.popTurn
  rcases hstops with ⟨t, heq⟩ | ⟨b, k, heq, hk, hu⟩ <;> rw [heq]
  · exact ⟨fun _ => nofun, fun _ => nofun⟩
  · exact ⟨fun _ => nofun, fun f hf => ⟨b, k, (Host.Outcome.fault.inj hf).symm, hk, hu⟩⟩

/-- Settles O59: a served read of an element's bus word reads the whole element. -/
theorem unwrittenReadFaults : Obligations.UnwrittenReadFaults := by
  intro s b i half off hi hh hoff hu
  have hnone : Memory.readElem s.mem b i = none := by simpa [State.written] using hu
  rw [hostAccess_read_elem hi hh hoff, hnone]

/-- Settles O43: `resetRegisters` overwrites every register, and an idle block has nothing to cancel. -/
theorem softResetLeaves : Obligations.SoftResetLeaves := by
  intro s
  refine ⟨⟨rfl, rfl, s.cancelCommand.resetRegisters_status, rfl, rfl, rfl, rfl⟩, fun hidle => ?_⟩
  rw [State.softReset_mem, State.cancelCommand_of_idle hidle]

/-- Settles O46: the storage is empty and no flag is set. -/
theorem resetMeetsInvariant : Obligations.ResetMeetsInvariant :=
  State.inv_iff.2 ⟨.nil, State.reset.flagsLegal_resetRegisters⟩

/-- Settles O60: a completion step is the turn of a busy block. -/
theorem irqFollowsDoneAndEnable : Obligations.IrqFollowsDoneAndEnable := by
  intro s t
  refine ⟨rfl, fun hb hc ht => ?_, fun w => ?_, fun v hv => ?_, rfl⟩
  · rw [step_of_completionNext hc] at ht
    obtain ⟨hdone, hie⟩ := done_of_sequencerTurn (s := { s with agenda := s.agendaAfter }) hb ht
    rw [State.irq, hdone, hie, Bool.and_true]
  · simp [State.irq]
  · simp [State.irq, hv]

end Sys2Proof.Machine
end

section
/-! PROOFS. When a host access is performed (20_memory.md R71, R80 to R83): at once, or after the command
in progress; what it leaves unchanged; the reserved offsets (R74). -/

namespace Sys2Proof.Machine

/-! ### Served and held accesses -/

theorem BusOp.served_iff {op : BusOp} :
    op.served = true ↔ op.accessWidth = .w32 ∧ op.offset.toNat % 4 = 0 := by
  simp [BusOp.served]

theorem heldOffset_iff {a : Nat} :
    heldOffset a = true ↔ a = 0x00C ∨ a = 0x010 ∨ a = 0x014 ∨ 0x0400 ≤ a := by
  simp [heldOffset, or_assoc]

theorem State.holds_iff {s : State} {op : BusOp} :
    s.holds op = true ↔ s.seq = .busy ∧ op.served = true ∧ heldOffset op.offset.toNat = true := by
  simp [State.holds, State.busy, and_assoc]

theorem State.holds_of_idle {s : State} (hidle : s.seq = .idle) (op : BusOp) :
    s.holds op = false := by
  simp [State.holds, State.busy, hidle]

theorem State.holds_of_not_served {op : BusOp} (h : op.served = false) (s : State) :
    s.holds op = false := by
  simp [State.holds, h]

section
variable {s : State} {op : BusOp} {rest : List Turn} (ha : s.agenda = .host op :: rest)
include ha

theorem step_of_held (h : s.holds op = true) : step s = sequencerTurn s := by
  simp [step, ha, h]

theorem step_of_not_held (h : s.holds op = false) : step s = hostAccess op s.popTurn := by
  simp [step, ha, h]

end

theorem hostAccess_of_not_served {op : BusOp} (h : op.served = false) (s : State) :
    hostAccess op s = .next (s.reply .busError) := by
  simp [hostAccess, h]

/-! ### The turn of a busy block -/

/-- The turn of a busy block ends its command; an illegal word ends with E_ILLEGAL (30_encoding.md
R112). -/
theorem ends_sequencerTurn {s : State} (hb : s.seq = .busy) : ∃ ok, Ends s ok (sequencerTurn s) := by
  rcases sequencerTurn_cases s with ⟨hidle, -⟩ | ⟨i, -, -, heq⟩ | ⟨e, -, -, heq⟩
  · cases hb.symm.trans hidle
  · exact ⟨_, heq ▸ exec_ends i s⟩
  · rw [heq]
    exact ⟨true, .error .illegal⟩

/-- A completion raises DONE and leaves the agenda and the bus's answer (60_exceptions.md R241, R242). -/
theorem completion_of_sequencerTurn {s t : State} (hb : s.seq = .busy)
    (ht : sequencerTurn s = .next t) :
    t.seq = .idle ∧ t.done = true ∧ t.agenda = s.agenda ∧ t.answer = s.answer := by
  obtain ⟨ok, hends⟩ := ends_sequencerTurn hb
  rcases (ht ▸ hends).next_cases with ⟨e, rfl⟩ | ⟨u, hu, rfl⟩
  · exact ⟨rfl, rfl, rfl, rfl⟩
  · rw [hu.eq_with]
    exact ⟨rfl, rfl, rfl, rfl⟩

/-- Settles O48: a held access lets the sequencer's turn go first, which leaves an idle block with the
access still next on its agenda. -/
theorem hostAccessIsPerformedOrWaits : Obligations.HostAccessIsPerformedOrWaits := by
  intro s op rest ha
  refine ⟨fun hidle => step_of_not_held ha (State.holds_of_idle hidle op), fun hb hw hal => ?_⟩
  refine ⟨fun hheld t ht => ?_, fun h1 h2 h3 h4 => ?_⟩
  · have hholds : s.holds op = true :=
      State.holds_iff.2 ⟨hb, BusOp.served_iff.2 ⟨hw, hal⟩, heldOffset_iff.2 hheld⟩
    rw [step_of_held ha hholds] at ht
    obtain ⟨hidle, hdone, hagenda, hanswer⟩ := completion_of_sequencerTurn hb ht
    exact ⟨hidle, hdone, hagenda, hanswer,
      step_of_not_held (hagenda.trans ha) (State.holds_of_idle hidle op)⟩
  · have hfree : ¬ heldOffset op.offset.toNat = true := by
      rw [heldOffset_iff]
      omega
    exact step_of_not_held ha <| Bool.eq_false_iff.2 fun h => hfree (State.holds_iff.1 h).2.2

/-- Settles O50: an access that is not served is never held, and a bus error is its only effect. -/
theorem busErrorsChangeNothing : Obligations.BusErrorsChangeNothing := by
  intro s op rest ha hbad
  have hserved : op.served = false := by
    rw [Bool.eq_false_iff, Ne, BusOp.served_iff, not_and_or]
    exact hbad
  rw [step_of_not_held ha (State.holds_of_not_served hserved s), hostAccess_of_not_served hserved,
    State.popTurn, ha]
  rfl

/-- Settles O49: a read is answered with a bus error or with the slot's value, and stores nothing. -/
theorem readsHaveNoSideEffects : Obligations.ReadsHaveNoSideEffects := by
  intro s t w off ht
  rcases hostAccess_cases (.read w off) s with ⟨-, heq⟩ | ⟨_, _, v, -, -, -, heq⟩ |
    ⟨_, _, b, i, -, -, -, -, heq⟩ | ⟨_, _, v, hop, -⟩
  · cases heq.symm.trans ht
    rfl
  · cases heq.symm.trans ht
    rfl
  · cases heq.symm.trans ht
  · cases hop

/-! ### Operands and results of a running command -/

/-- The command word, the operand registers and the buffers are the same (20_memory.md R83, R86). -/
def State.SameOperands (s t : State) : Prop :=
  t.cmdl = s.cmdl ∧ t.len = s.len ∧ t.leakage = s.leakage ∧ t.mem = s.mem

/-- The slots that hold a command's operands or results. -/
def Slot.isOperand : Slot → Bool
  | .len | .leakageLo | .leakageHi | .elem _ _ _ => true
  | .id | .cmd | .status | .ctrl | .reserved => false

theorem Buffer.le_base (b : Buffer) : 0x0400 ≤ b.base := by cases b <;> decide

/-- Every operand's offset is held (20_memory.md R81). -/
theorem heldOffset_of_isOperand {a : Nat} (h : (slotAt a).isOperand = true) : heldOffset a = true := by
  rw [heldOffset_iff]
  by_contra hfree
  obtain ⟨hlen, hlo, hhi, hlow⟩ : a ≠ 0x00C ∧ a ≠ 0x010 ∧ a ≠ 0x014 ∧ a < 0x0400 := by omega
  have hnone : bufferAt a = none := by
    cases hb : bufferAt a with
    | none => rfl
    | some b =>
      have := b.le_base
      have := (window_of_bufferAt hb).1
      omega
  simp only [slotAt, hlen, hlo, hhi, hnone, if_false] at h
  split_ifs at h <;> cases h

/-- A busy block that stays busy keeps its operands under a write to any other slot: a CMD write is
dropped, and a soft reset would end the command (44_control.md R222, R226). -/
theorem State.sameOperands_writeSlot {s : State} {v : Word} {slot : Slot} (hb : s.seq = .busy)
    (hslot : slot.isOperand = false) (ht : (s.writeSlot v slot).seq = .busy) :
    s.SameOperands (s.writeSlot v slot) := by
  cases slot with
  | id | reserved | status => exact ⟨rfl, rfl, rfl, rfl⟩
  | cmd =>
    rw [State.writeSlot, State.submit, hb]
    exact ⟨rfl, rfl, rfl, rfl⟩
  | ctrl =>
    rw [State.writeSlot, State.writeCtrl] at ht ⊢
    split at ht
    · cases ht
    · next hreset =>
      rw [if_neg hreset]
      exact ⟨rfl, rfl, rfl, rfl⟩
  | len | leakageLo | leakageHi | elem b i half => cases hslot

/-- An access that a busy block performs at once leaves its operands, if the block stays busy. -/
theorem State.sameOperands_hostAccess {s t : State} {op : BusOp} (hb : s.seq = .busy)
    (hfree : s.holds op = false) (ht : hostAccess op s = .next t) (htb : t.seq = .busy) :
    s.SameOperands t := by
  rcases hostAccess_cases op s with ⟨-, heq⟩ | ⟨w, off, v, -, -, -, heq⟩ |
    ⟨w, off, b, i, -, -, -, -, heq⟩ | ⟨w, off, v, rfl, hserved, heq⟩ <;> cases heq.symm.trans ht
  · exact ⟨rfl, rfl, rfl, rfl⟩
  · exact ⟨rfl, rfl, rfl, rfl⟩
  · have hslot : (slotAt off.toNat).isOperand = false := Bool.eq_false_iff.2 fun h =>
      Bool.eq_false_iff.1 hfree (State.holds_iff.2 ⟨hb, hserved, heldOffset_of_isOperand h⟩)
    exact State.sameOperands_writeSlot hb hslot htb

/-- Settles O15: the sequencer's turn ends the command, so the step is an access that is not held. -/
theorem operandsAreStableWhileBusy : Obligations.OperandsAreStableWhileBusy := by
  intro s t hb ht htb
  have hturn {u : State} (hu : u.seq = .busy) (h : sequencerTurn u = .next t) : False := by
    cases htb.symm.trans (completion_of_sequencerTurn hu h).1
  rcases step_cases s with
    ⟨-, heq⟩ | ⟨rest, -, heq⟩ | ⟨op, rest, -, -, heq⟩ | ⟨op, rest, -, hfree, heq⟩
  · exact (hturn hb (heq.symm.trans ht)).elim
  · exact (hturn (u := s.popTurn) hb (heq.symm.trans ht)).elim
  · exact (hturn hb (heq.symm.trans ht)).elim
  · exact State.sameOperands_hostAccess (s := s.popTurn) hb hfree (heq.symm.trans ht) htb

/-! ### Reserved offsets -/

theorem bufferAt_eq_none_iff {a : Nat} :
    bufferAt a = none ↔ ∀ b : Buffer, a < b.base ∨ b.limit ≤ a := by
  constructor
  · intro h b
    by_contra! hin
    cases h.symm.trans (bufferAt_of_window hin)
  · intro h
    cases hb : bufferAt a with
    | none => rfl
    | some b =>
      have := window_of_bufferAt hb
      have := h b
      omega

/-- The words that no register and no window of the map takes (20_memory.md R72). -/
theorem slotAt_reserved {a : Nat}
    (h : (0x001C ≤ a ∧ a < 0x0400) ∨ (0x0A9C ≤ a ∧ a < 0x0C00) ∨ (0x0E34 ≤ a ∧ a < 0x1000) ∨
      (0x1A00 ≤ a ∧ a < 0x2000) ∨ 0x2468 ≤ a) : slotAt a = .reserved := by
  have hnone : bufferAt a = none := bufferAt_eq_none_iff.2 fun b => by
    cases b <;>
      simp only [Buffer.limit, Buffer.addr, Buffer.base, Buffer.stride, Buffer.count] <;> omega
  rw [slotAt, hnone]
  repeat rw [if_neg (by omega)]

/-- Settles O54: the slot is reserved, so a read answers 0 and a write stores nothing. -/
theorem reservedOffsetsReadZero : Obligations.ReservedOffsetsReadZero := by
  intro s off v hal hrange
  have hslot := slotAt_reserved hrange
  constructor
  · rw [hostAccess, if_pos ((BusOp.served_iff (op := .read .w32 off)).2 ⟨rfl, hal⟩), hslot]
    rfl
  · rw [hostAccess, if_pos ((BusOp.served_iff (op := .write .w32 off v)).2 ⟨rfl, hal⟩), hslot]
    rfl

end Sys2Proof.Machine
end

section
/-! PROOFS. Host accesses to buffer elements (20_memory.md R75 to R77): what a write of a bus word stores,
what it leaves, and what a read of the same word then returns. -/

namespace Sys2Proof.Machine

/-! ### Numbers in the storage -/

theorem Memory.readLe_succ (m : Memory) (a k : Nat) :
    Memory.readLe m a (k + 1) = (Memory.read m a).bind fun b =>
      (Memory.readLe m (a + 1) k).map fun v => b.toNat + 256 * v := by
  rw [Memory.readLe]
  cases Memory.read m a with
  | none => rfl
  | some b => cases Memory.readLe m (a + 1) k <;> rfl

theorem Memory.readLe_lt {m : Memory} {a k n : Nat} (h : Memory.readLe m a k = some n) :
    n < 256 ^ k := by
  induction k generalizing a n with
  | zero =>
    cases h
    exact Nat.one_pos
  | succ k ih =>
    rw [Memory.readLe_succ] at h
    obtain ⟨b, -, hb⟩ := Option.bind_eq_some_iff.1 h
    obtain ⟨v, hv, rfl⟩ := Option.map_eq_some_iff.1 hb
    have := ih hv
    have := b.isLt
    rw [Nat.pow_succ]
    omega

/-- A number is its low bytes and its high bytes. -/
theorem Memory.readLe_add (m : Memory) (a j k : Nat) :
    Memory.readLe m a (j + k) = (Memory.readLe m a j).bind fun lo =>
      (Memory.readLe m (a + j) k).map fun hi => lo + 256 ^ j * hi := by
  induction j generalizing a with
  | zero => simp [Memory.readLe]
  | succ j ih =>
    have hval (b lo hi : Nat) :
        b + 256 * (lo + 256 ^ j * hi) = b + 256 * lo + 256 ^ (j + 1) * hi := by ring
    rw [Nat.add_right_comm j 1 k, Memory.readLe_succ, Memory.readLe_succ, ih,
      Nat.add_assoc a 1 j, Nat.add_comm 1 j]
    simp only [Option.bind_assoc, Option.bind_map, Option.map_bind, Option.map_map,
      Function.comp_def, hval]

/-- The four bytes of a bus word hold all of it. -/
theorem ofNat_toNat_mod (v : Word) : BitVec.ofNat 32 (v.toNat % 256 ^ 4) = v := by
  rw [show 256 ^ 4 = 2 ^ 32 from rfl, Nat.mod_eq_of_lt v.isLt, BitVec.ofNat_toNat,
    BitVec.setWidth_eq]

/-! ### A write of one bus word -/

section
variable (s : State) (b : Buffer) (i half : Nat) (v : Word)

@[simp] theorem storedBytes_length : (storedBytes b v).length = min b.width 4 := leBytes_length ..

/-- A write of a bus word leaves every byte it does not store. -/
theorem State.read_writeElem_outside {a : Nat}
    (h : a < b.addr i + 4 * half ∨ b.addr i + 4 * half + min b.width 4 ≤ a) :
    Memory.read (s.writeElem b i half v).mem a = Memory.read s.mem a := by
  rw [State.writeElem_mem, Memory.read_writeAt, if_neg]
  rw [storedBytes_length]
  omega

/-- The bytes a write of a bus word stores hold its value. -/
theorem State.readLe_writeElem :
    Memory.readLe (s.writeElem b i half v).mem (b.addr i + 4 * half) (min b.width 4) =
      some (v.toNat % 256 ^ min b.width 4) := by
  refine Memory.readLe_leBytes fun j hj => ?_
  rw [State.writeElem_mem, Memory.read_writeAt, storedBytes_length, if_pos (by omega),
    Nat.add_sub_cancel_left]
  rfl

/-- An element of at most one bus word is stored whole. -/
theorem State.readElem_writeElem (hw : b.width ≤ 4) :
    Memory.readElem (s.writeElem b i 0 v).mem b i = some (v.toNat % 256 ^ b.width) := by
  have h := s.readLe_writeElem b i 0 v
  rwa [min_eq_left hw] at h

end

/-- A served read of an element's bus word answers that word of its value. -/
theorem hostAccess_read_written {s : State} {b : Buffer} {i half n : Nat} {off : Offset}
    (hi : i < b.count) (hh : 4 * half < b.stride) (hoff : off.toNat = b.addr i + 4 * half)
    (hn : Memory.readElem s.mem b i = some n) :
    hostAccess (.read .w32 off) s = .next (s.reply (.data (halfWord n half))) := by
  rw [hostAccess_read_elem hi hh hoff, hn]

/-- A read returns what a write of the same bus word stored of it, zero-extended. -/
theorem hostAccess_read_writeElem (s : State) {b : Buffer} {i : Nat} {off : Offset} (v : Word)
    (hw : b.width ≤ 4) (hi : i < b.count) (hoff : off.toNat = b.addr i + 4 * 0) :
    hostAccess (.read .w32 off) ((s.writeElem b i 0 v).reply .done) =
      .next ((s.writeElem b i 0 v).reply (.data (BitVec.ofNat 32 (v.toNat % 256 ^ b.width)))) := by
  have hstride : 4 * 0 < b.stride := by
    have := b.width_pos
    have := b.width_le_stride
    omega
  have hn : Memory.readElem ((s.writeElem b i 0 v).reply .done).mem b i = some _ :=
    s.readElem_writeElem b i v hw
  rw [hostAccess_read_written hi hstride hoff hn, halfWord, Nat.mul_zero, Nat.pow_zero, Nat.div_one]
  rfl

/-- Settles O55: the stored byte is the low 8 bits of the bus word. -/
theorem bytesElementAccess : Obligations.BytesElementAccess := by
  intro s i off v hi hoff
  refine ⟨_, hostAccess_write_elem (b := .bytes) (half := 0) v hi (by decide) hoff, rfl, ?_, ?_, ?_⟩
  · rw [State.byteAt, State.reply_mem, s.readElem_writeElem .bytes i v (by decide), Option.map_some,
      Option.some.injEq]
    apply BitVec.eq_of_toNat_eq
    simp [Buffer.width]
  · intro a ha
    refine s.read_writeElem_outside .bytes i 0 v ?_
    simp only [Buffer.addr, Buffer.base, Buffer.stride, Buffer.width]
    omega
  · have hextend : BitVec.ofNat 32 (v.toNat % 256 ^ 1) = 0#24 ++ v.extractLsb' 0 8 := by
      apply BitVec.eq_of_toNat_eq
      rw [BitVec.toNat_append]
      simp only [BitVec.toNat_ofNat, Nat.zero_mod, Nat.zero_shiftLeft, Nat.zero_or,
        BitVec.extractLsb'_toNat, Nat.shiftRight_zero]
      omega
    rw [← hextend]
    exact hostAccess_read_writeElem s (b := .bytes) v (by decide) hi hoff

/-- Settles O56: the four stored bytes are the whole bus word. -/
theorem wordsElementAccess : Obligations.WordsElementAccess := by
  intro s i off v hi hoff
  refine ⟨_, hostAccess_write_elem (b := .words) (half := 0) v hi (by decide) hoff, rfl, ?_,
    fun a ha => s.read_writeElem_outside .words i 0 v ha, ?_⟩
  · rw [State.wordAt, State.reply_mem, s.readElem_writeElem .words i v (by decide), Option.map_some]
    exact congrArg some (ofNat_toNat_mod v)
  · have hread := hostAccess_read_writeElem s (b := .words) v (by decide) hi hoff
    rw [Buffer.width, ofNat_toNat_mod] at hread
    exact hread

/-! ### The halves of a binary64 element -/

/-- Bits [31:0] (half 0) or [63:32] (half 1) of a binary64 element; none where one of their bytes is
unwritten (20_memory.md R77, 44_control.md R228). -/
def State.halfAt (s : State) (b : Buffer) (i half : Nat) : Option Word :=
  (Memory.readLe s.mem (b.addr i + 4 * half) 4).map (BitVec.ofNat 32)

theorem Buffer.width_eq_eight {b : Buffer} (hbytes : b ≠ .bytes) (hwords : b ≠ .words) :
    b.width = 8 := by
  cases b with
  | bytes => exact absurd rfl hbytes
  | words => exact absurd rfl hwords
  | data | mag | freq | leak | tap | param => rfl

theorem Buffer.four_mul_half_lt_stride {b : Buffer} {half : Nat} (hb : b.width = 8)
    (hhalf : half < 2) : 4 * half < b.stride := by
  have := b.width_le_stride
  omega

section
variable {s : State} {b : Buffer} {i half : Nat} (hb : b.width = 8)
include hb

/-- An element is written when both its halves are, and holds them. -/
theorem State.f64At_eq_some_iff {x : F64} :
    s.f64At b i = some x ↔
      s.halfAt b i 0 = some (x.extractLsb' 0 32) ∧ s.halfAt b i 1 = some (x.extractLsb' 32 32) := by
  rw [State.f64At, Memory.readElem, hb, Memory.readLe_add s.mem (b.addr i) 4 4, State.halfAt,
    State.halfAt, Nat.mul_zero, Nat.add_zero]
  cases hlo : Memory.readLe s.mem (b.addr i) 4 with
  | none => simp
  | some lo =>
    cases hhi : Memory.readLe s.mem (b.addr i + 4) 4 with
    | none => simp
    | some hi =>
      have := Memory.readLe_lt hlo
      have := Memory.readLe_lt hhi
      have := x.isLt
      simp only [Option.bind_some, Option.map_some, Option.some.injEq, ← BitVec.toNat_inj,
        BitVec.toNat_ofNat, BitVec.extractLsb'_toNat, Nat.shiftRight_eq_div_pow]
      omega

theorem State.halfAt_writeElem_same (v : Word) : (s.writeElem b i half v).halfAt b i half = some v := by
  have h := s.readLe_writeElem b i half v
  rw [hb, show min 8 4 = 4 from rfl] at h
  rw [State.halfAt, h, Option.map_some, ofNat_toNat_mod]

/-- A write of one half leaves the other. -/
theorem State.halfAt_writeElem_of_ne {half' : Nat} (hne : half' ≠ half) (v : Word) :
    (s.writeElem b i half v).halfAt b i half' = s.halfAt b i half' := by
  rw [State.halfAt, State.halfAt]
  refine congrArg _ (Memory.readLe_congr fun a hlo hhi => ?_)
  refine s.read_writeElem_outside b i half v ?_
  omega

/-- An element after a write of one half (20_memory.md R77). -/
theorem State.f64At_writeElem {x : F64} (hhalf : half < 2) (hx : s.f64At b i = some x) (v : Word) :
    (s.writeElem b i half v).f64At b i =
      some (if half = 0 then x.extractLsb' 32 32 ++ v else v ++ x.extractLsb' 0 32) := by
  obtain ⟨hlo, hhi⟩ := (State.f64At_eq_some_iff hb).1 hx
  rw [State.f64At_eq_some_iff hb]
  obtain rfl | rfl : half = 0 ∨ half = 1 := by omega
  · rw [if_pos rfl, BitVec.extractLsb'_append_eq_right, BitVec.extractLsb'_append_eq_left,
      State.halfAt_writeElem_same hb, State.halfAt_writeElem_of_ne hb one_ne_zero]
    exact ⟨rfl, hhi⟩
  · rw [if_neg one_ne_zero, BitVec.extractLsb'_append_eq_right, BitVec.extractLsb'_append_eq_left,
      State.halfAt_writeElem_same hb, State.halfAt_writeElem_of_ne hb zero_ne_one]
    exact ⟨hlo, rfl⟩

/-- A read of one half of a written element. -/
theorem hostAccess_read_f64 {x : F64} {off : Offset} (hi : i < b.count) (hhalf : half < 2)
    (hoff : off.toNat = b.addr i + 4 * half) (hx : s.f64At b i = some x) :
    hostAccess (.read .w32 off) s = .next (s.reply (.data (x.extractLsb' (32 * half) 32))) := by
  obtain ⟨n, hn, rfl⟩ := Option.map_eq_some_iff.1 hx
  have hword : halfWord n half = (BitVec.ofNat 64 n).extractLsb' (32 * half) 32 := by
    apply BitVec.eq_of_toNat_eq
    simp only [halfWord, BitVec.toNat_ofNat, BitVec.extractLsb'_toNat, Nat.shiftRight_eq_div_pow]
    obtain rfl | rfl : half = 0 ∨ half = 1 := by omega
    all_goals omega
  rw [hostAccess_read_written hi (Buffer.four_mul_half_lt_stride hb hhalf) hoff hn, hword]

end

/-- Settles O57: the element after the write holds the new half beside the old one. -/
theorem binary64HalfAccess : Obligations.Binary64HalfAccess := by
  intro s b i half off v x hbytes hwords hi hhalf hoff hx
  have hb := Buffer.width_eq_eight hbytes hwords
  have hwrite := State.f64At_writeElem hb hhalf hx v
  refine ⟨_, hostAccess_write_elem v hi (Buffer.four_mul_half_lt_stride hb hhalf) hoff, rfl, hwrite,
    fun a ha => s.read_writeElem_outside b i half v ?_, ?_⟩
  · omega
  · rw [hostAccess_read_f64 (s := (s.writeElem b i half v).reply .done) hb hi hhalf hoff hwrite]
    obtain rfl | rfl : half = 0 ∨ half = 1 := by omega
    · rw [if_pos rfl, BitVec.extractLsb'_append_eq_right]
      rfl
    · rw [if_neg one_ne_zero, BitVec.extractLsb'_append_eq_left]
      rfl

end Sys2Proof.Machine
end

section
/-! PROOFS. Command words (30_encoding.md R100, R110 to R114): the fields of a word, that decoder and
encoder invert each other, which words are illegal, and which row of the opcode table a word fits. -/

namespace Sys2Proof

/-! ### The fields of a command word -/

section
variable (t : BitVec 1) (arg op : BitVec 8)

@[simp] theorem opField_commandWord : opField (commandWord t arg op) = op :=
  BitVec.extractLsb'_append_eq_right

@[simp] theorem argField_commandWord : argField (commandWord t arg op) = arg := by
  rw [argField, commandWord, BitVec.extractLsb'_append_eq_of_le (by omega)]
  exact BitVec.extractLsb'_append_eq_right

@[simp] theorem typeField_commandWord : typeField (commandWord t arg op) = t := by
  rw [typeField, commandWord, BitVec.extractLsb'_append_eq_of_le (by omega),
    BitVec.extractLsb'_append_eq_of_le (by omega)]
  exact BitVec.extractLsb'_append_eq_right

@[simp] theorem rsvField_commandWord : rsvField (commandWord t arg op) = 0 := by
  rw [rsvField, commandWord, BitVec.extractLsb'_append_eq_of_le (by omega),
    BitVec.extractLsb'_append_eq_of_le (by omega), BitVec.extractLsb'_append_eq_of_le (by omega)]
  exact BitVec.extractLsb'_eq_self

end

/-- A word is its four fields (30_encoding.md R100). -/
theorem append_fields (w : Word) : rsvField w ++ typeField w ++ argField w ++ opField w = w := by
  rw [rsvField, typeField, argField, opField,
    BitVec.extractLsb'_append_extractLsb'_eq_extractLsb' (by rfl),
    BitVec.extractLsb'_append_extractLsb'_eq_extractLsb' (by rfl),
    BitVec.extractLsb'_append_extractLsb'_eq_extractLsb' (by rfl)]
  exact BitVec.extractLsb'_eq_self

theorem commandWord_eq_iff {w : Word} {t : BitVec 1} {arg op : BitVec 8} :
    commandWord t arg op = w ↔
      rsvField w = 0 ∧ typeField w = t ∧ argField w = arg ∧ opField w = op := by
  constructor
  · rintro rfl
    simp
  · rintro ⟨hrsv, rfl, rfl, rfl⟩
    conv_rhs => rw [← append_fields w, hrsv]
    rfl

theorem bit_eq_one_iff {t : BitVec 1} : t = 1#1 ↔ ¬t = 0#1 := by
  revert t
  decide

/-! ### Decoder and encoder -/

section
variable {w : Word} {i j : Instr}

/-- A word with RSV = 0 and T = 0 is the word of its OP and ARG (30_encoding.md R112 (b), (d)). -/
theorem encode_of_requirePlain (h : requirePlain w i = .ok j)
    (hi : encode i = commandWord 0 (argField w) (opField w)) : encode j = w := by
  rw [requirePlain] at h
  split_ifs at h with hrsv ht
  cases h
  exact hi.trans <| commandWord_eq_iff.2 ⟨not_not.1 hrsv, not_not.1 ht, rfl, rfl⟩

/-- With ARG = 0 as well it is the word of its OP alone (30_encoding.md R112 (c)). -/
theorem encode_of_requireBare (h : requireBare w i = .ok j)
    (hi : encode i = commandWord 0 0 (opField w)) : encode j = w := by
  rw [requireBare] at h
  split_ifs at h with harg
  exact encode_of_requirePlain h (by rwa [not_not.1 harg])

/-- T tells the two forms of OP 0x20 apart (30_encoding.md R110). -/
theorem encode_of_decodeModelForm (h : decodeModelForm w = .ok j) (hop : opField w = 0x20#8) :
    encode j = w := by
  rw [decodeModelForm] at h
  split_ifs at h with hrsv harg ht <;> cases h
  · exact commandWord_eq_iff.2 ⟨not_not.1 hrsv, ht, not_not.1 harg, hop⟩
  · exact commandWord_eq_iff.2 ⟨not_not.1 hrsv, bit_eq_one_iff.2 ht, not_not.1 harg, hop⟩

end

theorem decode_encode (i : Instr) : decode (encode i) = .ok i := by
  cases i <;> simp [encode, decode, requireBare, requirePlain, decodeModelForm]

theorem encode_of_decode {w : Word} {i : Instr} (h : decode w = .ok i) : encode i = w := by
  unfold decode at h
  split at h
  -- NOP, DEC24, ENCODE_MODEL
  case h_1 | h_3 | h_9 => next hop => exact encode_of_requireBare h (hop ▸ rfl)
  -- the commands with an operand
  case h_2 | h_4 | h_5 | h_6 | h_7 => next hop => exact encode_of_requirePlain h (hop ▸ rfl)
  -- DECODE_MODEL
  case h_8 => next hop => exact encode_of_decodeModelForm h hop
  -- an OP that is not in the table
  case h_10 => cases h

/-! ### Illegal words -/

@[simp] theorem isOk_ok (i : Instr) : (Except.ok i : Except DecodeError Instr).isOk = true := rfl

@[simp] theorem isOk_error (e : DecodeError) :
    (Except.error e : Except DecodeError Instr).isOk = false := rfl

theorem isOk_requirePlain (w : Word) (i : Instr) :
    (requirePlain w i).isOk = (decide (rsvField w = 0) && decide (typeField w = 0)) := by
  rw [requirePlain]
  split_ifs with hrsv ht <;> simp_all

theorem isOk_requireBare (w : Word) (i : Instr) :
    (requireBare w i).isOk =
      (decide (rsvField w = 0) && decide (argField w = 0) && decide (typeField w = 0)) := by
  rw [requireBare]
  split_ifs with harg <;> simp_all [isOk_requirePlain]

theorem isOk_decodeModelForm (w : Word) :
    (decodeModelForm w).isOk = (decide (rsvField w = 0) && decide (argField w = 0)) := by
  rw [decodeModelForm]
  split_ifs with hrsv harg ht <;> simp_all

/-- The words that R112 names are those that the decoder rejects (30_encoding.md R113). -/
theorem illegalWord_eq_not_isOk_decode (w : Word) : illegalWord w = !(decode w).isOk := by
  unfold decode
  split
  -- NOP, DEC24, ENCODE_MODEL
  case h_1 | h_3 | h_9 =>
    next hop => simp [illegalWord, hop, isOk_requireBare, bit_eq_one_iff]
  -- the commands with an operand
  case h_2 | h_4 | h_5 | h_6 | h_7 =>
    next hop => simp [illegalWord, hop, isOk_requirePlain, bit_eq_one_iff]
  -- DECODE_MODEL
  case h_8 => next hop => simp [illegalWord, hop, isOk_decodeModelForm]
  -- an OP that is not in the table
  case h_10 => simp_all [illegalWord]

theorem illegalWord_iff_rejected (w : Word) : illegalWord w = true ↔ ∃ e, decode w = .error e := by
  rw [illegalWord_eq_not_isOk_decode]
  cases decode w <;> simp

/-! ### The opcode table -/

/-- The word of a command fits the row of its mnemonic and no other (30_encoding.md R110, R113). -/
theorem encode_fits_iff (i : Instr) : Laws.WordFitsItsRow.Statement i := by
  cases i with
  | nop => exact Laws.WordFitsItsRow.nop
  | enc24 c => exact Laws.WordFitsItsRow.enc24 c
  | dec24 => exact Laws.WordFitsItsRow.dec24
  | fft m => exact Laws.WordFitsItsRow.fft m
  | leakf h => exact Laws.WordFitsItsRow.leakf h
  | untangle m => exact Laws.WordFitsItsRow.untangle m
  | untangleLeak m => exact Laws.WordFitsItsRow.untangleLeak m
  | decodeModelImp => exact Laws.WordFitsItsRow.decodeModelImp
  | decodeModelExc => exact Laws.WordFitsItsRow.decodeModelExc
  | encodeModel => exact Laws.WordFitsItsRow.encodeModel

theorem exists_row_of_mnemonic (i : Instr) : ∃ r ∈ opcodeTable, r.mnemonic = i.mnemonic := by
  cases i <;> simp [opcodeTable, Instr.mnemonic]

theorem row_eq_of_mnemonic_eq :
    ∀ r ∈ opcodeTable, ∀ r' ∈ opcodeTable, r'.mnemonic = r.mnemonic → r' = r := by
  decide

theorem extractLsb'_and_mask {w mask : Word} {start len : Nat}
    (h : mask.extractLsb' start len = BitVec.allOnes len) :
    (w &&& mask).extractLsb' start len = w.extractLsb' start len := by
  rw [BitVec.extractLsb'_and, h, BitVec.and_allOnes]

/-- The mask of a row with an ARG operand leaves ARG free and fixes the other fields. -/
theorem commandWord_of_masked {w : Word} {op : BitVec 8}
    (h : w &&& 0xFFFF00FF#32 = commandWord 0 0 op) : commandWord 0 (argField w) op = w := by
  obtain ⟨hrsv, htype, -, hop⟩ := commandWord_eq_iff.1 h.symm
  exact commandWord_eq_iff.2 ⟨(extractLsb'_and_mask rfl).symm.trans hrsv,
    (extractLsb'_and_mask rfl).symm.trans htype, rfl, (extractLsb'_and_mask rfl).symm.trans hop⟩

/-- The mask of a row without an operand fixes the whole word. -/
theorem eq_of_masked {w v : Word} (h : w &&& 0xFFFFFFFF#32 = v) : v = w :=
  h.symm.trans BitVec.and_allOnes

theorem exists_encode_of_fits {w : Word} {r : OpcodeRow} (hr : r ∈ opcodeTable)
    (h : r.fits w = true) : ∃ i, encode i = w := by
  have hmask : w &&& r.mask = r.pattern := beq_iff_eq.1 h
  fin_cases hr
  · exact ⟨.nop, eq_of_masked hmask⟩
  · exact ⟨.enc24 (argField w), commandWord_of_masked hmask⟩
  · exact ⟨.dec24, eq_of_masked hmask⟩
  · exact ⟨.fft (argField w), commandWord_of_masked hmask⟩
  · exact ⟨.leakf (argField w), commandWord_of_masked hmask⟩
  · exact ⟨.untangle (argField w), commandWord_of_masked hmask⟩
  · exact ⟨.untangleLeak (argField w), commandWord_of_masked hmask⟩
  · exact ⟨.decodeModelImp, eq_of_masked hmask⟩
  · exact ⟨.decodeModelExc, eq_of_masked hmask⟩
  · exact ⟨.encodeModel, eq_of_masked hmask⟩

/-- Settles O1: every field of the encoding reads back. -/
theorem decodeEncodeAgree : Obligations.DecodeEncodeAgree := decode_encode

/-- Settles O2: the accepted fields make up the word. -/
theorem encodeDecodeAgree : Obligations.EncodeDecodeAgree := fun _ _ => encode_of_decode

/-- Settles O3: a word that decodes is the word of its command, which fits one row; a word that fits a
row is the word of a command, which decodes. -/
theorem eachWordFitsOneRowOrIsIllegal : Obligations.EachWordFitsOneRowOrIsIllegal := by
  intro w
  cases hd : decode w with
  | ok i =>
    obtain rfl := encode_of_decode hd
    obtain ⟨r, hr, hmnem⟩ := exists_row_of_mnemonic i
    refine .inl ⟨?_, i, r, rfl, hr, hmnem, (encode_fits_iff i r hr).2 hmnem, fun r' hr' hfit => ?_⟩
    · rw [illegalWord_eq_not_isOk_decode, hd]
      rfl
    · exact row_eq_of_mnemonic_eq r hr r' hr' (((encode_fits_iff i r' hr').1 hfit).trans hmnem.symm)
  | error e =>
    refine .inr ⟨(illegalWord_iff_rejected w).2 ⟨e, hd⟩, ⟨e, rfl⟩, fun r hr => ?_⟩
    refine Bool.eq_false_iff.2 fun hfit => ?_
    obtain ⟨i, rfl⟩ := exists_encode_of_fits hr hfit
    cases (decode_encode i).symm.trans hd

/-- Settles O4: the ten words are the encodings of their commands, and the decoder rejects the four. -/
theorem specWordsDecode : Obligations.SpecWordsDecode :=
  ⟨decode_encode .nop, decode_encode (.enc24 3), decode_encode .dec24, decode_encode (.fft 7),
    decode_encode (.leakf 64), decode_encode (.untangle 2), decode_encode (.untangleLeak 2),
    decode_encode .decodeModelImp, decode_encode .decodeModelExc, decode_encode .encodeModel,
    rfl, rfl, rfl, rfl⟩

end Sys2Proof

namespace Sys2Proof.Machine

/-- A served write has the effect of its slot (20_memory.md R71, R72). -/
theorem hostAccess_write_aligned {off : Offset} (hal : off.toNat % 4 = 0) (v : Word) (s : State) :
    hostAccess (.write .w32 off v) s =
      .next ((s.writeSlot v (slotAt off.toNat)).reply .done) := by
  rw [hostAccess, if_pos ((BusOp.served_iff (op := .write .w32 off v)).2 ⟨rfl, hal⟩)]

theorem hostAccess_write_cmd (w : Word) (s : State) :
    hostAccess (.write .w32 0x004#14 w) s = .next ((s.submit w).reply .done) :=
  hostAccess_write_aligned (by decide) w s

theorem State.submit_of_idle {s : State} (h : s.seq = .idle) (w : Word) : s.submit w = s.accept w := by
  rw [State.submit, h]

/-- Settles O6: an idle block accepts any word, and the decoder rejects this one. -/
theorem illegalWordEndsWithIllegal : Obligations.IllegalWordEndsWithIllegal := by
  intro s w hw
  obtain ⟨e, hd⟩ := (illegalWord_iff_rejected w).1 hw
  constructor
  · intro rest hidle ha
    rw [step_of_not_held ha (State.holds_of_idle hidle _), hostAccess_write_cmd,
      State.submit_of_idle (s := s.popTurn) hidle, State.popTurn, ha]
    rfl
  · rintro hb rfl hc
    rw [step_of_completionNext hc]
    rcases sequencerTurn_cases { s with agenda := s.agendaAfter } with
      ⟨hidle, -⟩ | ⟨i, -, hi, -⟩ | ⟨e', -, -, heq⟩
    · cases hb.symm.trans hidle
    · cases hd.symm.trans hi
    · exact heq

end Sys2Proof.Machine
end

section
/-! PROOFS. The fixed-point codec (40_codec.md): that decoding inverts encoding up to the clamp (R144),
what a command that ends without error leaves alone, and the commands ENC24 (R140) and DEC24 (R142)
with their length errors (60_exceptions.md R244, R246). -/

namespace Sys2Proof.Machine

/-! ### The clamp and the wire word -/

theorem clamp24_eq (v : Int) : clamp24 v = max (-8388608) (min 8388607 v) := rfl

theorem clamp24_bounds (v : Int) : -8388608 ≤ clamp24 v ∧ clamp24 v ≤ 8388607 := by
  rw [clamp24_eq]
  omega

/-- A value that fits in 24 bits is not changed. -/
theorem clamp24_of_fits {v : Int} (hlo : -8388608 ≤ v) (hhi : v ≤ 8388607) : clamp24 v = v := by
  rw [clamp24_eq]
  omega

/-- No clamped value is lost in 24 bits. -/
theorem toInt_u24_clamp24 (v : Int) : (u24 (clamp24 v)).toInt = clamp24 v := by
  obtain ⟨hlo, hhi⟩ := clamp24_bounds v
  exact BitVec.toInt_ofInt_eq_self (by omega) (by omega) (by omega)

/-- A wire word is its three bytes in stream order (30_encoding.md R105). -/
theorem wireWord_extract (p : Wire) :
    wireWord (p.extractLsb' 16 8) (p.extractLsb' 8 8) (p.extractLsb' 0 8) = p := by
  rw [wireWord, BitVec.extractLsb'_append_extractLsb'_eq_extractLsb' (by rfl),
    BitVec.extractLsb'_append_extractLsb'_eq_extractLsb' (by rfl)]
  exact BitVec.extractLsb'_eq_self

/-! ### Decoding an encoded stream -/

theorem decode24_wireBytes_append (p : Wire) (bs : List Byte) :
    decode24 (wireBytes p ++ bs) = (decode24 bs).map (sext24 p :: ·) := by
  conv_rhs => rw [← wireWord_extract p]
  rfl

theorem decode24_encode24 (vs : List Word) :
    decode24 (encode24 vs) = some (vs.map fun v => BitVec.ofInt 32 (clamp24 v.toInt)) := by
  induction vs with
  | nil => rfl
  | cons v vs ih =>
    have hcons : encode24 (v :: vs) = wireBytes (u24 (clamp24 v.toInt)) ++ encode24 vs := rfl
    rw [hcons, decode24_wireBytes_append, ih, sext24, toInt_u24_clamp24]
    rfl

/-- Settles O21: the bytes of each value decode to it, clamped. -/
theorem codecRoundTrip : Obligations.CodecRoundTrip := by
  intro vs
  refine ⟨decode24_encode24 vs, fun v _ => ⟨fun hlo hhi => ?_, fun hhi => ?_, fun hlo => ?_⟩⟩
  · rw [clamp24_of_fits hlo hhi, BitVec.ofInt_toInt]
  · rw [clamp24_eq]
    omega
  · rw [clamp24_eq]
    omega

/-! ### What a command that ends without error leaves alone -/

section
variable {s u : State}

theorem State.endedOk_completeOk (s : State) : s.completeOk.endedOk := ⟨rfl, rfl, rfl, rfl⟩

/-- The writes of a command and its completion reach no other register (60_exceptions.md R241). -/
theorem State.Writes.sameControl_completeOk (h : s.Writes u) : s.sameControl u.completeOk := by
  rw [h.eq_with]
  exact ⟨rfl, rfl, rfl, rfl, rfl, rfl⟩

/-- After a write of a buffer's prefix every byte outside the prefix's window is as before. -/
theorem State.sameOutside_of_mem {b : Buffer} {n : Nat} {vs : List Nat} (hl : vs.length = n)
    (hmem : u.mem = Memory.writePrefix s.mem b vs) : s.sameOutside u [prefixWindow b n] := by
  subst hl
  intro a ha
  rw [hmem]
  exact Memory.read_writePrefix_outside (ha _ List.mem_cons_self)

end

/-! ### The checks of a count and of a stream's length -/

theorem checkCount_of_lt {n cap : Nat} (h : cap < n) : checkCount n cap = some .range := if_pos h

theorem checkCount_of_le {n cap : Nat} (h : n ≤ cap) : checkCount n cap = none :=
  if_neg (Nat.not_lt.2 h)

theorem checkStream_of_lt {n : Nat} (h : 423 < n) : checkStream n = some .range := if_pos h

theorem checkStream_of_le {n : Nat} (h : n ≤ 423) :
    checkStream n = if n % 3 ≠ 0 then some .format else none :=
  if_neg (Nat.not_lt.2 h)

/-! ### ENC24 -/

/-- The state in which ENC24 leaves the block when its operands are `ws` (40_codec.md R140). -/
def State.afterEnc24 (s : State) (ws : List Word) : State :=
  ((s.setBytes (encode24 ws)).setLen (3 * ws.length)).completeOk

section
variable {s : State} {ws : List Word}

theorem exec_enc24_of_written {c : BitVec 8} (hc : c.toNat ≤ 141) (hl : ws.length = c.toNat)
    (hws : ∀ k (h : k < ws.length), s.wordAt k = some ws[k]) :
    exec (.enc24 c) s = .next (s.afterEnc24 ws) := by
  have hcheck : checkCount (argCount c) recordWords = none := checkCount_of_le hc
  rw [exec, execEnc24, hcheck, checked, State.withWords_eq (n := argCount c) hl hws, finishOk,
    State.afterEnc24, hl, argCount]

theorem State.toNat_len_afterEnc24 (h : ws.length ≤ 141) :
    (s.afterEnc24 ws).len.toNat = 3 * ws.length :=
  Nat.mod_eq_of_lt (by omega)

theorem State.byteAt_afterEnc24 {i : Nat} (h : i < (encode24 ws).length) :
    (s.afterEnc24 ws).byteAt i = some (encode24 ws)[i] :=
  State.byteAt_setBytes (s := s) h

/-- Byte 3k + j of the stream is byte j of value k. -/
theorem State.byteAt_afterEnc24_group {k j : Nat} (hk : k < ws.length) (hj : j < 3) :
    (s.afterEnc24 ws).byteAt (3 * k + j) = (encodeOne ws[k])[j]? := by
  have hi : 3 * k + j < (encode24 ws).length := by
    rw [encode24_length]
    omega
  rw [State.byteAt_afterEnc24 hi, ← List.getElem?_eq_getElem hi, encode24_getElem? ws k j hj hk]

end

/-- Settles O17: the completed state, read back at each value's three bytes. -/
theorem enc24Completes : Obligations.Enc24Completes := by
  intro c s ws hc hl hws
  have hcap : ws.length ≤ 141 := hl ▸ hc
  have hlen : (encode24 ws).length = 3 * c.toNat := by rw [encode24_length, hl]
  have hwrites : s.Writes ((s.setBytes (encode24 ws)).setLen (3 * ws.length)) :=
    (State.Writes.none.setBytes (by omega)).len _
  refine ⟨s.afterEnc24 ws, exec_enc24_of_written hc hl hws, State.endedOk_completeOk _,
    hwrites.sameControl_completeOk, by rw [State.toNat_len_afterEnc24 hcap, hl], fun k hk => ?_,
    State.sameOutside_of_mem (by rw [List.length_map, hlen]) rfl⟩
  exact ⟨State.byteAt_afterEnc24_group (j := 0) hk (by omega),
    State.byteAt_afterEnc24_group (j := 1) hk (by omega),
    State.byteAt_afterEnc24_group (j := 2) hk (by omega)⟩

/-! ### DEC24 -/

/-- A legal LEN and a written stream: DEC24 leaves the decoded values in WORDS (40_codec.md R142). -/
theorem exec_dec24_of_written {s : State} {bs : List Byte} {vs : List Word}
    (hcap : s.len.toNat ≤ 423) (hmod : s.len.toNat % 3 = 0) (hl : bs.length = s.len.toNat)
    (hbs : ∀ k (h : k < bs.length), s.byteAt k = some bs[k]) (hvs : decode24 bs = some vs) :
    exec .dec24 s = .next (s.setWords vs).completeOk := by
  have hcheck : checkStream s.lenBytes = none :=
    (checkStream_of_le hcap).trans (if_neg (not_not.2 hmod))
  rw [exec, execDec24, hcheck, checked, State.withBytes_eq (n := s.lenBytes) hl hbs, hvs]
  rfl

/-- Settles O19: the completed state, whose WORDS are the decoded groups. -/
theorem dec24Completes : Obligations.Dec24Completes := by
  intro s bs hcap hmod hl hbs
  obtain ⟨vs, hvs, hvl, hget⟩ := (decode24_spec bs).1 (hl ▸ hmod)
  have hwrites : s.Writes (s.setWords vs) := State.Writes.none.setWords (by omega)
  refine ⟨(s.setWords vs).completeOk, exec_dec24_of_written hcap hmod hl hbs hvs,
    State.endedOk_completeOk _, hwrites.sameControl_completeOk, rfl, fun k hk => ?_,
    State.sameOutside_of_mem (by rw [List.length_map]; omega) rfl⟩
  have hkl : k < vs.length := by omega
  calc (s.setWords vs).completeOk.wordAt k
    _ = some vs[k] := State.wordAt_setWords (s := s) hkl
    _ = vs[k]? := (List.getElem?_eq_getElem hkl).symm
    _ = some (BitVec.ofInt 32 (recordWord bs k)) := hget k hkl

/-- Settles O22: the stream ENC24 leaves has a legal LEN, and decodes to the clamped values. -/
theorem dec24AfterEnc24Clamps : Obligations.Dec24AfterEnc24Clamps := by
  intro c s ws hc hl hws
  have hlen : (s.afterEnc24 ws).len.toNat = 3 * ws.length := State.toNat_len_afterEnc24 (hl ▸ hc)
  have hdec := exec_dec24_of_written (s := s.afterEnc24 ws) (by omega) (by omega)
    (by rw [encode24_length, hlen]) (fun _ => State.byteAt_afterEnc24) (decode24_encode24 ws)
  refine ⟨_, _, exec_enc24_of_written hc hl hws, hdec, State.endedOk_completeOk _, fun k hk => ?_⟩
  refine (State.wordAt_setWords (s := s.afterEnc24 ws) (by rwa [List.length_map])).trans ?_
  rw [List.getElem_map]

/-! ### Length errors -/

/-- Settles O18: both commands check their count before anything else. -/
theorem countAboveCapacityIsRangeError : Obligations.CountAboveCapacityIsRangeError := by
  intro a s
  constructor
  · intro h
    have hcheck : checkCount (argCount a) recordWords = some .range := checkCount_of_lt h
    rw [exec, execEnc24, hcheck]
    rfl
  · intro h
    have hcheck : checkCount (argCount a) magCount = some .range := checkCount_of_lt h
    rw [exec, execLeakf, hcheck]
    rfl

/-- Settles O20: the capacity is checked before the multiple of 3 (60_exceptions.md R244). -/
theorem dec24LengthErrors : Obligations.Dec24LengthErrors := by
  intro s
  constructor
  · intro h
    have hcheck : checkStream s.lenBytes = some .range := checkStream_of_lt h
    rw [exec, execDec24, hcheck]
    rfl
  · intro hcap hmod
    have hcheck : checkStream s.lenBytes = some .format :=
      (checkStream_of_le hcap).trans (if_pos hmod)
    rw [exec, execDec24, hcheck]
    rfl

end Sys2Proof.Machine
end

section
/-! PROOFS. NaNs, infinities and zeros (41_spectral.md R163): what the special patterns stand for, that a
NaN is propagated and the invalid operations create one, and that no magnitude is negative (R172). -/

namespace Sys2Proof.Machine

/-! ### What the special patterns stand for -/

theorem fIsNaN_iff {x : F64} : fIsNaN x = true ↔ fClass x = .nan := decide_eq_true_iff

theorem fClass_packMag_infMag (s : Bool) : fClass (packMag s infMag) = .inf s := by cases s <;> rfl

theorem fClass_packMag_zero (s : Bool) : fClass (packMag s 0) = .fin s 0 (-1074) := by
  cases s <;> rfl

theorem isInf_iff {x : F64} : isInf x ↔ ∃ s, x = packMag s infMag := by
  simp only [Bool.exists_bool, packMag_infMag, isInf]
  rfl

theorem isZero_iff {x : F64} : isZero x ↔ ∃ s, x = packMag s 0 := by
  rw [Bool.exists_bool]
  rfl

/-- A NaN is a magnitude beyond the infinities' (30_encoding.md R109). -/
theorem fIsNaN_iff_lt_fMag {x : F64} : fIsNaN x = true ↔ infMag < fMag x := by
  have hexp := fExp_eq_fMag_div x
  have hfrac := fFrac_eq_fMag_mod x
  have hlt := fMag_lt x
  rw [fIsNaN_iff, fClass, infMag]
  split_ifs with h2047 h0 hsub
  · exact iff_of_false nofun (by omega)
  · exact iff_of_true rfl (by omega)
  · exact iff_of_false nofun (by omega)
  · exact iff_of_false nofun (by omega)

/-- The number of two fields put together. -/
theorem toNat_append {m n : Nat} (x : BitVec m) (y : BitVec n) :
    (x ++ y).toNat = x.toNat * 2 ^ n + y.toNat := by
  rw [BitVec.toNat_append, ← Nat.shiftLeft_add_eq_or_of_lt y.isLt, Nat.shiftLeft_eq]

/-- The magnitude of a pattern given by its fields. -/
theorem fMag_append (sign : BitVec 1) (exp : BitVec 11) (frac : BitVec 52) :
    fMag (sign ++ exp ++ frac) = exp.toNat * 2 ^ 52 + frac.toNat := by
  have hexp := exp.isLt
  have hfrac := frac.isLt
  simp only [fMag, toNat_append]
  omega

/-- NAN_PROP is a NaN at every fraction that it is given (log entry 9). -/
theorem fIsNaN_propNaN (op : FOp) (x y : F64) : fIsNaN (propNaN op x y) = true := by
  rw [fIsNaN_iff_lt_fMag, propNaN, fMag_append, infMag]
  split
  · decide
  · next hfrac =>
    have hpos : (BitVec.extractLsb' 0 52 (Config.nanProp op x y)).toNat ≠ 0 := fun h0 =>
      hfrac (BitVec.eq_of_toNat_eq h0)
    simp only [BitVec.toNat_ofNat]
    omega

/-- NAN_GEN is a quiet NaN at every payload (log entry 9). -/
theorem fIsNaN_genNaN (op : FOp) (x y : F64) : fIsNaN (genNaN op x y) = true := by
  have hlt := (BitVec.extractLsb' 0 51 (Config.nanGen op x y)).isLt
  rw [fIsNaN_iff_lt_fMag, genNaN, fMag, infMag]
  simp only [toNat_append, BitVec.toNat_ofNat]
  omega

/-! ### Propagated NaNs -/

theorem arithmetic_of_nan {x y : F64} (h : fIsNaN x = true ∨ fIsNaN y = true) :
    fadd x y = propNaN .add x y ∧ fsub x y = propNaN .sub x y ∧ fmul x y = propNaN .mul x y ∧
      fdiv x y = propNaN .div x y := by
  simp only [fIsNaN_iff] at h
  unfold fadd fsub fmul fdiv
  rcases h with hx | hy
  · rw [hx]
    exact ⟨rfl, rfl, rfl, rfl⟩
  · rw [hy]
    cases fClass x <;> exact ⟨rfl, rfl, rfl, rfl⟩

theorem fsqrt_of_nan {x : F64} (h : fIsNaN x = true) : fsqrt x = propNaN .sqrt x 0 := by
  rw [fsqrt, fIsNaN_iff.1 h]

/-! ### Created NaNs -/

section
variable (s t : Bool)

theorem fIsNaN_fsub_inf : fIsNaN (fsub (packMag s infMag) (packMag s infMag)) = true := by
  simp [fsub, fClass_packMag_infMag, fIsNaN_genNaN]

theorem fIsNaN_fadd_inf (h : s ≠ t) : fIsNaN (fadd (packMag s infMag) (packMag t infMag)) = true := by
  simp [fadd, fClass_packMag_infMag, h, fIsNaN_genNaN]

theorem fIsNaN_fdiv_inf : fIsNaN (fdiv (packMag s infMag) (packMag t infMag)) = true := by
  simp [fdiv, fClass_packMag_infMag, fIsNaN_genNaN]

theorem fIsNaN_fmul_inf_zero : fIsNaN (fmul (packMag s infMag) (packMag t 0)) = true := by
  simp [fmul, fClass_packMag_infMag, fClass_packMag_zero, fIsNaN_genNaN]

theorem fIsNaN_fmul_zero_inf : fIsNaN (fmul (packMag s 0) (packMag t infMag)) = true := by
  simp [fmul, fClass_packMag_infMag, fClass_packMag_zero, fIsNaN_genNaN]

theorem fIsNaN_fdiv_zero : fIsNaN (fdiv (packMag s 0) (packMag t 0)) = true := by
  simp [fdiv, fClass_packMag_zero, fIsNaN_genNaN]

end

/-- The sign of a number or an infinity is its sign bit. -/
theorem fSign_of_fClass_inf {x : F64} {s : Bool} (h : fClass x = .inf s) : fSign x = s := by
  unfold fClass at h
  split_ifs at h
  exact FClass.inf.inj h

theorem fSign_of_fClass_fin {x : F64} {s : Bool} {m : Nat} {e : Int} (h : fClass x = .fin s m e) :
    fSign x = s := by
  unfold fClass at h
  split_ifs at h <;> exact (FClass.fin.inj h).1

/-- A pattern whose value is not 0 is a number with a significand. -/
theorem fClass_of_fVal_ne_zero {x : F64} (h : fVal x ≠ 0) :
    ∃ m e, fClass x = .fin (fSign x) m e ∧ m ≠ 0 := by
  cases hc : fClass x with
  | nan => simp [fVal, hc] at h
  | inf s => simp [fVal, hc] at h
  | fin s m e =>
    refine ⟨m, e, by rw [fSign_of_fClass_fin hc], ?_⟩
    rintro rfl
    simp [fVal, hc] at h

theorem fIsNaN_fsqrt_of_neg {x : F64} (hs : fSign x = true) (hv : fVal x ≠ 0) :
    fIsNaN (fsqrt x) = true := by
  obtain ⟨m, e, hc, hm⟩ := fClass_of_fVal_ne_zero hv
  simp [fsqrt, hc, hs, hm, fIsNaN_genNaN]

/-- Settles O41: a NaN operand is propagated, and each invalid operation answers a generated NaN. -/
theorem naNsAndInfinities : Obligations.NaNsAndInfinities := by
  refine ⟨fun x y h => ?_, fun x h => ?_, fun x y hx hy => ?_, fun x y hx hy => ?_, fun x y hx hy => ?_,
    fun x => fIsNaN_fsqrt_of_neg, fIsNaN_genNaN _ _ _, rfl⟩
  · obtain ⟨hadd, hsub, hmul, hdiv⟩ := arithmetic_of_nan h
    rw [hadd, hsub, hmul, hdiv]
    exact ⟨fIsNaN_propNaN .., fIsNaN_propNaN .., fIsNaN_propNaN .., fIsNaN_propNaN ..⟩
  · rw [fsqrt_of_nan h]
    exact fIsNaN_propNaN ..
  · obtain ⟨s, rfl⟩ := isInf_iff.1 hx
    obtain ⟨t, rfl⟩ := isInf_iff.1 hy
    refine ⟨fun heq => heq ▸ fIsNaN_fsub_inf s, fun hne => fIsNaN_fadd_inf s t ?_, fIsNaN_fdiv_inf s t⟩
    rintro rfl
    exact hne rfl
  · obtain ⟨s, rfl⟩ := isInf_iff.1 hx
    obtain ⟨t, rfl⟩ := isZero_iff.1 hy
    exact ⟨fIsNaN_fmul_inf_zero s t, fIsNaN_fmul_zero_inf t s⟩
  · obtain ⟨s, rfl⟩ := isZero_iff.1 hx
    obtain ⟨t, rfl⟩ := isZero_iff.1 hy
    exact fIsNaN_fdiv_zero s t

/-! ### Magnitudes -/

/-- At least +0, or a NaN. -/
def NonnegOrNaN (x : F64) : Prop := fIsNaN x = true ∨ fSign x = false

theorem roundMag_le (m : Nat) (e : Int) : roundMag m e ≤ infMag := by
  rcases eq_or_ne m 0 with rfl | hm
  · exact Nat.zero_le _
  · rw [roundMag_of_ne_zero hm]
    exact min_le_left ..

theorem infMag_lt : infMag < 2 ^ 63 := by decide

@[simp] theorem fSign_roundPack (neg : Bool) (m : Nat) (e : Int) : fSign (roundPack neg m e) = neg :=
  fSign_packMag neg ((roundMag_le m e).trans_lt infMag_lt)

/-- A square is not negative. -/
theorem nonnegOrNaN_fmul_self (x : F64) : NonnegOrNaN (fmul x x) := by
  cases hc : fClass x with
  | nan => exact .inl (by rw [(arithmetic_of_nan (.inl (fIsNaN_iff.2 hc))).2.2.1, fIsNaN_propNaN])
  | inf s => exact .inr (by simp only [fmul, hc, fSign_packMag _ infMag_lt, Bool.xor_self])
  | fin s m e => exact .inr (by simp only [fmul, hc, fSign_roundPack, Bool.xor_self])

/-- Nor is a sum of two magnitudes. -/
theorem fSign_addFinite_false (m n : Nat) (e f : Int) :
    fSign (addFinite false m e false n f) = false := by
  simp only [addFinite]
  split
  · exact fSign_packMag _ (by decide)
  · rw [fSign_roundPack, decide_eq_false_iff_not, not_lt]
    simp only [signedInt, Bool.false_eq_true, if_false]
    positivity

theorem NonnegOrNaN.fClass_cases {x : F64} (h : NonnegOrNaN x) :
    fIsNaN x = true ∨ fClass x = .inf false ∨ ∃ m e, fClass x = .fin false m e := by
  rcases h with hnan | hsign
  · exact .inl hnan
  cases hc : fClass x with
  | nan => exact .inl (fIsNaN_iff.2 hc)
  | inf s => exact .inr (.inl (by rw [← fSign_of_fClass_inf hc, hsign]))
  | fin s m e => exact .inr (.inr ⟨m, e, by rw [← fSign_of_fClass_fin hc, hsign]⟩)

theorem NonnegOrNaN.fadd {x y : F64} (hx : NonnegOrNaN x) (hy : NonnegOrNaN y) :
    NonnegOrNaN (fadd x y) := by
  have hnan (h : fIsNaN x = true ∨ fIsNaN y = true) : NonnegOrNaN (Machine.fadd x y) :=
    .inl (by rw [(arithmetic_of_nan h).1, fIsNaN_propNaN])
  rcases hx.fClass_cases with hx | hx | ⟨m, e, hx⟩
  · exact hnan (.inl hx)
  · rcases hy.fClass_cases with hy | hy | ⟨n, f, hy⟩
    · exact hnan (.inr hy)
    · exact .inr (by simp [Machine.fadd, hx, hy, fSign_of_fClass_inf hx])
    · exact .inr (by simp [Machine.fadd, hx, hy, fSign_of_fClass_inf hx])
  · rcases hy.fClass_cases with hy | hy | ⟨n, f, hy⟩
    · exact hnan (.inr hy)
    · exact .inr (by simp [Machine.fadd, hx, hy, fSign_of_fClass_inf hy])
    · exact .inr (by simp [Machine.fadd, hx, hy, fSign_addFinite_false])

theorem NonnegOrNaN.fsqrt {x : F64} (hx : NonnegOrNaN x) : NonnegOrNaN (fsqrt x) := by
  rcases hx.fClass_cases with hx | hx | ⟨m, e, hx⟩
  · exact .inl (by rw [fsqrt_of_nan hx, fIsNaN_propNaN])
  · exact .inr (by simp [Machine.fsqrt, hx, fSign_of_fClass_inf hx])
  · refine .inr ?_
    simp only [Machine.fsqrt, hx]
    split
    · exact fSign_of_fClass_fin hx
    · exact fSign_roundPack ..

/-- Settles O31: a magnitude is the root of a sum of two squares. -/
theorem magnitudesAreNeverNegative : Obligations.MagnitudesAreNeverNegative := by
  intro n k d
  unfold untangleAt
  split
  · exact ((nonnegOrNaN_fmul_self _).fadd (nonnegOrNaN_fmul_self _)).fsqrt
  · exact ((nonnegOrNaN_fmul_self _).fadd (nonnegOrNaN_fmul_self _)).fsqrt

end Sys2Proof.Machine
end

section
/-! PROOFS. Exact results of binary64 (00_scope.md R12): finite patterns are ordered as their magnitudes,
rounding keeps the bounds of an exact result that are binary64 numbers, and the numbers of at most 53 bits
are such. -/

namespace Sys2Proof.Machine

/-! ### The order of finite patterns -/

theorem fIsFinite_iff {x : F64} : fIsFinite x = true ↔ fMag x < infMag := by
  have hlt := fMag_lt x
  rw [fIsFinite, decide_eq_true_iff, fExp_eq_fMag_div, infMag]
  omega

theorem fIsFinite_of_fClass_fin {x : F64} {s : Bool} {m : Nat} {e : Int} (h : fClass x = .fin s m e) :
    fIsFinite x = true := by
  rw [fIsFinite, decide_eq_true_iff]
  intro hexp
  rw [fClass, if_pos hexp] at h
  split_ifs at h

theorem eq_packMag_of_fClass_inf {x : F64} {s : Bool} (h : fClass x = .inf s) :
    x = packMag s infMag := by
  have hexp := fExp_eq_fMag_div x
  have hfrac := fFrac_eq_fMag_mod x
  have hmag : fMag x = infMag := by
    unfold infMag
    unfold fClass at h
    split_ifs at h
    omega
  rw [← fSign_of_fClass_inf h, ← hmag, packMag_fSign_fMag]

/-- The number that a magnitude stands for. -/
noncomputable def magVal (mag : Nat) : ℝ :=
  (mag - (mag / 2 ^ 52 - 1) * 2 ^ 52 : Nat) * 2 ^ (((mag / 2 ^ 52 - 1 : Nat) : Int) - 1074)

/-- A magnitude is an exponent field and a significand added below it. -/
theorem magVal_spec (mag : Nat) :
    ∃ c sig : Nat, mag = c * 2 ^ 52 + sig ∧ sig < 2 ^ 53 ∧ (c = 0 ∨ 2 ^ 52 ≤ sig) ∧
      magVal mag = sig * 2 ^ ((c : Int) - 1074) :=
  ⟨mag / 2 ^ 52 - 1, mag - (mag / 2 ^ 52 - 1) * 2 ^ 52, by omega, by omega, by omega, rfl⟩

theorem magVal_nonneg (mag : Nat) : 0 ≤ magVal mag := by unfold magVal; positivity

theorem magVal_strictMono : StrictMono magVal := by
  intro a b hab
  obtain ⟨c, sig, rfl, hsig, hnorm, ha⟩ := magVal_spec a
  obtain ⟨c', sig', rfl, hsig', hnorm', hb⟩ := magVal_spec b
  rw [ha, hb]
  rcases (show c ≤ c' by omega).eq_or_lt with rfl | hlt
  · have : (sig : ℝ) < sig' := by exact_mod_cast (show sig < sig' by omega)
    gcongr
  · have hcast : (sig : ℝ) < 2 ^ 53 := by exact_mod_cast hsig
    have hcast' : (2 : ℝ) ^ 52 ≤ sig' := by exact_mod_cast hnorm'.resolve_left (by omega)
    calc (sig : ℝ) * 2 ^ ((c : Int) - 1074) < 2 ^ 53 * 2 ^ ((c : Int) - 1074) := by gcongr
      _ = 2 ^ 52 * 2 ^ ((c : Int) - 1074 + 1) := by rw [zpow_add_one₀ two_ne_zero]; ring
      _ ≤ sig' * 2 ^ ((c' : Int) - 1074) := by
        gcongr
        · exact one_le_two
        · omega

theorem fVal_eq_sgn_mul_magVal {x : F64} (h : fIsFinite x = true) :
    (fVal x : ℝ) = sgn (fSign x) * magVal (fMag x) := by
  obtain ⟨c, sig, hmag, hsig, hnorm, hval⟩ := magVal_spec (fMag x)
  rw [hval]
  conv_lhs => rw [← packMag_fSign_fMag x, hmag]
  exact fVal_packMag (hmag ▸ fIsFinite_iff.1 h) hsig.le hnorm

theorem abs_fVal {x : F64} (h : fIsFinite x = true) : |(fVal x : ℝ)| = magVal (fMag x) := by
  rw [fVal_eq_sgn_mul_magVal h, abs_mul, abs_sgn, one_mul, abs_of_nonneg (magVal_nonneg _)]

section
variable {x y : F64} (hx : fIsFinite x = true) (hy : fIsFinite y = true)
include hx hy

/-- Finite patterns are ordered as their magnitudes. -/
theorem abs_fVal_le_iff : |(fVal x : ℝ)| ≤ |(fVal y : ℝ)| ↔ fMag x ≤ fMag y := by
  rw [abs_fVal hx, abs_fVal hy, magVal_strictMono.le_iff_le]

/-- A sign and a value belong to one finite pattern. -/
theorem eq_of_fVal_eq (hsign : fSign x = fSign y) (h : (fVal x : ℝ) = fVal y) : x = y := by
  have hmag : fMag x = fMag y := magVal_strictMono.injective <| by
    rw [← abs_fVal hx, ← abs_fVal hy, h]
  rw [← packMag_fSign_fMag x, ← packMag_fSign_fMag y, hsign, hmag]

end

theorem isZero_of_fVal {x : F64} (hx : fIsFinite x = true) (h : (fVal x : ℝ) = 0) : isZero x := by
  have h0 : |(fVal x : ℝ)| ≤ |(fVal 0#64 : ℝ)| := by rw [h, abs_zero]; exact abs_nonneg _
  exact isZero_of_fMag (Nat.le_zero.1 ((abs_fVal_le_iff hx rfl).1 h0))

theorem isZero.finite {x : F64} (h : isZero x) : fIsFinite x = true ∧ (fVal x : ℝ) = 0 := by
  obtain ⟨s, rfl⟩ := isZero_iff.1 h
  exact ⟨fIsFinite_packMag s (by decide), fVal_packMag_zero s⟩

/-! ### The sign bit alone -/

theorem fMag_fneg (x : F64) : fMag (fneg x) = fMag x := by
  rw [fMag, fneg, BitVec.toNat_xor, Nat.xor_mod_two_pow]
  exact Nat.xor_zero _

theorem fSign_fneg (x : F64) : fSign (fneg x) = !fSign x := by
  simp [fSign, fneg]

theorem fneg_finite {x : F64} (h : fIsFinite x = true) :
    fIsFinite (fneg x) = true ∧ (fVal (fneg x) : ℝ) = -fVal x := by
  have hfin : fIsFinite (fneg x) = true := by rwa [fIsFinite_iff, fMag_fneg, ← fIsFinite_iff]
  refine ⟨hfin, ?_⟩
  rw [fVal_eq_sgn_mul_magVal hfin, fVal_eq_sgn_mul_magVal h, fMag_fneg, fSign_fneg, sgn_not, neg_mul]

/-! ### Numbers of at most 53 bits -/

/-- Some finite pattern stands for `v`. -/
def Representable (v : ℝ) : Prop := ∃ z : F64, fIsFinite z = true ∧ (fVal z : ℝ) = v

theorem mul_zpow_lt_overflow {m : Nat} {e : Int} (hm : m < 2 ^ 53) (he : e ≤ 971) :
    (m : ℝ) * 2 ^ e < 2 ^ 1024 - 2 ^ 970 := by
  have hm' : (m : ℝ) ≤ 2 ^ 53 - 1 := by
    have : (m : ℝ) + 1 ≤ 2 ^ 53 := by exact_mod_cast hm
    linarith
  have hpow : (2 : ℝ) ^ e ≤ 2 ^ 970 * 2 := by
    rw [← pow_succ, ← zpow_natCast]
    exact zpow_le_zpow_right₀ one_le_two he
  have hpos : (0 : ℝ) < 2 ^ 970 := by positivity
  rw [show (2 : ℝ) ^ 1024 = 2 ^ 970 * 2 ^ 54 from pow_add 2 970 54]
  generalize (2 : ℝ) ^ 970 = p at *
  calc (m : ℝ) * 2 ^ e ≤ (2 ^ 53 - 1) * (p * 2) := by gcongr
    _ < p * 2 ^ 54 - p := by linarith

theorem Representable.abs_lt {v : ℝ} (h : Representable v) : |v| < 2 ^ 1024 - 2 ^ 970 := by
  obtain ⟨z, hz, rfl⟩ := h
  obtain ⟨s, m, e, hc, hm, -, he⟩ := fClass_of_finite hz
  rw [fVal_of_fClass hc, abs_mul, abs_sgn, one_mul, abs_of_nonneg (by positivity)]
  exact mul_zpow_lt_overflow hm he

/-- A number of at most 53 bits at a last place in range needs no rounding. -/
theorem representable_of_lt {m : Nat} {e : Int} (hm : m < 2 ^ 53) (he : -1074 ≤ e) (he' : e ≤ 971)
    (neg : Bool) : Representable (sgn neg * (m * 2 ^ e)) := by
  rcases eq_or_ne m 0 with rfl | hm0
  · exact ⟨packMag neg 0, fIsFinite_packMag neg (by decide), by simp [fVal_packMag_zero]⟩
  have hq : lastPlace m e ≤ e := by
    have : Nat.log2 m < 53 := (Nat.log2_lt hm0).2 hm
    exact max_le (by omega) he
  have hp := (StandsFor.refl m).placed hm0 e
  have hk := (StandsFor.refl m).nearestInt_roundedSig e
  have hscale : (m : ℝ) * 2 ^ (e - lastPlace m e) * 2 ^ lastPlace m e = m * 2 ^ e := by
    rw [mul_assoc, ← zpow_add₀ two_ne_zero, sub_add_cancel]
  have hfin := (hp.lt_infMag_iff hk).2 (hscale.trans_lt (mul_zpow_lt_overflow hm he'))
  refine ⟨_, fIsFinite_packMag neg hfin, ?_⟩
  have hunder := hp.underflow
  rw [fVal_packMag hfin (hp.sig_le hk) ((hp.sig_normal hk).imp_left fun h => by omega), ← hscale,
    roundedSig, if_pos hq]
  push_cast
  rw [← zpow_natCast, Int.toNat_of_nonneg (by omega)]
  congr 3
  omega

theorem representable_int {n e : Int} (hn : |n| < 2 ^ 53) (he : -1074 ≤ e) (he' : e ≤ 971) :
    Representable (n * 2 ^ e) := by
  have hm : n.natAbs < 2 ^ 53 := by
    rw [Int.abs_eq_natAbs] at hn
    omega
  rw [← sgn_mul_natAbs n, mul_assoc]
  exact representable_of_lt hm he he' _

theorem representable_intCast {n : Int} (h : |n| < 2 ^ 53) : Representable n := by
  simpa using representable_int (e := 0) h (by decide) (by decide)

theorem representable_div {n : Int} {k : Nat} (hn : |n| < 2 ^ 53) (hk : k ≤ 1074) :
    Representable (n / 2 ^ k) := by
  rw [div_eq_mul_inv, ← zpow_natCast, ← zpow_neg]
  exact representable_int hn (by omega) (by omega)

theorem representable_zero : Representable 0 := ⟨0#64, rfl, (isZero.finite (.inl rfl)).2⟩

/-! ### Bounds of a rounded result -/

/-- A number below the exact result is below the rounded one. -/
theorem nearestTo.le_of_le {r : F64} {v a : ℝ} (h : nearestTo r v) (ha : Representable a)
    (hav : a ≤ v) : a ≤ fVal r := by
  obtain ⟨z, hz, rfl⟩ := ha
  by_contra! hlt
  have hle := (h.2 z hz).1
  rw [abs_of_nonpos (by linarith), abs_of_nonpos (by linarith)] at hle
  linarith

theorem nearestTo.le_of_ge {r : F64} {v b : ℝ} (h : nearestTo r v) (hb : Representable b)
    (hvb : v ≤ b) : fVal r ≤ b := by
  obtain ⟨z, hz, rfl⟩ := hb
  by_contra! hlt
  have hle := (h.2 z hz).1
  rw [abs_of_nonneg (by linarith), abs_of_nonneg (by linarith)] at hle
  linarith

/-- An exact result between two binary64 numbers is rounded to a finite one between them. -/
theorem RoundsTo.mem_Icc {r : F64} {v a b : ℝ} (h : RoundsTo r v) (ha : Representable a)
    (hb : Representable b) (hav : a ≤ v) (hvb : v ≤ b) :
    fIsFinite r = true ∧ a ≤ fVal r ∧ fVal r ≤ b := by
  have hv : |v| < 2 ^ 1024 - 2 ^ 970 :=
    (abs_le_max_abs_abs hav hvb).trans_lt (max_lt ha.abs_lt hb.abs_lt)
  have hnear := h.1 hv
  exact ⟨hnear.1, hnear.le_of_le ha hav, hnear.le_of_ge hb hvb⟩

/-- An exact result that is a binary64 number is not changed. -/
theorem RoundsTo.exact {r : F64} {v : ℝ} (h : RoundsTo r v) (hv : Representable v) :
    fIsFinite r = true ∧ (fVal r : ℝ) = v := by
  obtain ⟨hfin, hle, hge⟩ := h.mem_Icc hv hv le_rfl le_rfl
  exact ⟨hfin, le_antisymm hge hle⟩

/-- An exact result 0 is rounded to a zero. -/
theorem RoundsTo.isZero {r : F64} (h : RoundsTo r 0) : isZero r := by
  obtain ⟨hfin, hval⟩ := h.exact representable_zero
  exact isZero_of_fVal hfin hval

/-! ### Integers and scaling -/

theorem roundsTo_i2f (k : Int) : RoundsTo (i2f k) k := by
  have h := (StandsFor.refl k.natAbs).roundsTo_roundPack (decide (k < 0)) 0
  rwa [zpow_zero, mul_one, sgn_mul_natAbs] at h

/-- `i2f` is exact below 2^53. -/
theorem i2f_exact {k : Int} (h : |k| < 2 ^ 53) : fIsFinite (i2f k) = true ∧ (fVal (i2f k) : ℝ) = k :=
  (roundsTo_i2f k).exact (representable_intCast h)

theorem roundsTo_ldexp {x : F64} (hx : fIsFinite x = true) (k : Int) :
    RoundsTo (ldexp x k) (fVal x * 2 ^ k) := by
  obtain ⟨s, m, e, hc, -⟩ := fClass_of_finite hx
  simp only [ldexp, hc, fVal_of_fClass hc]
  convert (StandsFor.refl m).roundsTo_roundPack s (e + k) using 1
  rw [zpow_add₀ two_ne_zero]
  ring

end Sys2Proof.Machine
end

section
/-! PROOFS. The leakage filter (41_spectral.md R170, R171, R175): its angles and sines, its values for the
leakages 0, -1 and 1, and that it is above 0 for the leakage of every record (42_transcoder.md R193). -/

namespace Sys2Proof.Machine

/-! ### Zeros and ones -/

theorem isZero_fmul {x y : F64} (hx : isZero x) (hy : fIsFinite y = true) : isZero (fmul x y) := by
  obtain ⟨hxfin, hx0⟩ := hx.finite
  have hround := roundsTo_fmul hxfin hy
  rw [hx0, zero_mul] at hround
  exact hround.isZero

theorem isZero_fdiv {x y : F64} (hx : isZero x) (hy : fIsFinite y = true) (hne : fVal y ≠ 0) :
    isZero (fdiv x y) := by
  obtain ⟨hxfin, hx0⟩ := hx.finite
  have hround := roundsTo_fdiv hxfin hy hne
  rw [hx0, zero_div] at hround
  exact hround.isZero

/-- The square of a zero is +0. -/
theorem fmul_self_of_isZero {x : F64} (h : isZero x) : fmul x x = 0#64 := by
  rcases h with rfl | rfl <;> rfl

theorem fVal_fOne : (fVal fOne : ℝ) = 1 := by
  rw [fVal_of_fClass (show fClass fOne = .fin false (2 ^ 52) (-52) from rfl)]
  norm_num

theorem fVal_fFour : (fVal fFour : ℝ) = 4 := by
  rw [fVal_of_fClass (show fClass fFour = .fin false (2 ^ 52) (-50) from rfl)]
  norm_num

/-- PI64 is below 22/7. -/
theorem fVal_pi64 : 0 ≤ (fVal Config.pi64 : ℝ) ∧ (fVal Config.pi64 : ℝ) ≤ 22 / 7 := by
  rw [fVal_of_fClass (show fClass Config.pi64 = .fin false 0x1921FB54442D18 (-51) from rfl)]
  norm_num

/-! ### The angle and the sine -/

/-- `sin(pi i / (2 n_half))` as R171 takes it. -/
def filterSine (nHalf i : Nat) : F64 :=
  fsin (fdiv (fmul Config.pi64 (i2f i)) (i2f (2 * nHalf : Nat)))

theorem leakageAt_fsin (nHalf : Nat) (l : F64) (i : Nat) :
    leakageAt fsin nHalf l i = fsqrt (fsub (fmul (fadd fOne l) (fadd fOne l))
      (fmul (fmul fFour l) (fmul (filterSine nHalf i) (filterSine nHalf i)))) := rfl

/-- The square of a number of magnitude at most `b` is between 0 and `b * b`. -/
theorem fmul_self_mem_Icc {x : F64} {b : ℝ} (hx : fIsFinite x = true) (hb : |(fVal x : ℝ)| ≤ b)
    (hrep : Representable (b * b)) :
    fIsFinite (fmul x x) = true ∧ 0 ≤ (fVal (fmul x x) : ℝ) ∧ (fVal (fmul x x) : ℝ) ≤ b * b := by
  refine (roundsTo_fmul hx hx).mem_Icc representable_zero hrep (mul_self_nonneg _) ?_
  rw [← abs_mul_abs_self]
  exact mul_self_le_mul_self (abs_nonneg _) hb

/-- Every sine is finite and in [-1, 1]. -/
theorem fsin_bounds (x : F64) : fIsFinite (fsin x) = true ∧ |(fVal (fsin x) : ℝ)| ≤ 1 := by
  have hmag : fMag (fsin x) ≤ fMag fOne := (fMag_fsin x).trans (sinBound_le _).2
  have hfin : fIsFinite (fsin x) = true := fIsFinite_iff.2 (hmag.trans_lt (by decide))
  refine ⟨hfin, ?_⟩
  simpa [fVal_fOne] using (abs_fVal_le_iff hfin (y := fOne) rfl).2 hmag

/-- Up to the angle 99/64 the sine is at most 1 - 2^-12. -/
theorem abs_fVal_fsin_le {x : F64} (hx : fIsFinite x = true) (h : |(fVal x : ℝ)| ≤ 99 / 64) :
    |(fVal (fsin x) : ℝ)| ≤ 4095 / 4096 := by
  have hangle : (fVal 0x3FF8C00000000000#64 : ℝ) = 99 / 64 := by
    rw [fVal_of_fClass (show fClass 0x3FF8C00000000000#64 = .fin false (99 * 2 ^ 46) (-52) from rfl)]
    norm_num
  have hbound : (fVal 0x3FEFFE0000000000#64 : ℝ) = 4095 / 4096 := by
    rw [fVal_of_fClass (show fClass 0x3FEFFE0000000000#64 = .fin false (4095 * 2 ^ 41) (-53) from rfl)]
    norm_num
  have hmag : fMag x ≤ 0x3FF8C00000000000 :=
    (abs_fVal_le_iff hx (y := 0x3FF8C00000000000#64) rfl).1 <| by
      rwa [hangle, abs_of_pos (by norm_num : (0 : ℝ) < 99 / 64)]
  have hsin : fMag (fsin x) ≤ 0x3FEFFE0000000000 := (fMag_fsin x).trans (sinBound_le_of_angle hmag)
  have hle := (abs_fVal_le_iff (fsin_bounds x).1 (y := 0x3FEFFE0000000000#64) rfl).2 hsin
  rwa [hbound, abs_of_pos (by norm_num : (0 : ℝ) < 4095 / 4096)] at hle

/-- The angles of the filter of 64 values are at most 99/64 (log entry 8). -/
theorem filter_angle_bounds {k : Nat} (hk : k < 64) :
    let t := fdiv (fmul Config.pi64 (i2f k)) (i2f (2 * 64 : Nat))
    fIsFinite t = true ∧ |(fVal t : ℝ)| ≤ 99 / 64 := by
  intro t
  obtain ⟨hkfin, hkval⟩ := i2f_exact (k := k) (by rw [abs_of_nonneg] <;> omega)
  obtain ⟨h128fin, h128⟩ := i2f_exact (k := (2 * 64 : Nat)) (by decide)
  obtain ⟨hpi0, hpi⟩ := fVal_pi64
  have hk63 : (k : ℝ) ≤ 63 := by exact_mod_cast Nat.le_of_lt_succ hk
  have h198 : Representable 198 := representable_intCast (n := 198) (by decide)
  have h99 : Representable (99 / 64) := by
    convert representable_div (n := 99) (k := 6) (by decide) (by decide) using 1
    norm_num
  have hprod := roundsTo_fmul (x := Config.pi64) rfl hkfin
  obtain ⟨hpfin, hp0, hp198⟩ := hprod.mem_Icc representable_zero h198
    (by rw [hkval]; push_cast; positivity)
    (by rw [hkval]; push_cast; nlinarith)
  have hquot := roundsTo_fdiv hpfin h128fin (by intro h0; rw [h0] at h128; norm_num at h128)
  rw [h128] at hquot
  obtain ⟨htfin, ht0, ht⟩ := hquot.mem_Icc representable_zero h99
    (by push_cast; positivity)
    (by push_cast; linarith)
  exact ⟨htfin, by rwa [abs_of_nonneg ht0]⟩

/-! ### The leakages 0, -1 and 1 -/

/-- With a zero leakage the filter is 1 (41_spectral.md R170). -/
theorem leakageAt_of_isZero (nHalf i : Nat) {l : F64} (hl : isZero l) :
    leakageAt fsin nHalf l i = fOne := by
  have hsq : fIsFinite (fmul (filterSine nHalf i) (filterSine nHalf i)) = true :=
    (fmul_self_mem_Icc (fsin_bounds _).1 (fsin_bounds _).2
      ⟨fOne, rfl, by rw [fVal_fOne, one_mul]⟩).1
  have hone : fadd fOne l = fOne := by rcases hl with rfl | rfl <;> decide +kernel
  have hfour : isZero (fmul fFour l) := by
    rcases hl with rfl | rfl
    · exact .inl rfl
    · exact .inr rfl
  rw [leakageAt_fsin, hone]
  rcases isZero_fmul hfour hsq with h | h <;> rw [h] <;> decide +kernel

/-- The angle of index 0 is a zero, and so is its sine. -/
theorem isZero_filterSine_zero {nHalf : Nat} (hlo : 1 ≤ nHalf) (hhi : nHalf ≤ 64) :
    isZero (filterSine nHalf 0) := by
  obtain ⟨hfin, hval⟩ := i2f_exact (k := (2 * nHalf : Nat)) (by rw [abs_of_nonneg] <;> omega)
  have hprod : isZero (fmul Config.pi64 (i2f (0 : Nat))) := .inl (by decide +kernel)
  refine isZero_fsin (isZero_fdiv hprod hfin fun h0 => ?_)
  rw [h0] at hval
  norm_cast at hval
  omega

/-- The filter at index 0 takes no account of the sine. -/
theorem leakageAt_zero {nHalf : Nat} (hlo : 1 ≤ nHalf) (hhi : nHalf ≤ 64) (l : F64) :
    leakageAt fsin nHalf l 0 =
      fsqrt (fsub (fmul (fadd fOne l) (fadd fOne l)) (fmul (fmul fFour l) 0#64)) := by
  rw [leakageAt_fsin, fmul_self_of_isZero (isZero_filterSine_zero hlo hhi)]

/-! ### The leakage of a record -/

/-- The leakage of an excursion record is a multiple of 2^-23 in (-1, 1] (42_transcoder.md R193). -/
theorem fVal_fneg_recordParam_one (bs : List Byte) :
    ∃ n : Int, -2 ^ 23 < n ∧ n ≤ 2 ^ 23 ∧ fIsFinite (fneg (recordParam bs 1)) = true ∧
      (fVal (fneg (recordParam bs 1)) : ℝ) = n / 2 ^ 23 := by
  have hw : -2 ^ 23 ≤ recordWord bs 129 ∧ recordWord bs 129 < 2 ^ 23 :=
    ⟨BitVec.le_toInt _, BitVec.toInt_lt⟩
  have habs : |recordWord bs 129| < 2 ^ 53 := by
    rw [abs_lt]
    omega
  obtain ⟨hfin, hval⟩ := i2f_exact habs
  have hscaled := roundsTo_ldexp hfin (-23)
  rw [hval, zpow_neg, ← div_eq_mul_inv] at hscaled
  obtain ⟨hpfin, hpval⟩ := hscaled.exact (representable_div (k := 23) habs (by decide))
  obtain ⟨hnfin, hnval⟩ := fneg_finite hpfin
  refine ⟨-recordWord bs 129, by omega, by omega, hnfin, hnval.trans ?_⟩
  rw [hpval]
  push_cast
  ring

section
variable {l : F64} {n : Int} (hfin : fIsFinite l = true) (hval : (fVal l : ℝ) = n / 2 ^ 23)
  (hlo : -2 ^ 23 < n) (hhi : n ≤ 2 ^ 23)
include hfin hval hlo hhi

/-- `(1.0 + l) * (1.0 + l)` is exact. -/
theorem onePlus_squared_exact :
    fIsFinite (fmul (fadd fOne l) (fadd fOne l)) = true ∧
      (fVal (fmul (fadd fOne l) (fadd fOne l)) : ℝ) = (2 ^ 23 + n) ^ 2 / 2 ^ 46 := by
  have hsum := roundsTo_fadd (x := fOne) rfl hfin
  have hsq : (2 ^ 23 + n) ^ 2 ≤ (2 ^ 24) ^ 2 := by gcongr <;> omega
  rw [fVal_fOne, hval, show (1 : ℝ) + n / 2 ^ 23 = (2 ^ 23 + n : Int) / 2 ^ 23 by push_cast; ring]
    at hsum
  obtain ⟨hsfin, hsval⟩ := hsum.exact (representable_div (by rw [abs_of_nonneg] <;> omega) (by decide))
  have hprod := roundsTo_fmul hsfin hsfin
  rw [hsval, show ((2 ^ 23 + n : Int) / 2 ^ 23 : ℝ) * ((2 ^ 23 + n : Int) / 2 ^ 23) =
    ((2 ^ 23 + n) ^ 2 : Int) / 2 ^ 46 by push_cast; ring] at hprod
  obtain ⟨hpfin, hpval⟩ := hprod.exact <| representable_div (by
    rw [abs_of_nonneg (sq_nonneg _)]
    omega) (by decide)
  exact ⟨hpfin, by rw [hpval]; push_cast; ring⟩

/-- `4.0 * l` is exact. -/
theorem fFour_mul_exact : fIsFinite (fmul fFour l) = true ∧ (fVal (fmul fFour l) : ℝ) = n / 2 ^ 21 := by
  have hprod := roundsTo_fmul (x := fFour) rfl hfin
  rw [fVal_fFour, hval, show (4 : ℝ) * (n / 2 ^ 23) = n / 2 ^ 21 by ring] at hprod
  exact hprod.exact (representable_div (by rw [abs_lt]; omega) (by decide))

omit hfin hval in
/-- The gap of the radicand: `4 l s2` stays 2^-46 below `(1 + l)^2`, and so does a binary64 number above
it. -/
theorem exists_representable_between {s2 : ℝ} (h0 : 0 ≤ s2) (h1 : s2 ≤ 4095 / 4096 * (4095 / 4096)) :
    ∃ c, Representable c ∧ n / 2 ^ 21 * s2 ≤ c ∧ 1 / 2 ^ 46 ≤ (2 ^ 23 + n : ℝ) ^ 2 / 2 ^ 46 - c := by
  rcases le_or_gt n 0 with hn | hn
  · have hn' : (n : ℝ) ≤ 0 := by exact_mod_cast hn
    have hone : (1 : ℝ) ≤ (2 ^ 23 + n) ^ 2 := by
      exact_mod_cast one_le_pow₀ (n := 2) (show 1 ≤ 2 ^ 23 + n by omega)
    refine ⟨0, representable_zero, mul_nonpos_of_nonpos_of_nonneg (by linarith) h0, ?_⟩
    linarith
  · have hn' : (0 : ℝ) < n := by exact_mod_cast hn
    refine ⟨(n * 4095 ^ 2 : Int) / 2 ^ 45, representable_div (by rw [abs_of_pos] <;> omega) (by decide),
      ?_, ?_⟩
    · calc (n / 2 ^ 21 * s2 : ℝ) ≤ n / 2 ^ 21 * (4095 / 4096 * (4095 / 4096)) := by gcongr
        _ = (n * 4095 ^ 2 : Int) / 2 ^ 45 := by push_cast; ring
    · have hgap : (2 ^ 23 + n) ^ 2 - 2 * (n * 4095 ^ 2) = (2 ^ 23 - n) ^ 2 + 16382 * n := by ring
      have hpos : 1 ≤ (2 ^ 23 + n) ^ 2 - 2 * (n * 4095 ^ 2) := by
        rw [hgap]
        have := sq_nonneg (2 ^ 23 - n)
        omega
      have hcast : (1 : ℝ) ≤ (2 ^ 23 + n) ^ 2 - 2 * (n * 4095 ^ 2) := by exact_mod_cast hpos
      push_cast
      linarith

/-- The radicand of the filter is at least 2^-46 after its rounding. -/
theorem radicand_ge {x : F64} (hx : fIsFinite x = true) (h0 : 0 ≤ (fVal x : ℝ))
    (h1 : (fVal x : ℝ) ≤ 4095 / 4096 * (4095 / 4096)) :
    let r := fsub (fmul (fadd fOne l) (fadd fOne l)) (fmul (fmul fFour l) x)
    fIsFinite r = true ∧ 1 / 2 ^ 46 ≤ (fVal r : ℝ) := by
  intro r
  obtain ⟨hafin, haval⟩ := onePlus_squared_exact hfin hval hlo hhi
  obtain ⟨hffin, hfval⟩ := fFour_mul_exact hfin hval hlo hhi
  obtain ⟨c, hc, hle, hgap⟩ := exists_representable_between hlo hhi h0 h1
  have hn : -(2 : ℝ) ^ 23 ≤ n ∧ (n : ℝ) ≤ 2 ^ 23 := ⟨by exact_mod_cast hlo.le, by exact_mod_cast hhi⟩
  have hsq : (2 ^ 23 + n : ℝ) ^ 2 ≤ (2 ^ 24) ^ 2 := by
    gcongr <;> linarith
  -- The exact results lie in [-4, c] and in [2^-46, 8]; the ends are binary64 numbers.
  have hneg4 : Representable (-4) := by
    exact_mod_cast representable_intCast (n := -4) (by decide)
  have h8 : Representable 8 := representable_intCast (n := 8) (by decide)
  have hgapRep : Representable (1 / 2 ^ 46) := by
    simpa using representable_div (n := 1) (k := 46) (by decide) (by decide)
  have hcross := roundsTo_fmul hffin hx
  rw [hfval] at hcross
  obtain ⟨hbfin, hb4, hbc⟩ := hcross.mem_Icc hneg4 hc (by nlinarith) hle
  have hdiff := roundsTo_fsub hafin hbfin
  rw [haval] at hdiff
  obtain ⟨hrfin, hr, -⟩ := hdiff.mem_Icc hgapRep h8 (by linarith) (by linarith)
  exact ⟨hrfin, hr⟩

/-- The filter is above 0 for the leakage of a record. -/
theorem leakageAt_pos {k : Nat} (hk : k < 64) :
    fIsFinite (leakageAt fsin 64 l k) = true ∧ 0 < fVal (leakageAt fsin 64 l k) := by
  obtain ⟨htfin, ht⟩ := filter_angle_bounds hk
  obtain ⟨hs2fin, hs20, hs21⟩ :=
    fmul_self_mem_Icc (fsin_bounds _).1 (abs_fVal_fsin_le htfin ht) <| by
      convert representable_div (n := 4095 ^ 2) (k := 24) (by decide) (by decide) using 1
      norm_num
  obtain ⟨hrfin, hr⟩ := radicand_ge hfin hval hlo hhi hs2fin hs20 hs21
  have hr0 : (0 : ℝ) ≤ fVal _ := le_trans (by positivity) hr
  have hroot := nearestTo_fsqrt hrfin (by exact_mod_cast hr0)
  have hrep : Representable (1 / 2 ^ 23) := by
    simpa using representable_div (n := 1) (k := 23) (by decide) (by decide)
  have hle := hroot.le_of_le hrep (Real.le_sqrt_of_sq_le (hr.trans' (by norm_num)))
  refine ⟨hroot.1, ?_⟩
  have hpos : (0 : ℝ) < fVal (leakageAt fsin 64 l k) := hle.trans_lt' (by positivity)
  exact_mod_cast hpos

end

/-- Settles O27: the filter at a zero leakage, at index 0, and for the leakage of a record. -/
theorem leakageFilterCornerCases : Obligations.LeakageFilterCornerCases := by
  refine ⟨fun h i l => leakageAt_of_isZero h i, fun h hlo hhi => ?_, fun bs k hk => ?_⟩
  · rw [leakageAt_zero hlo hhi, leakageAt_zero hlo hhi]
    decide +kernel
  · obtain ⟨n, hlo, hhi, hfin, hval⟩ := fVal_fneg_recordParam_one bs
    exact leakageAt_pos hfin hval hlo hhi hk

end Sys2Proof.Machine
end

section
/-! PROOFS. The commands of the spectral engine (41_spectral.md R160, R170, R172, R175): a command that
writes binary64 values and completes reaches nothing else, and each leaves its function's values. -/

namespace Sys2Proof.Machine

/-! ### The binary64 values that a completed command wrote -/

/-- The state in which a command leaves the block that writes `vs` into the first elements of `b` and
nothing else. -/
def State.afterF64s (s : State) (b : Buffer) (vs : List F64) : State := (s.setF64s b vs).completeOk

section
variable {s : State} {b : Buffer} {vs : List F64}

theorem State.f64At_afterF64s {i : Nat} (hb : b.width = 8) (h : i < vs.length) :
    (s.afterF64s b vs).f64At b i = some vs[i] :=
  State.f64At_setF64s (s := s) hb h

theorem State.sameControl_afterF64s (h : vs.length ≤ b.count) : s.sameControl (s.afterF64s b vs) :=
  (State.Writes.none.setF64s h).sameControl_completeOk

theorem State.sameOutside_afterF64s {n : Nat} (hl : vs.length = n) :
    s.sameOutside (s.afterF64s b vs) [prefixWindow b n] :=
  State.sameOutside_of_mem (vs := vs.map BitVec.toNat) (by rw [List.length_map, hl]) rfl

end

/-! ### The transforms -/

theorem checkLength_of_legal {m : BitVec 8} (h2 : 2 ≤ m.toNat) (h7 : m.toNat ≤ 7) :
    checkLength m = none :=
  if_neg (by omega)

/-- The three transforms, for a legal length and with DATA written. -/
theorem transform_of_written {m : BitVec 8} {s : State} {d : List F64} (h2 : 2 ≤ m.toNat)
    (h7 : m.toNat ≤ 7) (hl : d.length = 2 ^ m.toNat)
    (hd : ∀ k (h : k < d.length), s.f64At .data k = some d[k]) (b : Buffer)
    (f : List F64 → List F64) :
    (checked (checkLength m) s <| s.withF64s .data (argLength m) fun d =>
      finishOk (s.setF64s b (f d))) = .next (s.afterF64s b (f d)) := by
  rw [checkLength_of_legal h2 h7, checked, State.withF64s_eq (n := argLength m) hl hd, finishOk,
    State.afterF64s]

/-- No legal length is beyond DATA (10_state.md R41). -/
theorem two_pow_le_of_legal {m : Nat} (h7 : m ≤ 7) : 2 ^ m ≤ 128 := Nat.pow_le_pow_right two_pos h7

/-- Settles O23: the completed state, read back in DATA. -/
theorem fftCompletes : Obligations.FftCompletes := by
  intro m s d h2 h7 hl hd
  have hlen : (rfft fsin fcos m.toNat d).length = 2 ^ m.toNat := by rw [rfft_length, hl]
  have hcap : 2 ^ m.toNat ≤ Buffer.data.count := two_pow_le_of_legal h7
  refine ⟨s.afterF64s .data (rfft fsin fcos m.toNat d), transform_of_written h2 h7 hl hd .data _,
    State.endedOk_completeOk _, State.sameControl_afterF64s (hlen.trans_le hcap), rfl, fun k hk => ?_,
    hlen, State.sameOutside_afterF64s hlen⟩
  rw [State.f64At_afterF64s rfl (hk.trans_eq hlen.symm), List.getElem?_eq_getElem]

/-- MAG as UNTANGLE leaves it (41_spectral.md R173). -/
theorem State.f64At_afterF64s_untangle {s : State} {n k : Nat} (d : List F64) (hk : k < n / 2) :
    (s.afterF64s .mag (untangle .hypot n d)).f64At .mag k = some (untangleAt .hypot n d k) := by
  rw [State.f64At_afterF64s rfl (by rwa [untangle_length]), untangle_getElem]

/-- MAG as UNTANGLE_LEAK leaves it (41_spectral.md R176). -/
theorem State.f64At_afterF64s_untangleLeakage {s : State} {n k : Nat} (d : List F64) (hk : k < n / 2) :
    (s.afterF64s .mag (untangleLeakage fsin .hypot n s.leakage d)).f64At .mag k =
      some (fdiv (untangleAt .hypot n d k) (leakageAt fsin (n / 2) s.leakage k)) := by
  rw [State.f64At_afterF64s rfl (by rwa [untangleLeakage_length]), untangleLeakage_getElem]

section
variable {m : BitVec 8} {s : State} {d : List F64} (h2 : 2 ≤ m.toNat) (h7 : m.toNat ≤ 7)
  (hl : d.length = 2 ^ m.toNat) (hd : ∀ k (h : k < d.length), s.f64At .data k = some d[k])
include h2 h7 hl hd

theorem exec_untangle_of_written :
    exec (.untangle m) s = .next (s.afterF64s .mag (untangle .hypot (2 ^ m.toNat) d)) :=
  transform_of_written h2 h7 hl hd .mag _

theorem exec_untangleLeak_of_written :
    exec (.untangleLeak m) s =
      .next (s.afterF64s .mag (untangleLeakage fsin .hypot (2 ^ m.toNat) s.leakage d)) :=
  transform_of_written h2 h7 hl hd .mag _

end

/-- Settles O28: the completed state, read back in MAG; index 0 is the branch of its own in R173. -/
theorem untangleCompletes : Obligations.UntangleCompletes := by
  intro m s d h2 h7 hl hd
  have hlen := untangle_length .hypot (2 ^ m.toNat) d
  have hcap : 2 ^ m.toNat / 2 ≤ Buffer.mag.count := Nat.div_le_div_right (two_pow_le_of_legal h7)
  have hpos : 0 < 2 ^ m.toNat / 2 :=
    Nat.div_pos (Nat.le_self_pow (by omega) 2) two_pos
  refine ⟨_, exec_untangle_of_written h2 h7 hl hd, State.endedOk_completeOk _,
    State.sameControl_afterF64s (hlen.trans_le hcap), rfl, ?_, fun k hk1 hk => ?_,
    State.sameOutside_afterF64s hlen⟩
  · rw [State.f64At_afterF64s_untangle d hpos, untangleAt, if_pos rfl, bin0]
  · rw [State.f64At_afterF64s_untangle d hk, untangleAt, if_neg (by omega)]

/-- Settles O29: the completed state, read back in MAG. -/
theorem untangleLeakCompletes : Obligations.UntangleLeakCompletes := by
  intro m s d h2 h7 hl hd
  have hlen := untangleLeakage_length fsin .hypot (2 ^ m.toNat) s.leakage d
  have hcap : 2 ^ m.toNat / 2 ≤ Buffer.mag.count := Nat.div_le_div_right (two_pow_le_of_legal h7)
  exact ⟨_, exec_untangleLeak_of_written h2 h7 hl hd, State.endedOk_completeOk _,
    State.sameControl_afterF64s (hlen.trans_le hcap), rfl,
    fun k hk => State.f64At_afterF64s_untangleLeakage d hk, State.sameOutside_afterF64s hlen⟩

/-! ### A zero leakage -/

/-- A number or an infinity divided by 1 is itself, bit for bit. -/
theorem fdiv_fOne {x : F64} (h : fIsNaN x = false) : fdiv x fOne = x := by
  have hone : fClass fOne = .fin false (2 ^ 52) (-52) := rfl
  cases hc : fClass x with
  | nan => exact absurd (fIsNaN_iff.2 hc) (by rw [h]; decide)
  | inf s =>
    simp only [fdiv, hc, hone, Bool.xor_false]
    exact (eq_packMag_of_fClass_inf hc).symm
  | fin s m e =>
    have hfin : fIsFinite x = true := fIsFinite_of_fClass_fin hc
    have hround := roundsTo_fdiv (y := fOne) hfin rfl (by exact_mod_cast fVal_fOne.trans_ne one_ne_zero)
    rw [fVal_fOne, div_one] at hround
    obtain ⟨hqfin, hqval⟩ := hround.exact ⟨x, hfin, rfl⟩
    have hsign : fSign (fdiv x fOne) = fSign x := by
      rw [fSign_of_fClass_fin hc]
      simp [fdiv, hc, hone]
    exact eq_of_fVal_eq hqfin hfin hsign hqval

/-- Settles O30: the filter is 1 for a zero leakage, and a quotient by 1 changes no number. -/
theorem zeroLeakageMakesUntangle : Obligations.ZeroLeakageMakesUntangle := by
  intro m s d h2 h7 hl hd hzero
  refine ⟨_, _, exec_untangleLeak_of_written h2 h7 hl hd, exec_untangle_of_written h2 h7 hl hd,
    fun k hk => ⟨_, _, State.f64At_afterF64s_untangleLeakage d hk, State.f64At_afterF64s_untangle d hk,
      ?_⟩⟩
  rw [leakageAt_of_isZero _ _ hzero]
  cases hnan : fIsNaN (untangleAt .hypot (2 ^ m.toNat) d k) with
  | false => exact .inl (fdiv_fOne hnan)
  | true =>
    refine .inr ⟨?_, rfl⟩
    rw [(arithmetic_of_nan (.inl hnan)).2.2.2, fIsNaN_propNaN]

/-! ### LEAKF -/

/-- Settles O26: the completed state, read back in LEAK. -/
theorem leakfCompletes : Obligations.LeakfCompletes := by
  intro h s hcap
  have hlen := leakageFilter_length fsin h.toNat s.leakage
  have hcheck : checkCount (argCount h) magCount = none := checkCount_of_le hcap
  have hexec : exec (.leakf h) s = .next (s.afterF64s .leak (leakageFilter fsin h.toNat s.leakage)) := by
    rw [exec, execLeakf, hcheck, checked, finishOk, State.afterF64s, argCount]
  refine ⟨_, hexec, State.endedOk_completeOk _, State.sameControl_afterF64s (hlen.trans_le hcap), rfl,
    fun i hi => ?_, State.sameOutside_afterF64s hlen⟩
  rw [State.f64At_afterF64s rfl (hi.trans_eq hlen.symm), leakageFilter_getElem]
  rfl

end Sys2Proof.Machine
end

section
/-! PROOFS. RFFT for the short lengths (41_spectral.md R162, R177 (a)): which butterflies each stage runs,
what they leave of 4, 8 or 16 samples, and that stages up to length 8 run no twiddle loop. -/

namespace Sys2Proof.Machine

/-! ### Which butterflies a stage runs -/

section
variable (body : Nat → List F64 → List F64) (d : List F64)

/-- R162 (2) pairs the neighbours at 0, 4, 8, ... and at 6. -/
theorem length2_schedule_four : lShapedLoop 3 2 body 4 0 4 d = body 0 d := rfl

theorem length2_schedule_eight : lShapedLoop 7 2 body 8 0 4 d = body 6 (body 4 (body 0 d)) := rfl

theorem length2_schedule_sixteen :
    lShapedLoop 15 2 body 16 0 4 d = body 6 (body 12 (body 8 (body 4 (body 0 d)))) := rfl

/-- The stage of length 4 of R162 (3), among 4, 8 and 16 samples. -/
theorem length4_schedule_four : lShapedLoop 4 4 body 4 0 8 d = body 0 d := rfl

theorem length4_schedule_eight : lShapedLoop 8 4 body 8 0 8 d = body 0 d := rfl

theorem length4_schedule_sixteen :
    lShapedLoop 16 4 body 16 0 8 d = body 12 (body 8 (body 0 d)) := rfl

/-- The stage of length 8, among 8 and 16 samples. -/
theorem length8_schedule_eight : lShapedLoop 8 8 body 8 0 16 d = body 0 d := rfl

theorem length8_schedule_sixteen : lShapedLoop 16 8 body 16 0 16 d = body 0 d := rfl

/-- The stage of length 16. -/
theorem length16_schedule_sixteen : lShapedLoop 16 16 body 16 0 32 d = body 0 d := rfl

end

/-- A stage of length 4 or 8 is its first loop: its twiddle loop has no round. -/
theorem combineStage_of_short {n2 : Nat} (h : n2 / 8 ≤ 1) (sn cs : F64 → F64) (n : Nat)
    (d : List F64) :
    combineStage sn cs n n2 d = lShapedLoop n n2 (combine (n2 / 4) (n2 / 8)) n 0 (2 * n2) d := by
  have hrounds : n2 / 8 - 1 = 0 := by omega
  rw [combineStage, hrounds]
  rfl

theorem combineStage_four (sn cs : F64 → F64) (n : Nat) (d : List F64) :
    combineStage sn cs n 4 d = lShapedLoop n 4 (combine 1 0) n 0 8 d :=
  combineStage_of_short (by decide) sn cs n d

theorem combineStage_eight (sn cs : F64 → F64) (n : Nat) (d : List F64) :
    combineStage sn cs n 8 d = lShapedLoop n 8 (combine 2 1) n 0 16 d :=
  combineStage_of_short (by decide) sn cs n d

/-- The stage of length 16 has one round of the twiddle loop, at the angle 2 PI64 / 16. -/
theorem combineStage_sixteen (sn cs : F64 → F64) (d : List F64) :
    combineStage sn cs 16 16 d =
      rotate 4 2 (twiddleAt sn cs (fdiv (fmul fTwo Config.pi64) (i2f 16))) 0 (combine 4 2 0 d) :=
  calc combineStage sn cs 16 16 d
    _ = lShapedLoop 16 16 (rotate 4 2 (twiddleAt sn cs (fdiv (fmul fTwo Config.pi64) (i2f 16))))
          16 0 32 (lShapedLoop 16 16 (combine 4 2) 16 0 32 d) := rfl
    _ = _ := by rw [length16_schedule_sixteen, length16_schedule_sixteen]

/-! ### RFFT by its butterflies -/

section
variable (sn cs : F64 → F64) (d : List F64)

theorem rfft_two : rfft sn cs 2 d = combine 1 0 0 (butterfly2 0 (bitReverse 4 d)) :=
  calc rfft sn cs 2 d
    _ = combineStage sn cs 4 4 (length2Stage 4 (bitReverse 4 d)) := rfl
    _ = _ := by
      rw [combineStage_four, length2Stage, length4_schedule_four, length2_schedule_four]

theorem rfft_three :
    rfft sn cs 3 d =
      combine 2 1 0 (combine 1 0 0 (butterfly2 6 (butterfly2 4 (butterfly2 0 (bitReverse 8 d))))) :=
  calc rfft sn cs 3 d
    _ = combineStage sn cs 8 8 (combineStage sn cs 8 4 (length2Stage 8 (bitReverse 8 d))) := rfl
    _ = _ := by
      rw [combineStage_eight, combineStage_four, length2Stage, length8_schedule_eight,
        length4_schedule_eight, length2_schedule_eight]

theorem rfft_four :
    rfft sn cs 4 d =
      rotate 4 2 (twiddleAt sn cs (fdiv (fmul fTwo Config.pi64) (i2f 16))) 0 (combine 4 2 0
        (combine 2 1 0 (combine 1 0 12 (combine 1 0 8 (combine 1 0 0 (butterfly2 6 (butterfly2 12
          (butterfly2 8 (butterfly2 4 (butterfly2 0 (bitReverse 16 d))))))))))) :=
  calc rfft sn cs 4 d
    _ = combineStage sn cs 16 16 (combineStage sn cs 16 8 (combineStage sn cs 16 4
          (length2Stage 16 (bitReverse 16 d)))) := rfl
    _ = _ := by
      rw [combineStage_sixteen, combineStage_eight, combineStage_four, length2Stage,
        length8_schedule_sixteen, length4_schedule_sixteen, length2_schedule_sixteen]

end

/-! ### The samples of a short RFFT -/

section
variable (sn cs : F64 → F64) (x0 x1 x2 x3 x4 x5 x6 x7 x8 x9 x10 x11 x12 x13 x14 x15 : F64)

theorem rfft_two_samples :
    rfft sn cs 2 [x0, x1, x2, x3] =
      [fadd (fadd x0 x2) (fadd x3 x1), fsub x0 x2, fsub (fadd x0 x2) (fadd x3 x1), fsub x3 x1] := by
  have hrev : bitReverse 4 [x0, x1, x2, x3] = [x0, x2, x1, x3] := rfl
  rw [rfft_two, hrev]
  rfl

theorem rfft_three_samples :
    rfft sn cs 3 [x0, x1, x2, x3, x4, x5, x6, x7] = combine 2 1 0
      [fadd (fadd x0 x4) (fadd x6 x2), fsub x0 x4, fsub (fadd x0 x4) (fadd x6 x2), fsub x6 x2,
        fadd x1 x5, fsub x1 x5, fadd x3 x7, fsub x3 x7] := by
  have hrev : bitReverse 8 [x0, x1, x2, x3, x4, x5, x6, x7] = [x0, x4, x2, x6, x1, x5, x3, x7] := rfl
  rw [rfft_three, hrev]
  rfl

/-- The stage of length 8 on its eight samples. -/
theorem combine_two_one_samples :
    combine 2 1 0 [x0, x1, x2, x3, x4, x5, x6, x7] =
      [fadd x0 (fadd x6 x4), fadd x1 (fdiv (fsub x5 x7) sqrt2), x2, fsub x1 (fdiv (fsub x5 x7) sqrt2),
        fsub x0 (fadd x6 x4), fsub (fneg x3) (fdiv (fadd x5 x7) sqrt2), fsub x6 x4,
        fsub x3 (fdiv (fadd x5 x7) sqrt2)] := rfl

/-- The combination of eight samples with twice four: the stage of length 16 but for the twiddle loop. -/
theorem combine_four_two_samples :
    combine 4 2 0 [x0, x1, x2, x3, x4, x5, x6, x7, x8, x9, x10, x11, x12, x13, x14, x15] =
      [fadd x0 (fadd x12 x8), x1, fadd x2 (fdiv (fsub x10 x14) sqrt2), x3, x4, x5,
        fsub x2 (fdiv (fsub x10 x14) sqrt2), x7, fsub x0 (fadd x12 x8), x9,
        fsub (fneg x6) (fdiv (fadd x10 x14) sqrt2), x11, fsub x12 x8, x13,
        fsub x6 (fdiv (fadd x10 x14) sqrt2), x15] := rfl

/-- The twiddle loop's round of the stage of length 16. -/
theorem rotate_samples (w : Twiddle) :
    rotate 4 2 w 0 [x0, x1, x2, x3, x4, x5, x6, x7, x8, x9, x10, x11, x12, x13, x14, x15] =
      let t1 := fadd (fmul x9 w.cc1) (fmul x11 w.ss1)
      let t2 := fsub (fmul x11 w.cc1) (fmul x9 w.ss1)
      let t3 := fadd (fmul x13 w.cc3) (fmul x15 w.ss3)
      let t4 := fsub (fmul x15 w.cc3) (fmul x13 w.ss3)
      [x0, fadd x1 (fadd t1 t3), x2, fsub x3 (fsub t2 t4), x4, fadd x3 (fsub t2 t4), x6,
        fsub x1 (fadd t1 t3), x8, fsub (fadd t2 t4) x7, x10, fsub (fneg x5) (fsub t1 t3), x12,
        fsub x5 (fsub t1 t3), x14, fadd x7 (fadd t2 t4)] := by
  simp [rotate, dGet, dSet]

/-- Before its last stage RFFT(16) holds RFFT(8) of the even samples and RFFT(4) of every fourth sample from
the first and from the third. -/
theorem rfft_four_samples :
    rfft sn cs 4 [x0, x1, x2, x3, x4, x5, x6, x7, x8, x9, x10, x11, x12, x13, x14, x15] =
      rotate 4 2 (twiddleAt sn cs (fdiv (fmul fTwo Config.pi64) (i2f 16))) 0 (combine 4 2 0
        (rfft sn cs 3 [x0, x2, x4, x6, x8, x10, x12, x14] ++ rfft sn cs 2 [x1, x5, x9, x13] ++
          rfft sn cs 2 [x3, x7, x11, x15])) := by
  have hrev : bitReverse 16 [x0, x1, x2, x3, x4, x5, x6, x7, x8, x9, x10, x11, x12, x13, x14, x15] =
      [x0, x8, x4, x12, x2, x10, x6, x14, x1, x9, x5, x13, x3, x11, x7, x15] := rfl
  rw [rfft_four, hrev, rfft_three_samples, rfft_two_samples, rfft_two_samples, combine_two_one_samples]
  simp [butterfly2, combine, combineEdge, combineMiddle, dGet, dSet]

end

/-- Eight samples are the list of their elements. -/
theorem eq_dGet_of_length_eight {d : List F64} (h : d.length = 8) :
    d = [dGet d 0, dGet d 1, dGet d 2, dGet d 3, dGet d 4, dGet d 5, dGet d 6, dGet d 7] := by
  match d, h with
  | [_, _, _, _, _, _, _, _], _ => rfl

theorem eq_dGet_of_length_four {d : List F64} (h : d.length = 4) :
    d = [dGet d 0, dGet d 1, dGet d 2, dGet d 3] := by
  match d, h with
  | [_, _, _, _], _ => rfl

/-- Settles O25: the stages as butterflies, which for 4 and 8 samples take no sine or cosine, and for 16 end
with the twiddle loop's one round. -/
theorem shortFftOperations : Obligations.ShortFftOperations := by
  refine ⟨fun sn cs sn' cs' d => ?_, rfft_two_samples, fun sn cs x0 x1 x2 x3 x4 x5 x6 x7 => ?_, ?_⟩
  · rw [rfft_two, rfft_two, rfft_three, rfft_three]
    exact ⟨rfl, rfl⟩
  · rw [rfft_three_samples, combine_two_one_samples]
    rfl
  · intro sn cs x0 x1 x2 x3 x4 x5 x6 x7 x8 x9 x10 x11 x12 x13 x14 x15 e f g
    have he := eq_dGet_of_length_eight (rfft_length sn cs 3 [x0, x2, x4, x6, x8, x10, x12, x14])
    have hf := eq_dGet_of_length_four (rfft_length sn cs 2 [x1, x5, x9, x13])
    have hg := eq_dGet_of_length_four (rfft_length sn cs 2 [x3, x7, x11, x15])
    rw [rfft_four_samples, he, hf, hg, List.append_assoc]
    exact (congrArg _ (combine_four_two_samples ..)).trans (rotate_samples ..)

end Sys2Proof.Machine
end

section
/-! PROOFS. The two conversions of the transcoder: to_int rounds to the nearest integer, halves away from
zero, and saturates (42_transcoder.md R195); decode scaling is exact (R190). -/

namespace Sys2Proof.Machine

/-! ### Rounding half away from zero -/

/-- `k` is an integer nearest to `v`, and the one away from zero at a half. -/
def NearestAway (k : Int) (v : ℚ) : Prop := |k - v| ≤ 1 / 2 ∧ (|k - v| = 1 / 2 → |v| < |(k : ℚ)|)

theorem NearestAway.cast (k : Int) : NearestAway k k := by simp [NearestAway]

/-- Rounding the magnitude and then giving it its sign rounds the signed number. -/
theorem NearestAway.signedInt {n : Nat} {v : ℚ} (h : NearestAway n v) (neg : Bool) :
    NearestAway (signedInt neg n) (if neg then -v else v) := by
  cases neg with
  | false => exact h
  | true => simpa [NearestAway, Machine.signedInt, neg_add_eq_sub, abs_sub_comm v] using h

/-- `⌊v + 1/2⌋` is nearest to `v`, and above it at a half. -/
theorem nearestAway_of_floor {n : Nat} {v : ℚ} (h0 : 0 ≤ v) (hlo : n ≤ v + 1 / 2)
    (hhi : v + 1 / 2 < n + 1) : NearestAway n v := by
  rw [NearestAway, Int.cast_natCast, abs_le]
  refine ⟨by constructor <;> linarith, fun hhalf => ?_⟩
  have hup : n - v = 1 / 2 := by
    rcases abs_eq_abs.1 (hhalf.trans (abs_of_pos one_half_pos).symm) with h | h <;> linarith
  rw [abs_of_nonneg h0, abs_of_nonneg] <;> linarith

theorem nearestAway_roundHalfAway (m : Nat) (k : Int) : NearestAway (roundHalfAway m k) (m * 2 ^ k) := by
  unfold roundHalfAway
  split
  · next hk =>
    convert NearestAway.cast ((m * 2 ^ k.toNat : Nat) : Int) using 1
    push_cast
    rw [← zpow_natCast, Int.toNat_of_nonneg hk]
  · next hk =>
    obtain ⟨d, rfl⟩ : ∃ d : Nat, k = -d := ⟨(-k).toNat, by omega⟩
    simp only [neg_neg, Int.toNat_natCast, zpow_neg, zpow_natCast]
    set n := (2 * m + 2 ^ d) / 2 ^ (d + 1) with hn
    have hpos : (0 : ℚ) < 2 ^ (d + 1) := by positivity
    have hsum : m * (2 ^ d)⁻¹ + 1 / 2 = (2 * m + 2 ^ d : ℚ) / 2 ^ (d + 1) := by
      rw [pow_succ]; field_simp
    refine nearestAway_of_floor (by positivity) ?_ ?_
    · rw [hsum, le_div_iff₀ hpos]
      exact_mod_cast Nat.div_mul_le_self _ _
    · rw [hsum, div_lt_iff₀ hpos]
      exact_mod_cast (Nat.div_lt_iff_lt_mul (by positivity)).1 n.lt_succ_self

/-! ### to_int -/

theorem sat32_eq (v : Int) : sat32 v = max (-2147483648) (min 2147483647 v) := rfl

theorem toInt_of_finite {x : F64} (hx : fIsFinite x = true) (frac : Nat) :
    ∃ k : Int, toInt x frac = sat32 k ∧ NearestAway k (fVal x * 2 ^ frac) := by
  obtain ⟨s, m, e, hc, -⟩ := fClass_of_finite hx
  refine ⟨signedInt s (roundHalfAway m (e + frac)), by simp only [toInt, hc], ?_⟩
  have hscale : fVal x * 2 ^ frac =
      if s then -((m : ℚ) * 2 ^ (e + frac)) else m * 2 ^ (e + frac) := by
    rw [fVal, hc, zpow_add₀ two_ne_zero, zpow_natCast]
    cases s <;> simp [mul_assoc]
  rw [hscale]
  exact (nearestAway_roundHalfAway m (e + frac)).signedInt s

theorem toInt_of_fClass_inf {x : F64} {neg : Bool} (h : fClass x = .inf neg) (frac : Nat) :
    toInt x frac = if neg then -2147483648 else 2147483647 := by
  simp only [toInt, h]
  rfl

/-- Every integer of to_int is an i32. -/
theorem toInt_bounds (x : F64) (frac : Nat) :
    -2147483648 ≤ toInt x frac ∧ toInt x frac ≤ 2147483647 := by
  unfold toInt
  split
  · omega
  · split <;> omega
  · rw [sat32_eq]
    omega

/-- Settles O37: a finite number is rounded and then saturated, an infinity is beyond every i32. -/
theorem encodeRoundsHalfAway : Obligations.EncodeRoundsHalfAway := by
  refine ⟨fun x frac hx => ?_, fun frac => ⟨toInt_of_fClass_inf (neg := false) rfl frac,
    toInt_of_fClass_inf (neg := true) rfl frac⟩⟩
  exact toInt_of_finite hx frac

/-! ### Decode scaling -/

/-- Settles O38: a 24-bit integer and its quotient by 2^F have at most 53 bits. -/
theorem decodeScalingIsExact : Obligations.DecodeScalingIsExact := by
  intro w frac hlo hhi hfrac
  have habs : |w.toInt| < 2 ^ 53 := by
    rw [abs_lt]
    omega
  obtain ⟨hfin, hval⟩ := i2f_exact habs
  have hround := roundsTo_ldexp hfin (-(frac : Int))
  rw [hval, zpow_neg, zpow_natCast, ← div_eq_mul_inv] at hround
  obtain ⟨hsfin, hsval⟩ := hround.exact (representable_div habs (by omega))
  exact ⟨hsfin, by exact_mod_cast hsval⟩

end Sys2Proof.Machine
end

section
/-! PROOFS. DECODE_MODEL (42_transcoder.md R191 to R194): the fields of a record, the writes of one command
to several buffers, what both forms leave, and their E_FORMAT for another length than a record's. -/

namespace Sys2Proof.Machine

/-! ### Writes to several buffers -/

section
variable {s t u : State} {b c : Buffer}

theorem State.sameOutside.trans {ws ws' : List (Nat × Nat)} (h : s.sameOutside t ws)
    (h' : t.sameOutside u ws') : s.sameOutside u (ws ++ ws') := fun a ha =>
  (h' a fun w hw => ha w (List.mem_append_right ws hw)).trans
    (h a fun w hw => ha w (List.mem_append_left ws' hw))

theorem State.wordAt_setF64s_other {vs : List F64} {i : Nat} (hne : .words ≠ c) (hi : i < 141)
    (hl : vs.length ≤ c.count) : (s.setF64s c vs).wordAt i = s.wordAt i := by
  simp only [State.wordAt, State.setF64s_mem]
  rw [Memory.readElem_writePrefix_other (.inl ⟨hne, hi, by simpa using hl⟩)]

theorem State.wordAt_setBytes {bs : List Byte} {i : Nat} (hi : i < 141) (hl : bs.length ≤ 423) :
    (s.setBytes bs).wordAt i = s.wordAt i := by
  simp only [State.wordAt, State.setBytes_mem]
  rw [Memory.readElem_writePrefix_other (.inl ⟨by decide, hi, by simpa [Buffer.count] using hl⟩)]

/-- Write the first elements of each listed buffer. -/
def State.setAll (s : State) (writes : List (Buffer × List F64)) : State :=
  writes.foldl (fun s w => s.setF64s w.1 w.2) s

theorem State.sameOutside_setAll (writes : List (Buffer × List F64)) :
    s.sameOutside (s.setAll writes) (writes.map fun w => prefixWindow w.1 w.2.length) := by
  induction writes generalizing s with
  | nil => exact fun _ _ => rfl
  | cons w writes ih =>
    have hw : s.sameOutside (s.setF64s w.1 w.2) [prefixWindow w.1 w.2.length] :=
      State.sameOutside_of_mem (List.length_map _) rfl
    exact hw.trans ih

/-- Each list of values fits the buffer it is written to. -/
def WritesFit (writes : List (Buffer × List F64)) : Prop :=
  ∀ w ∈ writes, w.1.width = 8 ∧ w.2.length ≤ w.1.count

variable {writes : List (Buffer × List F64)} (hfit : WritesFit writes)
include hfit

/-- A binary64 element of a buffer that is not listed is as before. -/
theorem State.f64At_setAll_other {i : Nat} (hb : b ∉ writes.map Prod.fst) (hi : i < b.count) :
    (s.setAll writes).f64At b i = s.f64At b i := by
  induction writes generalizing s with
  | nil => rfl
  | cons w writes ih =>
    simp only [List.map_cons, List.mem_cons, not_or] at hb
    obtain ⟨hw, hrest⟩ := List.forall_mem_cons.1 hfit
    exact (ih hrest hb.2).trans (State.f64At_setF64s_other hb.1 hi hw.2)

theorem State.wordAt_setAll {i : Nat} (hi : i < 141) : (s.setAll writes).wordAt i = s.wordAt i := by
  induction writes generalizing s with
  | nil => rfl
  | cons w writes ih =>
    obtain ⟨hw, hrest⟩ := List.forall_mem_cons.1 hfit
    have hne : .words ≠ w.1 := fun h => absurd (h ▸ hw.1) (by decide)
    exact (ih hrest).trans (State.wordAt_setF64s_other hne hi hw.2)

/-- The values written to one of several different buffers are read back. -/
theorem State.f64At_setAll {vs : List F64} {i : Nat} (hnodup : (writes.map Prod.fst).Nodup)
    (hmem : (b, vs) ∈ writes) (hi : i < vs.length) : (s.setAll writes).f64At b i = some vs[i] := by
  induction writes generalizing s with
  | nil => cases hmem
  | cons w writes ih =>
    obtain ⟨hw, hrest⟩ := List.forall_mem_cons.1 hfit
    rw [List.map_cons, List.nodup_cons] at hnodup
    rcases List.mem_cons.1 hmem with rfl | hmem
    · exact (State.f64At_setAll_other hrest hnodup.1 (hi.trans_le hw.2)).trans
        (State.f64At_setF64s hw.1 hi)
    · exact ih hrest hnodup.2 hmem

end

/-! ### The fields of a record -/

/-- The fractional bits of field k of a record: 128 taps, then 13 scalars (10_state.md R46). -/
def fieldFrac (k : Nat) : Nat :=
  if k < 128 then 22 else [0, 23, 23, 21, 21, 21, 21, 0, 0, 17, 16, 14, 23].getD (k - 128) 0

/-- Field k of a record: TAP, then PARAM. -/
def State.fieldAt (s : State) (k : Nat) : Option F64 :=
  if k < 128 then s.f64At .tap k else s.f64At .param (k - 128)

theorem State.fieldAt_tap (s : State) {k : Nat} (h : k < 128) : s.fieldAt k = s.f64At .tap k := if_pos h

theorem State.fieldAt_param (s : State) (j : Nat) : s.fieldAt (128 + j) = s.f64At .param j := by
  rw [State.fieldAt, if_neg (by omega), Nat.add_sub_cancel_left]

theorem recordFracs_getElem {k : Nat} (h : k < recordFracs.length) : recordFracs[k] = fieldFrac k := by
  unfold fieldFrac
  split
  · next hk =>
    exact (List.getElem_append_left (by rwa [List.length_replicate])).trans (List.getElem_replicate _)
  · next hk =>
    rw [recordFracs_length] at h
    refine (List.getElem_append_right (by rwa [List.length_replicate, ← Nat.not_lt])).trans ?_
    simp only [List.length_replicate, tapCount]
    exact (List.getD_eq_getElem paramFracs 0 _).symm

theorem fieldFrac_le : ∀ k < 141, fieldFrac k ≤ 23 := by decide

/-! ### The words of a record -/

/-- The wire words of a record as they stand in WORDS (42_transcoder.md R191). -/
def recordValues (bs : List Byte) : List Word :=
  (List.range 141).map fun k => BitVec.ofInt 32 (recordWord bs k)

/-- Field k of a record, scaled (42_transcoder.md R190). -/
def recordField (bs : List Byte) (k : Nat) : F64 := ldexp (i2f (recordWord bs k)) (-(fieldFrac k : Int))

@[simp] theorem recordValues_length (bs : List Byte) : (recordValues bs).length = 141 := by
  simp [recordValues]

theorem recordWord_bounds (bs : List Byte) (k : Nat) :
    -8388608 ≤ recordWord bs k ∧ recordWord bs k ≤ 8388607 :=
  ⟨BitVec.le_toInt _, Int.le_of_lt_add_one BitVec.toInt_lt⟩

theorem toInt_ofInt_recordWord (bs : List Byte) (k : Nat) :
    (BitVec.ofInt 32 (recordWord bs k)).toInt = recordWord bs k := by
  obtain ⟨hlo, hhi⟩ := recordWord_bounds bs k
  exact BitVec.toInt_ofInt_eq_self (by omega) (by omega) (by omega)

theorem scaleWord_recordWord (bs : List Byte) (k : Nat) :
    scaleWord (BitVec.ofInt 32 (recordWord bs k)) (fieldFrac k) = recordField bs k := by
  rw [scaleWord, toInt_ofInt_recordWord, recordField]

theorem decode24_record {bs : List Byte} (hl : bs.length = 423) :
    decode24 bs = some (recordValues bs) := by
  obtain ⟨vs, hvs, hvl, hget⟩ := (decode24_spec bs).1 (by rw [hl])
  rw [hvs]
  congr 1
  refine List.ext_getElem? fun k => ?_
  rcases lt_or_ge k 141 with hk | hk
  · rw [hget k (by omega), recordValues, List.getElem?_map, List.getElem?_range hk]
    rfl
  · rw [List.getElem?_eq_none (by omega), List.getElem?_eq_none (by simpa using hk)]

theorem recordTap_eq (bs : List Byte) {k : Nat} (h : k < 128) : recordTap bs k = recordField bs k := by
  rw [recordTap, recordField, fieldFrac, if_pos h]
  rfl

theorem recordParam_eq (bs : List Byte) (j : Nat) : recordParam bs j = recordField bs (128 + j) := by
  rw [recordParam, recordField, fieldFrac, if_neg (by omega), Nat.add_sub_cancel_left]
  congr 2
  exact List.getD_map [0, 23, 23, 21, 21, 21, 21, 0, 0, 17, 16, 14, 23] 0 (Nat.cast (R := Int))

theorem scaleRecord_recordValues (bs : List Byte) :
    scaleRecord (recordValues bs) =
      (List.range 128).map (recordTap bs) ++ (List.range 13).map (recordParam bs) := by
  have hfields : scaleRecord (recordValues bs) = (List.range (128 + 13)).map (recordField bs) := by
    refine List.ext_getElem (by simp) fun k hk _ => ?_
    simp [scaleRecord, recordValues, recordFracs_getElem, scaleWord_recordWord]
  have htaps : (List.range 128).map (recordTap bs) = (List.range 128).map (recordField bs) :=
    List.map_congr_left fun k hk => recordTap_eq bs (List.mem_range.1 hk)
  rw [hfields, List.range_add, List.map_append, List.map_map, htaps, funext (recordParam_eq bs)]
  rfl

/-- The value of a field is exact (42_transcoder.md R190). -/
theorem fVal_recordField (bs : List Byte) {k : Nat} (hk : k < 141) :
    fVal (recordField bs k) = recordWord bs k / 2 ^ fieldFrac k := by
  obtain ⟨hlo, hhi⟩ := recordWord_bounds bs k
  rw [← toInt_ofInt_recordWord] at hlo hhi
  have h := (decodeScalingIsExact _ _ hlo hhi (fieldFrac_le k hk)).2
  rwa [scaleWord_recordWord, toInt_ofInt_recordWord] at h

/-! ### The state after DECODE_MODEL -/

/-- The command that decodes a model of this kind (30_encoding.md R110). -/
def ModelKind.command : ModelKind → Instr
  | .impedance => .decodeModelImp
  | .excursion => .decodeModelExc

/-- What DECODE_MODEL writes besides WORDS, by the taps and scalars of the record (42_transcoder.md
R191). -/
def modelWrites (kind : ModelKind) (taps params : List F64) : List (Buffer × List F64) :=
  let spectrum := modelSpectrum fsin fcos kind taps
  [(.tap, taps), (.param, params), (.data, spectrum),
    (.mag, modelMagnitudes fsin kind params spectrum), (.freq, frequencyAxis kind)]

section
variable {kind : ModelKind} {taps params : List F64}

theorem State.setModel_eq_setAll {s : State} {ws : List Word} (hf : scaleRecord ws = taps ++ params)
    (ht : taps.length = tapCount) :
    s.setModel kind ws = (s.setWords ws).setAll (modelWrites kind taps params) := by
  simp only [State.setModel, hf, List.take_left' ht, List.drop_left' ht, State.setAll, modelWrites,
    List.foldl_cons, List.foldl_nil]

theorem modelWrites_nodup : ((modelWrites kind taps params).map Prod.fst).Nodup := by
  simp [modelWrites]

theorem writesFit_modelWrites (ht : taps.length = 128) (hp : params.length = 13) :
    WritesFit (modelWrites kind taps params) := by
  simp [WritesFit, modelWrites, Buffer.width, Buffer.count, ht, hp]

theorem windows_modelWrites (ht : taps.length = 128) (hp : params.length = 13) :
    ((modelWrites kind taps params).map fun w => prefixWindow w.1 w.2.length) =
      [prefixWindow .tap 128, prefixWindow .param 13, prefixWindow .data 128, prefixWindow .mag 64,
        prefixWindow .freq 64] := by
  simp [modelWrites, ht, hp]

end

/-- What DECODE_MODEL writes besides WORDS when the record is `bs`. -/
def recordWrites (kind : ModelKind) (bs : List Byte) : List (Buffer × List F64) :=
  modelWrites kind ((List.range 128).map (recordTap bs)) ((List.range 13).map (recordParam bs))

/-- The state in which DECODE_MODEL leaves the block when the record is `bs`. -/
def State.afterRecord (s : State) (kind : ModelKind) (bs : List Byte) : State :=
  ((s.setWords (recordValues bs)).setAll (recordWrites kind bs)).completeOk

section
variable {s : State} {kind : ModelKind} {bs : List Byte}

theorem State.setModel_recordValues :
    s.setModel kind (recordValues bs) =
      (s.setWords (recordValues bs)).setAll (recordWrites kind bs) :=
  State.setModel_eq_setAll (scaleRecord_recordValues bs) (by simp [tapCount])

theorem exec_decodeModel_of_written (hlen : s.len.toNat = 423) (hl : bs.length = 423)
    (hbs : ∀ k (h : k < bs.length), s.byteAt k = some bs[k]) :
    exec kind.command s = .next (s.afterRecord kind bs) := by
  have hbody : exec kind.command s = decodeBody kind s := by cases kind <;> rfl
  have hcheck : checkRecord s.lenBytes = none := if_neg (not_not.2 hlen)
  rw [hbody, decodeBody, hcheck, checked, State.withBytes_eq (n := recordBytes) hl hbs,
    decode24_record hl, State.afterRecord, ← State.setModel_recordValues]
  rfl

theorem State.sameControl_afterRecord : s.sameControl (s.afterRecord kind bs) := by
  rw [State.afterRecord, ← State.setModel_recordValues]
  exact (State.Writes.none.setModel kind (recordValues_length bs)).sameControl_completeOk

theorem State.setModel_len (s : State) (kind : ModelKind) (ws : List Word) :
    (s.setModel kind ws).len = s.len := by
  simp only [State.setModel, State.setF64s_len, State.setWords_len]

theorem State.len_afterRecord : (s.afterRecord kind bs).len = s.len := by
  rw [State.afterRecord, ← State.setModel_recordValues, State.completeOk_len, State.setModel_len]

theorem writesFit_recordWrites : WritesFit (recordWrites kind bs) :=
  writesFit_modelWrites (by simp) (by simp)

theorem State.f64At_afterRecord {b : Buffer} {vs : List F64} {i : Nat}
    (hmem : (b, vs) ∈ recordWrites kind bs) (hi : i < vs.length) :
    (s.afterRecord kind bs).f64At b i = some vs[i] :=
  State.f64At_setAll writesFit_recordWrites modelWrites_nodup hmem hi

theorem State.wordAt_afterRecord {k : Nat} (hk : k < 141) :
    (s.afterRecord kind bs).wordAt k = some (BitVec.ofInt 32 (recordWord bs k)) := by
  have hkl : k < (recordValues bs).length := by rwa [recordValues_length]
  refine (State.wordAt_setAll writesFit_recordWrites hk).trans ((State.wordAt_setWords hkl).trans ?_)
  simp [recordValues]

theorem State.tapAt_afterRecord {k : Nat} (hk : k < 128) :
    (s.afterRecord kind bs).f64At .tap k = some (recordTap bs k) := by
  rw [State.f64At_afterRecord (vs := (List.range 128).map (recordTap bs))
    (by simp [recordWrites, modelWrites]) (by simpa using hk)]
  simp

theorem State.paramAt_afterRecord {j : Nat} (hj : j < 13) :
    (s.afterRecord kind bs).f64At .param j = some (recordParam bs j) := by
  rw [State.f64At_afterRecord (vs := (List.range 13).map (recordParam bs))
    (by simp [recordWrites, modelWrites]) (by simpa using hj)]
  simp

theorem State.fieldAt_afterRecord {k : Nat} (hk : k < 141) :
    (s.afterRecord kind bs).fieldAt k = some (recordField bs k) := by
  rcases lt_or_ge k 128 with h | h
  · rw [State.fieldAt_tap _ h, State.tapAt_afterRecord h, recordTap_eq bs h]
  · obtain ⟨j, rfl⟩ := Nat.exists_eq_add_of_le h
    rw [State.fieldAt_param, State.paramAt_afterRecord (by omega), recordParam_eq]

theorem State.sameOutside_afterRecord :
    s.sameOutside (s.afterRecord kind bs) [prefixWindow .words 141, prefixWindow .tap 128,
      prefixWindow .param 13, prefixWindow .data 128, prefixWindow .mag 64, prefixWindow .freq 64] := by
  have hwords : s.sameOutside (s.setWords (recordValues bs)) [prefixWindow .words 141] :=
    State.sameOutside_of_mem (by rw [List.length_map, recordValues_length]) rfl
  have hfields := State.sameOutside_setAll (s := s.setWords (recordValues bs)) (recordWrites kind bs)
  rw [recordWrites, windows_modelWrites (by simp) (by simp)] at hfields
  exact hwords.trans hfields

end

/-! ### The statements on DECODE_MODEL -/

section
variable {s : State} {kind : ModelKind} {bs : List Byte} {spectrum : List F64}

theorem State.dataAt_afterRecord {k : Nat} (hk : k < 128)
    (hsp : modelSpectrum fsin fcos kind ((List.range 128).map (recordTap bs)) = spectrum) :
    (s.afterRecord kind bs).f64At .data k = spectrum[k]? := by
  have hkl : k < spectrum.length := by simpa [← hsp] using hk
  rw [State.f64At_afterRecord (vs := spectrum) (by simp [recordWrites, modelWrites, hsp]) hkl,
    List.getElem?_eq_getElem hkl]

theorem State.magAt_afterRecord {k : Nat} (hk : k < 64)
    (hsp : modelSpectrum fsin fcos kind ((List.range 128).map (recordTap bs)) = spectrum) :
    (s.afterRecord kind bs).f64At .mag k =
      (modelMagnitudes fsin kind ((List.range 13).map (recordParam bs)) spectrum)[k]? := by
  have hkl : k < (modelMagnitudes fsin kind ((List.range 13).map (recordParam bs)) spectrum).length := by
    rwa [modelMagnitudes_length]
  rw [State.f64At_afterRecord (by simp [recordWrites, modelWrites, hsp]) hkl,
    List.getElem?_eq_getElem hkl]

theorem State.freqAt_afterRecord {k : Nat} (hk : k < 64) :
    (s.afterRecord kind bs).f64At .freq k = some (fmul fBinHz (i2f (k + firstBin kind : Nat))) := by
  rw [State.f64At_afterRecord (vs := frequencyAxis kind) (by simp [recordWrites, modelWrites])
    (by rwa [frequencyAxis_length])]
  simp [frequencyAxis]

end

theorem modelMagnitudes_impedance_getElem? {params spectrum : List F64} {k : Nat} (hk : k < 64) :
    (modelMagnitudes fsin .impedance params spectrum)[k]? =
      some (fdiv fOne (untangleAt .hypot 128 spectrum k)) := by
  have hkl : k < (untangle .hypot 128 spectrum).length := by rwa [untangle_length]
  change ((untangle .hypot 128 spectrum).map (fdiv fOne))[k]? = _
  rw [List.getElem?_map, List.getElem?_eq_getElem hkl, untangle_getElem, Option.map_some]

theorem modelMagnitudes_excursion_getElem? {params spectrum : List F64} {k : Nat} (hk : k < 64) :
    (modelMagnitudes fsin .excursion params spectrum)[k]? =
      some (fmul fTwo (fdiv (untangleAt .hypot 128 spectrum k)
        (leakageAt fsin 64 (fneg (dGet params 1)) k))) := by
  have hkl : k < (untangleLeakage fsin .hypot 128 (fneg (dGet params 1)) spectrum).length := by
    rwa [untangleLeakage_length]
  change ((untangleLeakage fsin .hypot 128 (fneg (dGet params 1)) spectrum).map (fmul fTwo))[k]? = _
  rw [List.getElem?_map, List.getElem?_eq_getElem hkl, untangleLeakage_getElem, Option.map_some]

/-- Settles O32: the completed state, read back buffer by buffer. -/
theorem decodeModelImpCompletes : Obligations.DecodeModelImpCompletes := by
  intro s bs hlen hl hbs frac spectrum
  have hsp : modelSpectrum fsin fcos .impedance ((List.range 128).map (recordTap bs)) = spectrum := rfl
  refine ⟨s.afterRecord .impedance bs, exec_decodeModel_of_written (kind := .impedance) hlen hl hbs,
    State.endedOk_completeOk _, State.sameControl_afterRecord, State.len_afterRecord,
    fun k => State.wordAt_afterRecord, fun k => State.tapAt_afterRecord,
    fun k => State.paramAt_afterRecord, fun k hk => State.dataAt_afterRecord hk hsp,
    by simp [← hsp], fun k hk => ?_, fun k hk => State.freqAt_afterRecord hk,
    State.sameOutside_afterRecord⟩
  rw [State.magAt_afterRecord hk hsp, modelMagnitudes_impedance_getElem? hk]

/-- Settles O33: the completed state, read back buffer by buffer; the leakage is -PARAM[1]. -/
theorem decodeModelExcCompletes : Obligations.DecodeModelExcCompletes := by
  intro s bs hlen hl hbs frac spectrum
  have hreverse : ((List.range 128).map (recordTap bs)).reverse =
      (List.range 128).map fun i => recordTap bs (127 - i) :=
    List.ext_getElem (by simp) fun k _ _ => by simp
  have hsp : modelSpectrum fsin fcos .excursion ((List.range 128).map (recordTap bs)) = spectrum :=
    congrArg (rfft fsin fcos 7) hreverse
  refine ⟨s.afterRecord .excursion bs, exec_decodeModel_of_written (kind := .excursion) hlen hl hbs,
    State.endedOk_completeOk _, State.sameControl_afterRecord, State.len_afterRecord,
    fun k => State.wordAt_afterRecord, fun k => State.tapAt_afterRecord,
    fun k => State.paramAt_afterRecord, fun k hk => State.dataAt_afterRecord hk hsp,
    by simp [← hsp], fun k hk => ?_, fun k hk => State.freqAt_afterRecord hk,
    State.sameOutside_afterRecord⟩
  rw [State.magAt_afterRecord hk hsp, modelMagnitudes_excursion_getElem? hk]
  rfl

/-- Settles O34: the length is checked before anything else. -/
theorem recordLengthIsFormatError : Obligations.RecordLengthIsFormatError := by
  intro s h
  have hcheck : checkRecord s.lenBytes = some .format := if_pos h
  have hbody (kind : ModelKind) : decodeBody kind s = .next (s.completeErr .format) := by
    rw [decodeBody, hcheck]
    rfl
  exact ⟨hbody .impedance, hbody .excursion⟩

end Sys2Proof.Machine
end

section
/-! PROOFS. ENCODE_MODEL (42_transcoder.md R195, R196): the words and the record it leaves, its end at a NaN,
and that either form of DECODE_MODEL reproduces the fields (R197). -/

namespace Sys2Proof.Machine

/-! ### ENCODE_MODEL -/

theorem toInt_toWord (x : F64) (frac : Nat) : (toWord x frac).toInt = toInt x frac := by
  obtain ⟨hlo, hhi⟩ := toInt_bounds x frac
  exact BitVec.toInt_ofInt_eq_self (by omega) (by omega) (by omega)

theorem modelWords_getElem {fields : List F64} {k : Nat} (h : k < (modelWords fields).length) :
    (modelWords fields)[k] =
      toWord (fields[k]'((modelWords_length fields ▸ h).trans_le (min_le_left ..))) (fieldFrac k) := by
  simp [modelWords, recordFracs_getElem]

/-- The state in which ENCODE_MODEL leaves the block when TAP and PARAM hold `fields`, no NaN among them
(42_transcoder.md R196). -/
def State.afterEncodeModel (s : State) (fields : List F64) : State :=
  (((s.setWords (modelWords fields)).setBytes (encode24 (modelWords fields))).setLen 423).completeOk

section
variable {s : State} {fields : List F64}

theorem State.byteAt_afterEncodeModel {i : Nat} (hi : i < (encode24 (modelWords fields)).length) :
    (s.afterEncodeModel fields).byteAt i = some (encode24 (modelWords fields))[i] :=
  State.byteAt_setBytes (s := s.setWords (modelWords fields)) hi

variable (hl : fields.length = 141)
include hl

theorem encode24_modelWords_length : (encode24 (modelWords fields)).length = 423 := by
  rw [encode24_length, modelWords_length, hl, min_self]

/-- With all operands read, the check for a NaN decides the end (60_exceptions.md R246). -/
theorem exec_encodeModel_of_written (h : ∀ k (hk : k < fields.length), s.fieldAt k = some fields[k]) :
    exec .encodeModel s = checked (checkNaN fields) s (.next (s.afterEncodeModel fields)) := by
  have htaps (k : Nat) (hk : k < (fields.take 128).length) :
      s.f64At .tap k = some (fields.take 128)[k] := by
    rw [List.length_take] at hk
    rw [List.getElem_take, ← h k (by omega), State.fieldAt_tap _ (by omega)]
  have hparams (k : Nat) (hk : k < (fields.drop 128).length) :
      s.f64At .param k = some (fields.drop 128)[k] := by
    rw [List.length_drop] at hk
    rw [List.getElem_drop, ← h (128 + k) (by omega), State.fieldAt_param]
  rw [exec, execEncodeModel, State.withF64s_eq (n := tapCount) (by simp [hl, tapCount]) htaps,
    State.withF64s_eq (n := paramCount) (by simp [hl, paramCount]) hparams, List.take_append_drop]
  rfl

theorem State.writes_afterEncodeModel :
    s.Writes (((s.setWords (modelWords fields)).setBytes (encode24 (modelWords fields))).setLen 423) :=
  ((State.Writes.none.setWords (by simp [hl])).setBytes
    (encode24_modelWords_length hl).le).len _

theorem State.wordAt_afterEncodeModel {k : Nat} (hk : k < 141) :
    (s.afterEncodeModel fields).wordAt k =
      some (toWord (fields[k]'(hl ▸ hk)) (fieldFrac k)) := by
  have hkl : k < (modelWords fields).length := by simpa [hl] using hk
  have hbytes := State.wordAt_setBytes (s := s.setWords (modelWords fields)) hk
    (encode24_modelWords_length hl).le
  rw [State.wordAt_setWords hkl, modelWords_getElem] at hbytes
  exact hbytes

/-- Byte 3k + j of the record is byte j of field k's integer, clamped to 24 bits. -/
theorem encode24_modelWords_getElem? {k j : Nat} (hk : k < 141) (hj : j < 3) :
    (encode24 (modelWords fields))[3 * k + j]? =
      (wireBytes (u24 (clamp24 (toInt (fields[k]'(hl ▸ hk)) (fieldFrac k)))))[j]? := by
  rw [encode24_getElem? _ k j hj (by simpa [hl] using hk), modelWords_getElem, encodeOne, toInt_toWord]

theorem State.byteAt_afterEncodeModel_group {k j : Nat} (hk : k < 141) (hj : j < 3) :
    (s.afterEncodeModel fields).byteAt (3 * k + j) =
      (wireBytes (u24 (clamp24 (toInt (fields[k]'(hl ▸ hk)) (fieldFrac k)))))[j]? := by
  have hi : 3 * k + j < (encode24 (modelWords fields)).length := by
    rw [encode24_modelWords_length hl]
    omega
  rw [State.byteAt_afterEncodeModel hi, ← List.getElem?_eq_getElem hi,
    encode24_modelWords_getElem? hl hk hj]

theorem State.sameOutside_afterEncodeModel :
    s.sameOutside (s.afterEncodeModel fields) [prefixWindow .words 141, prefixWindow .bytes 423] := by
  have hwords : s.sameOutside (s.setWords (modelWords fields)) [prefixWindow .words 141] :=
    State.sameOutside_of_mem (by simp [hl]) rfl
  refine hwords.trans (ws' := [prefixWindow .bytes 423]) (State.sameOutside_of_mem ?_ rfl)
  rw [List.length_map, encode24_modelWords_length hl]

end

theorem checkNaN_of_noNaN {fields : List F64} (h : ∀ x ∈ fields, fIsNaN x = false) :
    checkNaN fields = none := by
  simpa [checkNaN] using h

theorem checkNaN_of_mem {fields : List F64} {x : F64} (hmem : x ∈ fields) (hx : fIsNaN x = true) :
    checkNaN fields = some .nan :=
  if_pos (List.any_eq_true.2 ⟨x, hmem, hx⟩)

/-- Settles O35: the completed state, read back at each field's word and its three bytes. -/
theorem encodeModelCompletes : Obligations.EncodeModelCompletes := by
  intro s taps params ht hp htaps hparams hnan
  have hl : (taps ++ params).length = 141 := by rw [List.length_append, ht, hp]
  have hfields (k : Nat) (hk : k < (taps ++ params).length) :
      s.fieldAt k = some (taps ++ params)[k] := by
    rcases lt_or_ge k 128 with h | h
    · rw [State.fieldAt_tap _ h, List.getElem_append_left (by omega)]
      exact htaps k _
    · obtain ⟨j, rfl⟩ := Nat.exists_eq_add_of_le h
      rw [State.fieldAt_param, List.getElem_append_right (by omega)]
      simp only [ht, Nat.add_sub_cancel_left]
      exact hparams j _
  refine ⟨s.afterEncodeModel (taps ++ params), ?_, State.endedOk_completeOk _,
    (State.writes_afterEncodeModel hl).sameControl_completeOk, rfl, fun k hk => ?_,
    State.sameOutside_afterEncodeModel hl⟩
  · rw [exec_encodeModel_of_written hl hfields, checkNaN_of_noNaN hnan, checked]
  · rw [List.getD_eq_getElem (taps ++ params) _ (hl ▸ hk)]
    obtain ⟨hlo, hhi⟩ := toInt_bounds (taps ++ params)[k] (fieldFrac k)
    exact ⟨State.wordAt_afterEncodeModel hl hk, hlo, hhi,
      State.byteAt_afterEncodeModel_group hl (j := 0) hk (by omega),
      State.byteAt_afterEncodeModel_group hl (j := 1) hk (by omega),
      State.byteAt_afterEncodeModel_group hl (j := 2) hk (by omega)⟩

theorem State.f64At_of_allWritten {s : State} {b : Buffer} {n i : Nat} (h : s.allWritten b n = true)
    (hi : i < n) : ∃ x, s.f64At b i = some x := by
  have hw := State.allWritten_iff.1 h i hi
  rw [State.written, Option.isSome_iff_exists] at hw
  obtain ⟨v, hv⟩ := hw
  exact ⟨BitVec.ofNat 64 v, by rw [State.f64At, hv, Option.map_some]⟩

/-- The operands of ENCODE_MODEL as a list, when they are all written. -/
theorem exists_fields_of_written {s : State} (h : s.operandsWritten .encodeModel = true) :
    ∃ fields : List F64, fields.length = 141 ∧
      ∀ k (hk : k < fields.length), s.fieldAt k = some fields[k] := by
  obtain ⟨htap, hparam⟩ : s.allWritten .tap 128 = true ∧ s.allWritten .param 13 = true :=
    Bool.and_eq_true_iff.1 h
  have hfield (k : Fin 141) : ∃ x, s.fieldAt k = some x := by
    unfold State.fieldAt
    split
    · exact State.f64At_of_allWritten htap ‹_›
    · exact State.f64At_of_allWritten hparam (by omega)
  choose field hfield using hfield
  refine ⟨List.ofFn field, List.length_ofFn, fun k hk => ?_⟩
  rw [List.getElem_ofFn, ← hfield]

/-- Settles O36: all operands are read, then the NaN among them ends the command. -/
theorem naNInputIsNaNError : Obligations.NaNInputIsNaNError := by
  intro s hwritten hnan
  obtain ⟨fields, hl, hfields⟩ := exists_fields_of_written hwritten
  obtain ⟨k, hk, x, hx, hxnan⟩ : ∃ k < 141, ∃ x, s.fieldAt k = some x ∧ fIsNaN x = true := by
    rcases hnan with ⟨k, x, hk, hx, hxnan⟩ | ⟨k, x, hk, hx, hxnan⟩
    · exact ⟨k, by omega, x, (s.fieldAt_tap hk).trans hx, hxnan⟩
    · exact ⟨128 + k, by omega, x, (s.fieldAt_param k).trans hx, hxnan⟩
  have hmem : x ∈ fields := by
    have := (hfields k (by omega)).symm.trans hx
    exact Option.some.inj this ▸ List.getElem_mem _
  rw [exec_encodeModel_of_written hl hfields, checkNaN_of_mem hmem hxnan]
  rfl

/-! ### The round trip -/

/-- Wire word k of an encoded record is the integer of field k, clamped. -/
theorem recordWord_encode24_modelWords {fields : List F64} (hl : fields.length = 141) {k : Nat}
    (hk : k < 141) : recordWord (encode24 (modelWords fields)) k =
      clamp24 (toInt (fields[k]'(hl ▸ hk)) (fieldFrac k)) := by
  set p := u24 (clamp24 (toInt (fields[k]'(hl ▸ hk)) (fieldFrac k))) with hp
  have hbyte {j : Nat} (hj : j < 3) :
      (encode24 (modelWords fields)).getD (3 * k + j) 0#8 = (wireBytes p).getD j 0#8 := by
    rw [List.getD_eq_getElem?_getD, List.getD_eq_getElem?_getD, encode24_modelWords_getElem? hl hk hj]
  have h0 := hbyte (j := 0) (by omega)
  rw [Nat.add_zero] at h0
  rw [recordWord, h0, hbyte (by omega), hbyte (by omega)]
  exact (congrArg BitVec.toInt (wireWord_extract p)).trans (toInt_u24_clamp24 _)

/-- Only a finite number has an integer that fits 24 bits; it is reproduced within half a step. -/
theorem abs_toInt_div_sub_le {x : F64} {frac : Nat} (hnan : fIsNaN x = false)
    (hlo : -8388608 ≤ toInt x frac) (hhi : toInt x frac ≤ 8388607) :
    |(toInt x frac : ℚ) / 2 ^ frac - fVal x| ≤ 1 / 2 ^ (frac + 1) := by
  have hfin : fIsFinite x = true := by
    cases hc : fClass x with
    | nan => exact absurd (fIsNaN_iff.2 hc) (by rw [hnan]; decide)
    | inf neg =>
      rw [toInt_of_fClass_inf hc] at hlo hhi
      split_ifs at hlo hhi <;> omega
    | fin neg m e => exact fIsFinite_of_fClass_fin hc
  obtain ⟨k, hk, hle, -⟩ := toInt_of_finite hfin frac
  have hkeq : toInt x frac = k := by
    rw [sat32_eq] at hk
    omega
  have hpos : (0 : ℚ) < 2 ^ frac := by positivity
  calc |(toInt x frac : ℚ) / 2 ^ frac - fVal x|
    _ = |(k : ℚ) - fVal x * 2 ^ frac| / 2 ^ frac := by
        rw [hkeq, ← abs_of_pos hpos, ← abs_div, abs_of_pos hpos, sub_div,
          mul_div_cancel_right₀ _ hpos.ne']
    _ ≤ 1 / 2 / 2 ^ frac := by gcongr
    _ = 1 / 2 ^ (frac + 1) := by rw [div_div, ← pow_succ']

/-- A value that is a field's clamped integer, scaled, reproduces the field (42_transcoder.md R197). -/
theorem reproduces_of_eq_clamp24_div {x : F64} {y : ℚ} {frac : Nat} (hnan : fIsNaN x = false)
    (hy : y = clamp24 (toInt x frac) / 2 ^ frac) :
    (-8388608 ≤ toInt x frac → toInt x frac ≤ 8388607 → |y - fVal x| ≤ 1 / 2 ^ (frac + 1)) ∧
    (8388607 < toInt x frac → y = 8388607 / 2 ^ frac) ∧
    (toInt x frac < -8388608 → y = -8388608 / 2 ^ frac) := by
  subst hy
  refine ⟨fun hlo hhi => ?_, fun hhi => ?_, fun hlo => ?_⟩
  · rw [clamp24_of_fits hlo hhi]
    exact abs_toInt_div_sub_le hnan hlo hhi
  · rw [show clamp24 (toInt x frac) = 8388607 by rw [clamp24_eq]; omega]
    norm_num
  · rw [show clamp24 (toInt x frac) = -8388608 by rw [clamp24_eq]; omega]
    norm_num

/-- Settles O39: the record that ENCODE_MODEL leaves is the one DECODE_MODEL reads, and its words are the
clamped integers. -/
theorem modelRoundTrip : Obligations.ModelRoundTrip := by
  intro s i fields hi hl hfields
  obtain ⟨kind, rfl⟩ : ∃ kind : ModelKind, i = kind.command := by
    rcases hi with rfl | rfl
    · exact ⟨.impedance, rfl⟩
    · exact ⟨.excursion, rfl⟩
  have hnan : ∀ x ∈ fields, fIsNaN x = false := fun x hx => by
    obtain ⟨k, hk, rfl⟩ := List.getElem_of_mem hx
    exact (hfields k hk).2
  have henc := exec_encodeModel_of_written (s := s) hl fun k hk => (hfields k hk).1
  rw [checkNaN_of_noNaN hnan, checked] at henc
  refine ⟨_, _, henc, exec_decodeModel_of_written rfl (encode24_modelWords_length hl)
    fun k => State.byteAt_afterEncodeModel, State.endedOk_completeOk _, fun k hk => ?_⟩
  rw [hl] at hk
  refine ⟨_, State.fieldAt_afterRecord hk, ?_⟩
  have hval := fVal_recordField (encode24 (modelWords fields)) hk
  rw [recordWord_encode24_modelWords hl hk] at hval
  exact reproduces_of_eq_clamp24_div (hnan _ (List.getElem_mem _)) hval

end Sys2Proof.Machine
end

section
/-! PROOFS. The life cycle of a command (44_control.md R220 to R224): how a completion leaves the block,
that the sequencer's turn runs the word in CMDL, and what a CMD write does. -/

namespace Sys2Proof.Machine

/-! ### Completions -/

/-- The command ended with an error (60_exceptions.md R240, R242). -/
def State.endedErr (t : State) : Prop :=
  t.seq = .idle ∧ t.done = true ∧ t.err = true ∧ 1 ≤ t.errcode.toNat ∧ t.errcode.toNat ≤ 5

theorem ErrorCode.one_le_code (e : ErrorCode) : 1 ≤ e.code.toNat := by cases e <;> decide

theorem State.endedErr_completeErr (s : State) (e : ErrorCode) : (s.completeErr e).endedErr :=
  ⟨rfl, rfl, rfl, e.one_le_code, e.code_legal.1⟩

theorem State.sameControl_completeErr (s : State) (e : ErrorCode) : s.sameControl (s.completeErr e) :=
  ⟨rfl, rfl, rfl, rfl, rfl, rfl⟩

/-- A command that does not stop ends without or with an error, and writes no control register. -/
theorem Ends.completion {s t : State} {ok : Bool} (h : Ends s ok (.next t)) :
    (t.endedOk ∨ t.endedErr) ∧ s.sameControl t := by
  rcases h.next_cases with ⟨e, rfl⟩ | ⟨u, hu, rfl⟩
  · exact ⟨.inr (s.endedErr_completeErr e), s.sameControl_completeErr e⟩
  · exact ⟨.inl u.endedOk_completeOk, hu.sameControl_completeOk⟩

/-- Settles O10: a completion step is the turn of a busy block, which ends its command. -/
theorem completionEndsTheCommand : Obligations.CompletionEndsTheCommand := by
  intro s t hb hc ht
  rw [step_of_completionNext hc] at ht
  obtain ⟨ok, hends⟩ := ends_sequencerTurn (s := { s with agenda := s.agendaAfter }) hb
  obtain ⟨hended, hcmdl, hleakage, hie, hovr, hagenda, hanswer⟩ := (ht ▸ hends).completion
  rcases hended with ⟨hseq, hdone, herr, hcode⟩ | ⟨hseq, hdone, herr, hcode⟩
  · exact ⟨hseq, hdone, .inl ⟨herr, hcode⟩, hcmdl, hovr, hleakage, hie, hanswer, hagenda⟩
  · exact ⟨hseq, hdone, .inr ⟨herr, hcode⟩, hcmdl, hovr, hleakage, hie, hanswer, hagenda⟩

/-- Settles O16: NOP ends without error before it writes anything. -/
theorem nopCompletes : Obligations.NopCompletes := fun _ => rfl

/-! ### The sequencer's turn -/

theorem sequencerTurn_of_decode {s : State} {i : Instr} (hb : s.seq = .busy)
    (hd : decode s.cmdl = .ok i) : sequencerTurn s = exec i s := by
  rw [sequencerTurn, hb]
  simp only [completeCommand, hd]

theorem State.completionNext_of_sequencerNext {s : State} (h : s.sequencerNext = true) :
    s.completionNext = true := by
  rw [State.sequencerNext] at h
  rw [State.completionNext]
  cases hagenda : s.agenda with
  | nil => rfl
  | cons turn rest =>
    cases turn with
    | sequencer => rfl
    | host op => rw [hagenda] at h; cases h

/-- On its own turn the sequencer uses up an entry of the agenda, where one is left (log entry 3). -/
theorem step_of_sequencerNext {s : State} (h : s.sequencerNext = true) :
    step s = sequencerTurn s.popTurn := by
  rw [step_of_completionNext (State.completionNext_of_sequencerNext h), State.agendaAfter,
    if_pos h, State.popTurn]

/-- Settles O5: either way the step is the turn of a busy block whose word the decoder accepts. -/
theorem stepRunsDecodedCommand : Obligations.StepRunsDecodedCommand := by
  intro s i hb hd
  refine ⟨fun hnext => ?_, fun op rest ha hholds => ?_⟩
  · rw [step_of_sequencerNext hnext]
    exact sequencerTurn_of_decode (s := s.popTurn) hb hd
  · rw [step_of_held ha hholds]
    exact sequencerTurn_of_decode hb hd

/-! ### Accesses that are never held -/

theorem State.holds_of_free (s : State) (op : BusOp) (h : heldOffset op.offset.toNat = false) :
    s.holds op = false := by
  rw [State.holds, h, Bool.and_false]

theorem State.popTurn_of_agenda {s : State} {turn : Turn} {rest : List Turn}
    (ha : s.agenda = turn :: rest) : s.popTurn = { s with agenda := rest } := by
  rw [State.popTurn, ha, List.tail_cons]

/-- A served read of a slot that has a value (20_memory.md R71, R72). -/
theorem hostAccess_read_aligned {off : Offset} {v : Word} {s : State} (hal : off.toNat % 4 = 0)
    (hv : s.readSlot (slotAt off.toNat) = .ok v) :
    hostAccess (.read .w32 off) s = .next (s.reply (.data v)) := by
  rw [hostAccess, if_pos ((BusOp.served_iff (op := .read .w32 off)).2 ⟨rfl, hal⟩), hv]

section
variable {s : State} {off : Offset} {v : Word} {rest : List Turn} (hal : off.toNat % 4 = 0)
  (hfree : heldOffset off.toNat = false)
include hal hfree

/-- A read outside the held ranges is the next step, BUSY or not (20_memory.md R81). -/
theorem step_read_free (ha : s.agenda = .host (.read .w32 off) :: rest)
    (hv : s.readSlot (slotAt off.toNat) = .ok v) :
    step s = .next { s with agenda := rest, answer := some (.data v) } := by
  have hpop : s.popTurn.readSlot (slotAt off.toNat) = .ok v := by
    rw [← hv]
    cases slotAt off.toNat <;> rfl
  rw [step_of_not_held ha (s.holds_of_free _ hfree), hostAccess_read_aligned hal hpop,
    State.popTurn_of_agenda ha]
  rfl

/-- A write outside the held ranges is the next step, BUSY or not (20_memory.md R81). -/
theorem step_write_free (ha : s.agenda = .host (.write .w32 off v) :: rest) :
    step s = .next ((State.writeSlot { s with agenda := rest } v (slotAt off.toNat)).reply .done) := by
  rw [step_of_not_held ha (s.holds_of_free _ hfree), hostAccess_write_aligned hal,
    State.popTurn_of_agenda ha]

end

/-! ### CMD writes -/

theorem State.submit_of_busy {s : State} (h : s.seq = .busy) (w : Word) :
    s.submit w = s.dropSubmission := by
  rw [State.submit, h]

theorem step_write_cmd {s : State} {w : Word} {rest : List Turn}
    (ha : s.agenda = .host (.write .w32 0x004#14 w) :: rest) :
    step s = .next ((State.submit { s with agenda := rest } w).reply .done) :=
  step_write_free (by decide) rfl ha

/-- Settles O7: CMD is never held, and an idle block accepts the word. -/
theorem commandWriteIsAcceptedWhenIdle : Obligations.CommandWriteIsAcceptedWhenIdle := by
  intro s w rest hidle ha
  rw [step_write_cmd ha, State.submit_of_idle (s := { s with agenda := rest }) hidle]
  exact ⟨_, rfl, rfl, rfl⟩

/-- Settles O8: CMD is never held, and a busy block drops the word. -/
theorem commandWriteIsDroppedWhenBusy : Obligations.CommandWriteIsDroppedWhenBusy := by
  intro s w rest hb ha
  rw [step_write_cmd ha, State.submit_of_busy (s := { s with agenda := rest }) hb]
  rfl

end Sys2Proof.Machine
end

section
/-! PROOFS. The registers as the host reads and writes them (44_control.md R225 to R227), and the halves of
a binary64 element written one after the other (R228). -/

namespace Sys2Proof.Machine

/-! ### STATUS -/

theorem State.status_eq (s : State) :
    s.status = 0#24 ++ s.errcode ++ (if s.ovr then 1#1 else 0#1) ++ (if s.err then 1#1 else 0#1) ++
      (if s.done then 1#1 else 0#1) ++ (if s.seq = .busy then 1#1 else 0#1) := by
  simp only [State.status, flagBit, State.busy, decide_eq_true_eq]

/-- A flag after write-one-to-clear. -/
theorem and_not_eq_ite (flag bit : Bool) : (flag && !bit) = if bit then false else flag := by
  cases bit <;> simp

theorem State.clearFlags_eq (s : State) (v : Word) :
    s.clearFlags v = { s with
      done := if v.getLsbD 1 then false else s.done
      err := if v.getLsbD 2 then false else s.err
      ovr := if v.getLsbD 3 then false else s.ovr } := by
  simp only [State.clearFlags, and_not_eq_ite]

theorem step_write_status {s : State} {v : Word} {rest : List Turn}
    (ha : s.agenda = .host (.write .w32 0x008#14 v) :: rest) :
    step s = .next ((State.clearFlags { s with agenda := rest } v).reply .done) :=
  step_write_free (by decide) rfl ha

/-- Settles O51: STATUS is never held; IRQ needs DONE, which a 1 in bit 1 clears. -/
theorem statusAccess : Obligations.StatusAccess := by
  intro s rest
  refine ⟨fun ha => ?_, fun v ha => ⟨_, step_write_status ha, ?_, fun hv => ?_⟩⟩
  · rw [← s.status_eq]
    exact step_read_free (by decide) rfl ha rfl
  · rw [State.clearFlags_eq]
    rfl
  · obtain ⟨-, -, -, hclear, -⟩ := irqFollowsDoneAndEnable { s with agenda := rest } s
    exact hclear v hv

/-! ### CTRL -/

theorem State.ctrl_eq (s : State) : s.ctrl = if s.ie then 1#32 else 0#32 := by
  rw [State.ctrl]
  cases s.ie <;> rfl

/-- A write of IE alone (44_control.md R226). -/
def State.setIe (s : State) (e : Bool) : State := { s with ie := e }

section
variable (s : State) (e : Bool)

@[simp] theorem State.setIe_seq : (s.setIe e).seq = s.seq := rfl
@[simp] theorem State.setIe_cmdl : (s.setIe e).cmdl = s.cmdl := rfl
@[simp] theorem State.setIe_lenBytes : (s.setIe e).lenBytes = s.lenBytes := rfl
@[simp] theorem State.setIe_anyNaN (b : Buffer) (n : Nat) :
    (s.setIe e).anyNaN b n = s.anyNaN b n := rfl

/-! What a cancelled command forgets does not depend on IE (70_reset_and_hazards.md R272). -/

theorem State.forgetUnless_setIe (c : Option ErrorCode) (b : Buffer) (n : Nat) :
    (s.setIe e).forgetUnless c b n = (s.forgetUnless c b n).setIe e := by
  cases c <;> rfl

theorem State.forgetModel_setIe :
    State.cancel.forgetModel (s.setIe e) = (State.cancel.forgetModel s).setIe e := by
  unfold State.cancel.forgetModel
  rw [State.setIe_lenBytes]
  cases checkRecord s.lenBytes <;> rfl

theorem State.cancel_setIe (i : Instr) : (s.setIe e).cancel i = (s.cancel i).setIe e := by
  cases i with
  | nop => rfl
  | decodeModelImp | decodeModelExc => exact s.forgetModel_setIe e
  | encodeModel =>
    rw [State.cancel, State.cancel, State.setIe_anyNaN, State.setIe_anyNaN, apply_ite (State.setIe · e)]
    rfl
  | enc24 _ | dec24 | fft _ | leakf _ | untangle _ | untangleLeak _ =>
    exact s.forgetUnless_setIe e ..

theorem State.cancelCommand_setIe : (s.setIe e).cancelCommand = s.cancelCommand.setIe e := by
  unfold State.cancelCommand
  rw [State.setIe_seq, State.setIe_cmdl]
  cases s.seq with
  | idle => rfl
  | busy =>
    cases decode s.cmdl with
    | ok i => exact s.cancel_setIe e i
    | error _ => rfl

theorem State.softReset_setIe : (s.setIe e).softReset = s.softReset := by
  rw [State.softReset, State.cancelCommand_setIe]
  rfl

end

theorem State.writeCtrl_of_clear {v : Word} (h : v.getLsbD 1 = false) (s : State) :
    s.writeCtrl v = s.setIe (v.getLsbD 0) := by
  rw [State.writeCtrl, h]
  rfl

theorem State.writeCtrl_of_set {v : Word} (h : v.getLsbD 1 = true) (s : State) :
    s.writeCtrl v = s.softReset := by
  rw [State.writeCtrl, h]
  exact s.softReset_setIe _

theorem step_write_ctrl {s : State} {v : Word} {rest : List Turn}
    (ha : s.agenda = .host (.write .w32 0x018#14 v) :: rest) :
    step s = .next ((State.writeCtrl { s with agenda := rest } v).reply .done) :=
  step_write_free (by decide) rfl ha

/-- Settles O52: CTRL is never held, and bit 1 of a write decides between IE and a soft reset. -/
theorem ctrlAccess : Obligations.CtrlAccess := by
  intro s rest
  refine ⟨fun ha => ?_, fun v ha => ⟨fun hv => ?_, fun hv => ?_⟩⟩
  · rw [← s.ctrl_eq]
    exact step_read_free (by decide) rfl ha rfl
  · rw [step_write_ctrl ha, State.writeCtrl_of_clear hv]
    rfl
  · rw [step_write_ctrl ha, State.writeCtrl_of_set hv, ← State.popTurn_of_agenda ha]
    exact ⟨_, rfl, rfl, rfl, rfl⟩

/-! ### ID, CMD, LEN and LEAKAGE -/

/-- Settles O53: each offset is the slot of its register, and LEN is read zero-extended. -/
theorem operandRegisterAccess : Obligations.OperandRegisterAccess := by
  intro s v
  have hlen : s.len.setWidth 32 = 0#23 ++ s.len := BitVec.setWidth_eq_append (by decide)
  refine ⟨hostAccess_read_aligned (by decide) rfl, hostAccess_write_aligned (by decide) v s,
    hostAccess_read_aligned (by decide) rfl, ?_, hostAccess_write_aligned (by decide) v s,
    hostAccess_read_aligned (by decide) rfl, hostAccess_read_aligned (by decide) rfl,
    hostAccess_write_aligned (by decide) v s, hostAccess_write_aligned (by decide) v s⟩
  rw [← hlen]
  exact hostAccess_read_aligned (by decide) rfl

/-! ### The two halves of a binary64 element -/

theorem State.halfAt_of_read_none {s : State} {b : Buffer} {i half : Nat}
    (h : Memory.read s.mem (b.addr i + 4 * half) = none) : s.halfAt b i half = none := by
  rw [State.halfAt, Memory.readLe_succ, h]
  rfl

section
variable {s : State} {b : Buffer} {i half : Nat} (hb : b.width = 8)
include hb

theorem State.written_of_half_none (hhalf : half < 2) (h : s.halfAt b i half = none) :
    s.written b i = false := by
  rw [State.written, Option.isSome_eq_false_iff, Option.isNone_iff_eq_none]
  by_contra hsome
  obtain ⟨n, hn⟩ := Option.ne_none_iff_exists'.1 hsome
  have hx : s.f64At b i = some (BitVec.ofNat 64 n) := by rw [State.f64At, hn, Option.map_some]
  obtain ⟨hlo, hhi⟩ := (State.f64At_eq_some_iff hb).1 hx
  obtain rfl | rfl : half = 0 ∨ half = 1 := by omega
  · cases h.symm.trans hlo
  · cases h.symm.trans hhi

theorem State.f64At_of_halves {lo hi : Word} (hlo : s.halfAt b i 0 = some lo)
    (hhi : s.halfAt b i 1 = some hi) : s.f64At b i = some (hi ++ lo) := by
  rw [State.f64At_eq_some_iff hb, BitVec.extractLsb'_append_eq_right,
    BitVec.extractLsb'_append_eq_left]
  exact ⟨hlo, hhi⟩

/-- An element after writes of both its halves, in either order (44_control.md R228). -/
theorem State.f64At_writeElem_both (hhalf : half < 2) (v v' : Word) :
    ((s.writeElem b i half v).writeElem b i (1 - half) v').f64At b i =
      some (if half = 0 then v' ++ v else v ++ v') := by
  have hnew : ((s.writeElem b i half v).writeElem b i (1 - half) v').halfAt b i (1 - half) = some v' :=
    State.halfAt_writeElem_same hb v'
  have hold : ((s.writeElem b i half v).writeElem b i (1 - half) v').halfAt b i half = some v := by
    rw [State.halfAt_writeElem_of_ne hb (by omega), State.halfAt_writeElem_same hb]
  obtain rfl | rfl : half = 0 ∨ half = 1 := by omega
  · exact State.f64At_of_halves hb hold hnew
  · exact State.f64At_of_halves hb hnew hold

end

/-- Settles O58: the first write leaves the other half unwritten, the second completes the element. -/
theorem elementNeedsBothHalves : Obligations.ElementNeedsBothHalves := by
  intro s b i half off off' v v' hbytes hwords hi hhalf hoff hoff' hnone
  have hb := Buffer.width_eq_eight hbytes hwords
  rw [hoff'] at hnone
  have hother : (s.writeElem b i half v).halfAt b i (1 - half) = none := by
    rw [State.halfAt_writeElem_of_ne hb (by omega), State.halfAt_of_read_none hnone]
  exact ⟨_, _, hostAccess_write_elem v hi (Buffer.four_mul_half_lt_stride hb hhalf) hoff,
    State.written_of_half_none hb (by omega) hother,
    hostAccess_write_elem v' hi (Buffer.four_mul_half_lt_stride hb (by omega)) hoff',
    State.f64At_writeElem_both hb hhalf v v'⟩

end Sys2Proof.Machine
end

section
/-! PROOFS. Errors, and the race of a CMD write with a completion (60_exceptions.md R242, R246, R249). -/

namespace Sys2Proof.Machine

/-! ### Commands that end with an error -/

/-- A command's next state with ERR set is a completion with an error, whatever the command had still to
write (60_exceptions.md R242). -/
theorem Ends.eq_completeErr {s t : State} {ok : Bool} (h : Ends s ok (.next t)) (herr : t.err = true) :
    ∃ e, t = s.completeErr e := by
  rcases h.next_cases with hcompleted | ⟨u, -, rfl⟩
  · exact hcompleted
  · exact absurd (u.completeOk_err.symm.trans herr) Bool.false_ne_true

/-- Settles O11: a command that sets ERR ended by `completeErr`, which touches SEQ and STATUS alone. -/
theorem errorsWriteOnlyStatus : Obligations.ErrorsWriteOnlyStatus := by
  intro i s t ht herr
  obtain ⟨e, rfl⟩ := (ht ▸ exec_ends i s).eq_completeErr herr
  obtain ⟨-, -, -, hpos, hle⟩ := s.endedErr_completeErr e
  exact ⟨hpos, hle, rfl⟩

theorem checkLength_of_illegal {m : BitVec 8} (h : m.toNat < 2 ∨ 7 < m.toNat) :
    checkLength m = some .nparam := if_pos h

/-- Settles O24: the three commands check their length before anything else. -/
theorem illegalLengthIsParameterError : Obligations.IllegalLengthIsParameterError := by
  intro m s h
  have hchecked (run : Result) : checked (checkLength m) s run = .next (s.completeErr .nparam) := by
    rw [checkLength_of_illegal h]
    rfl
  exact ⟨hchecked _, hchecked _, hchecked _⟩

/-! ### The race -/

theorem State.completionNext_of_sequencer {s : State} {rest : List Turn}
    (ha : s.agenda = .sequencer :: rest) : s.completionNext = true := by
  rw [State.completionNext, ha]

theorem State.agendaAfter_of_sequencer {s : State} {rest : List Turn}
    (ha : s.agenda = .sequencer :: rest) : s.agendaAfter = rest := by
  rw [State.agendaAfter, State.sequencerNext, ha, if_pos rfl, List.tail_cons]

/-- Settles O9: before the completion the block is busy and drops the word; after it the block is idle, with
the write next on its agenda, and accepts it. -/
theorem commandWriteRacesCompletion : Obligations.CommandWriteRacesCompletion := by
  intro s w rest hb
  refine ⟨fun ha => ?_, fun ha t ht => ?_⟩
  · exact ⟨_, commandWriteIsDroppedWhenBusy s w _ hb ha, rfl, rfl, hb, rfl, step_of_sequencerNext rfl⟩
  · obtain ⟨hidle, -, -, hcmdl, -, -, -, -, hagenda⟩ :=
      completionEndsTheCommand s t hb (State.completionNext_of_sequencer ha) ht
    rw [State.agendaAfter_of_sequencer ha] at hagenda
    obtain ⟨_, hstep, -, rfl⟩ := commandWriteIsAcceptedWhenIdle t w rest hidle hagenda
    exact ⟨hcmdl, hstep⟩

end Sys2Proof.Machine
end

section
/-! PROOFS. The write set of a command (70_reset_and_hazards.md R272): a command that completes writes all of
it and nothing else, and a soft reset that cancels the command forgets all of it and nothing else; the block
after power-on reset (R270). -/

namespace Sys2Proof.Machine

/-! ### Unwritten elements -/

/-- An element whose first byte is unwritten is unwritten (10_state.md R47). -/
theorem Memory.readElem_of_read_none {m : Memory} {b : Buffer} {i : Nat}
    (h : Memory.read m (b.addr i) = none) : Memory.readElem m b i = none := by
  refine Option.not_isSome_iff_eq_none.1 fun hsome => ?_
  have hfirst := (Memory.readLe_isSome m (b.addr i) b.width).1 hsome _ le_rfl
    (Nat.lt_add_of_pos_right b.width_pos)
  simp [h] at hfirst

/-- Settles O42: every register and the agenda are literals, and the storage lists no byte. -/
theorem powerOnResetLeaves : Obligations.PowerOnResetLeaves := by
  refine ⟨rfl, rfl, State.reset.resetRegisters_status, rfl, rfl, rfl, rfl, rfl, fun b k => ?_, rfl⟩
  have hnone : Memory.readElem State.reset.mem b k = none :=
    Memory.readElem_of_read_none (Memory.read_nil _)
  rw [State.written, hnone, Option.isSome_none]

/-! ### Sets of prefixes -/

/-- Every listed prefix lies within its buffer. -/
def PrefixesFit (ws : List (Buffer × Nat)) : Prop := ∀ p ∈ ws, p.2 ≤ p.1.count

theorem inWriteSet_cons (p : Buffer × Nat) (ws : List (Buffer × Nat)) (b : Buffer) (k : Nat) :
    inWriteSet (p :: ws) b k = (decide (p.1 = b ∧ k < p.2) || inWriteSet ws b k) := by
  rw [inWriteSet, List.any_cons, Bool.decide_and, inWriteSet]

theorem PrefixesFit.lt_count {ws : List (Buffer × Nat)} {b : Buffer} {k : Nat} (h : PrefixesFit ws)
    (hin : inWriteSet ws b k = true) : k < b.count := by
  simp only [inWriteSet, List.any_eq_true, Bool.and_eq_true, decide_eq_true_eq] at hin
  obtain ⟨p, hp, rfl, hk⟩ := hin
  exact hk.trans_le (h p hp)

/-- Write the first elements of each listed buffer. -/
def Memory.writeAll (m : Memory) (writes : List (Buffer × List Nat)) : Memory :=
  writes.foldl (fun m w => Memory.writePrefix m w.1 w.2) m

/-- Forget each listed prefix. -/
def Memory.forgetAll (m : Memory) (ws : List (Buffer × Nat)) : Memory :=
  ws.foldl (fun m p => Memory.forgetPrefix m p.1 p.2) m

/-- The prefixes that writes of values reach. -/
def prefixesOf (writes : List (Buffer × List Nat)) : List (Buffer × Nat) :=
  writes.map fun w => (w.1, w.2.length)

theorem prefixesOf_cons (w : Buffer × List Nat) (writes : List (Buffer × List Nat)) :
    prefixesOf (w :: writes) = (w.1, w.2.length) :: prefixesOf writes := rfl

theorem Memory.read_writeAll_outside {writes : List (Buffer × List Nat)} {m : Memory} {a : Nat}
    (h : ∀ w ∈ (prefixesOf writes).map (fun p => prefixWindow p.1 p.2), a < w.1 ∨ w.2 ≤ a) :
    Memory.read (Memory.writeAll m writes) a = Memory.read m a := by
  induction writes generalizing m with
  | nil => rfl
  | cons w writes ih =>
    obtain ⟨hw, hrest⟩ := List.forall_mem_cons.1 h
    exact (ih hrest).trans (Memory.read_writePrefix_outside hw)

/-- After a prefix write the elements of the prefix are written, and no other becomes so or ceases to. -/
theorem Memory.isSome_readElem_writePrefix {m : Memory} {b c : Buffer} {vs : List Nat} {k : Nat}
    (hk : k < b.count) (hn : vs.length ≤ c.count) :
    (Memory.readElem (Memory.writePrefix m c vs) b k).isSome =
      (decide (c = b ∧ k < vs.length) || (Memory.readElem m b k).isSome) := by
  by_cases hin : c = b ∧ k < vs.length
  · obtain ⟨rfl, hlt⟩ := hin
    simp [Memory.readElem_writePrefix hlt, hlt]
  · rw [Memory.readElem_writePrefix_other, decide_eq_false hin, Bool.false_or]
    by_cases hcb : c = b
    · exact .inr ⟨hcb.symm, by simpa [hcb] using hin⟩
    · exact .inl ⟨Ne.symm hcb, hk, hn⟩

theorem Memory.isSome_readElem_writeAll {writes : List (Buffer × List Nat)} {m : Memory} {b : Buffer}
    {k : Nat} (hfit : PrefixesFit (prefixesOf writes)) (hk : k < b.count) :
    (Memory.readElem (Memory.writeAll m writes) b k).isSome =
      (inWriteSet (prefixesOf writes) b k || (Memory.readElem m b k).isSome) := by
  induction writes generalizing m with
  | nil => rfl
  | cons w writes ih =>
    obtain ⟨hw, hrest⟩ := List.forall_mem_cons.1 hfit
    calc (Memory.readElem (Memory.writeAll (Memory.writePrefix m w.1 w.2) writes) b k).isSome
      _ = (inWriteSet (prefixesOf writes) b k ||
            (decide (w.1 = b ∧ k < w.2.length) || (Memory.readElem m b k).isSome)) := by
        rw [ih hrest, Memory.isSome_readElem_writePrefix hk hw]
      _ = (inWriteSet (prefixesOf (w :: writes)) b k || (Memory.readElem m b k).isSome) := by
        rw [prefixesOf_cons, inWriteSet_cons, Bool.or_left_comm, Bool.or_assoc]

/-- Forgetting a prefix makes its elements unwritten and keeps every other element. -/
theorem Memory.readElem_forgetPrefix {m : Memory} {b c : Buffer} {n k : Nat} (hk : k < b.count)
    (hn : n ≤ c.count) :
    Memory.readElem (Memory.forgetPrefix m c n) b k =
      if c = b ∧ k < n then none else Memory.readElem m b k := by
  have hnext := b.addr_succ k
  have hwidth := b.width_le_stride
  split
  case isTrue h =>
    obtain ⟨rfl, hlt⟩ := h
    have hend := c.addr_mono (show k + 1 ≤ n from hlt)
    have hpos := c.width_pos
    refine Memory.readElem_of_read_none ?_
    rw [Memory.read_forgetPrefix, if_pos ⟨Nat.le_add_right .., by omega⟩]
  case isFalse h =>
    have hout : b.addr k + b.width ≤ c.base ∨ c.addr n ≤ b.addr k := by
      by_cases hcb : c = b
      · subst hcb
        exact .inr (c.addr_mono (by simpa using h))
      · exact Buffer.disjoint (Ne.symm hcb) hk hn
    refine Memory.readElem_congr fun x hlo hhi => ?_
    rw [Memory.read_forgetPrefix, if_neg (by omega)]

theorem Memory.readElem_forgetAll {ws : List (Buffer × Nat)} {m : Memory} {b : Buffer} {k : Nat}
    (hfit : PrefixesFit ws) (hk : k < b.count) :
    Memory.readElem (Memory.forgetAll m ws) b k =
      if inWriteSet ws b k then none else Memory.readElem m b k := by
  induction ws generalizing m with
  | nil => rfl
  | cons p ws ih =>
    obtain ⟨hp, hrest⟩ := List.forall_mem_cons.1 hfit
    have hstep : Memory.readElem (Memory.forgetAll m (p :: ws)) b k =
        if inWriteSet ws b k then none
        else if p.1 = b ∧ k < p.2 then none else Memory.readElem m b k := by
      rw [← Memory.readElem_forgetPrefix hk hp]
      exact ih hrest
    rw [hstep, inWriteSet_cons]
    by_cases hin : p.1 = b ∧ k < p.2 <;> simp [hin]

/-! ### Write sets by the checks that precede them -/

/-- What a command writes when its check finds no error; nothing where it finds one (60_exceptions.md R242,
R246). -/
def unlessError : Option ErrorCode → List (Buffer × Nat) → List (Buffer × Nat)
  | some _, _ => []
  | none, ws => ws

theorem unlessError_eq_ite (c : Option ErrorCode) (ws : List (Buffer × Nat)) :
    unlessError c ws = if c.isSome then [] else ws := by
  cases c <;> rfl

theorem prefixesFit_unlessError {c : Option ErrorCode} {ws : List (Buffer × Nat)}
    (h : c = none → PrefixesFit ws) : PrefixesFit (unlessError c ws) := by
  cases c with
  | some _ => exact fun _ hp => nomatch hp
  | none => exact h rfl

theorem prefixesFit_singleton {b : Buffer} {n : Nat} (h : n ≤ b.count) : PrefixesFit [(b, n)] := by
  simpa [PrefixesFit] using h

theorem prefixesFit_nil : PrefixesFit [] := fun _ hp => nomatch hp

/-- All of the buffers that DECODE_MODEL writes (42_transcoder.md R191). -/
def modelPrefixes : List (Buffer × Nat) :=
  [(.words, recordWords), (.tap, tapCount), (.param, paramCount), (.data, fftMax), (.mag, magCount),
    (.freq, magCount)]

/-- All of the buffers that ENCODE_MODEL writes (42_transcoder.md R196). -/
def recordPrefixes : List (Buffer × Nat) := [(.words, recordWords), (.bytes, recordBytes)]

theorem prefixesFit_modelPrefixes : PrefixesFit modelPrefixes := by
  unfold PrefixesFit
  decide

theorem prefixesFit_recordPrefixes : PrefixesFit recordPrefixes := by
  unfold PrefixesFit
  decide

/-! The conditions under which R272 gives a command a write set are the checks of R246. -/

theorem ite_le_capacity (n cap : Nat) (ws : List (Buffer × Nat)) :
    (if n ≤ cap then ws else []) = unlessError (checkCount n cap) ws := by
  rcases le_or_gt n cap with h | h
  · rw [if_pos h, checkCount_of_le h, unlessError]
  · rw [if_neg (not_le.2 h), checkCount_of_lt h, unlessError]

theorem ite_legalLog2 (m : BitVec 8) (ws : List (Buffer × Nat)) :
    (if legalLog2 m then ws else []) = unlessError (checkLength m) ws := by
  rw [unlessError_eq_ite, checkLength_isSome]
  cases legalLog2 m <;> rfl

theorem ite_legalStream (n : Nat) (ws : List (Buffer × Nat)) :
    (if n ≤ 423 ∧ n % 3 = 0 then ws else []) = unlessError (checkStream n) ws := by
  simp only [unlessError_eq_ite, checkStream_isSome, Bool.or_eq_true, decide_eq_true_eq]
  by_cases h : n ≤ 423 ∧ n % 3 = 0
  · rw [if_pos h, if_neg (by omega)]
  · rw [if_neg h, if_pos (by omega)]

theorem ite_recordLength (n : Nat) (ws : List (Buffer × Nat)) :
    (if n = 423 then ws else []) = unlessError (checkRecord n) ws := by
  simp only [unlessError_eq_ite, checkRecord_isSome, decide_eq_true_eq, ite_not]

section
variable (s : State)

theorem State.writeSet_enc24 (c : BitVec 8) :
    s.writeSet (.enc24 c) =
      unlessError (checkCount (argCount c) recordWords) [(.bytes, 3 * argCount c)] :=
  ite_le_capacity ..

theorem State.writeSet_dec24 :
    s.writeSet .dec24 = unlessError (checkStream s.lenBytes) [(.words, s.lenBytes / 3)] :=
  ite_legalStream ..

theorem State.writeSet_fft (m : BitVec 8) :
    s.writeSet (.fft m) = unlessError (checkLength m) [(.data, argLength m)] :=
  ite_legalLog2 ..

theorem State.writeSet_leakf (h : BitVec 8) :
    s.writeSet (.leakf h) =
      unlessError (checkCount (argCount h) magCount) [(.leak, argCount h)] :=
  ite_le_capacity ..

theorem State.writeSet_untangle (m : BitVec 8) :
    s.writeSet (.untangle m) = unlessError (checkLength m) [(.mag, argLength m / 2)] :=
  ite_legalLog2 ..

theorem State.writeSet_untangleLeak (m : BitVec 8) :
    s.writeSet (.untangleLeak m) = unlessError (checkLength m) [(.mag, argLength m / 2)] :=
  ite_legalLog2 ..

theorem State.writeSet_decodeModelImp :
    s.writeSet .decodeModelImp = unlessError (checkRecord s.lenBytes) modelPrefixes :=
  ite_recordLength ..

theorem State.writeSet_decodeModelExc :
    s.writeSet .decodeModelExc = unlessError (checkRecord s.lenBytes) modelPrefixes :=
  ite_recordLength ..

theorem State.writeSet_encodeModel :
    s.writeSet .encodeModel =
      if s.anyNaN .tap tapCount || s.anyNaN .param paramCount then [] else recordPrefixes := rfl

theorem State.prefixesFit_writeSet (i : Instr) : PrefixesFit (s.writeSet i) := by
  cases i with
  | nop => exact prefixesFit_nil
  | enc24 c =>
    rw [State.writeSet_enc24]
    exact prefixesFit_unlessError fun hc => prefixesFit_singleton <|
      Nat.mul_le_mul_left 3 (le_of_checkCount hc)
  | dec24 =>
    rw [State.writeSet_dec24]
    exact prefixesFit_unlessError fun hc => prefixesFit_singleton <|
      Nat.div_le_div_right (le_of_checkStream hc).1
  | fft m =>
    rw [State.writeSet_fft]
    exact prefixesFit_unlessError fun hc => prefixesFit_singleton (argLength_le_of_checkLength hc)
  | leakf h =>
    rw [State.writeSet_leakf]
    exact prefixesFit_unlessError fun hc => prefixesFit_singleton (le_of_checkCount hc)
  | untangle m | untangleLeak m =>
    simp only [State.writeSet_untangle, State.writeSet_untangleLeak]
    exact prefixesFit_unlessError fun hc => prefixesFit_singleton <|
      Nat.div_le_div_right (argLength_le_of_checkLength hc)
  | decodeModelImp | decodeModelExc =>
    simp only [State.writeSet_decodeModelImp, State.writeSet_decodeModelExc]
    exact prefixesFit_unlessError fun _ => prefixesFit_modelPrefixes
  | encodeModel =>
    rw [State.writeSet_encodeModel]
    split
    · exact prefixesFit_nil
    · exact prefixesFit_recordPrefixes

end

/-! ### Cancelling a command -/

theorem State.forgetUnless_eq (s : State) (c : Option ErrorCode) (b : Buffer) (n : Nat) :
    s.forgetUnless c b n = { s with mem := Memory.forgetAll s.mem (unlessError c [(b, n)]) } := by
  cases c <;> rfl

theorem State.foldl_forget (s : State) (ws : List (Buffer × Nat)) :
    ws.foldl (fun s p => s.forget p.1 p.2) s = { s with mem := Memory.forgetAll s.mem ws } := by
  induction ws generalizing s with
  | nil => rfl
  | cons p ws ih => exact ih (s.forget p.1 p.2)

theorem State.forgetModel_eq (s : State) :
    State.cancel.forgetModel s =
      { s with mem := Memory.forgetAll s.mem (unlessError (checkRecord s.lenBytes) modelPrefixes) } := by
  unfold State.cancel.forgetModel
  cases checkRecord s.lenBytes with
  | some _ => rfl
  | none => exact s.foldl_forget modelPrefixes

/-- Cancelling a command forgets its write set and changes nothing else. -/
theorem State.cancel_eq (s : State) (i : Instr) :
    s.cancel i = { s with mem := Memory.forgetAll s.mem (s.writeSet i) } := by
  cases i with
  | nop => rfl
  | enc24 c => rw [State.writeSet_enc24]; exact s.forgetUnless_eq ..
  | dec24 => rw [State.writeSet_dec24]; exact s.forgetUnless_eq ..
  | fft m => rw [State.writeSet_fft]; exact s.forgetUnless_eq ..
  | leakf h => rw [State.writeSet_leakf]; exact s.forgetUnless_eq ..
  | untangle m => rw [State.writeSet_untangle]; exact s.forgetUnless_eq ..
  | untangleLeak m => rw [State.writeSet_untangleLeak]; exact s.forgetUnless_eq ..
  | decodeModelImp => rw [State.writeSet_decodeModelImp]; exact s.forgetModel_eq
  | decodeModelExc => rw [State.writeSet_decodeModelExc]; exact s.forgetModel_eq
  | encodeModel =>
    rw [State.writeSet_encodeModel, State.cancel]
    split <;> rfl

theorem State.cancelCommand_of_decode {s : State} {i : Instr} (hb : s.seq = .busy)
    (hd : decode s.cmdl = .ok i) :
    s.cancelCommand = { s with mem := Memory.forgetAll s.mem (s.writeSet i) } := by
  rw [← State.cancel_eq]
  simp only [State.cancelCommand, hb, hd]

theorem State.cancelCommand_of_illegal {s : State} {e : DecodeError} (hd : decode s.cmdl = .error e) :
    s.cancelCommand = s := by
  unfold State.cancelCommand
  rw [hd]
  cases s.seq <;> rfl

/-! ### What a command that does not stop has written -/

/-- ENC24 and ENCODE_MODEL are the commands that write LEN (10_state.md R36, R48). -/
def writesLen : Instr → Bool
  | .enc24 _ | .encodeModel => true
  | .nop | .dec24 | .fft _ | .leakf _ | .untangle _ | .untangleLeak _ | .decodeModelImp
  | .decodeModelExc => false

/-- How a command `i` that started in `s` leaves LEN and the storage, `ws` being its write set: it stops, or
ends with an error when there is nothing to write, or completes after writing exactly `ws`. -/
inductive LeavesWritten (s : State) (i : Instr) : List (Buffer × Nat) → Result → Prop
  | fault (ws : List (Buffer × Nat)) (f : Fault) : LeavesWritten s i ws (.fault f)
  | error (e : ErrorCode) : LeavesWritten s i [] (finishErr e s)
  | done {ws : List (Buffer × Nat)} {u : State} (writes : List (Buffer × List Nat))
      (hmem : u.mem = Memory.writeAll s.mem writes) (hws : prefixesOf writes = ws)
      (hlen : writesLen i = false → u.len = s.len) : LeavesWritten s i ws (finishOk u)

section
variable {s : State} {i : Instr} {ws : List (Buffer × Nat)}

/-- The next state of a command holds what was written, nothing where ERR is set. -/
theorem LeavesWritten.next {t : State} (h : LeavesWritten s i ws (.next t)) :
    (∃ writes, t.mem = Memory.writeAll s.mem writes ∧ prefixesOf writes = ws) ∧
      (writesLen i = false → t.len = s.len) ∧ (t.err = true → ws = []) := by
  generalize hr : (Host.Outcome.next t : Result) = r at h
  cases h with
  | fault => cases hr
  | error e =>
    obtain rfl := finishErr_eq hr.symm
    exact ⟨⟨[], rfl, rfl⟩, fun _ => rfl, fun _ => rfl⟩
  | done writes hmem hws hlen =>
    obtain rfl := finishOk_eq hr.symm
    exact ⟨⟨writes, hmem, hws⟩, hlen, fun herr => nomatch herr⟩

theorem LeavesWritten.checked {c : Option ErrorCode} {run : Result}
    (h : c = none → LeavesWritten s i ws run) :
    LeavesWritten s i (unlessError c ws) (checked c s run) := by
  cases c with
  | some e => exact .error e
  | none => exact h rfl

theorem LeavesWritten.withElems {b : Buffer} {n w : Nat} {k : List (BitVec w) → Result}
    (h : ∀ vs : List (BitVec w), vs.length = n →
      (∀ j (hj : j < vs.length), (Memory.readElem s.mem b j).map (BitVec.ofNat w) = some vs[j]) →
      LeavesWritten s i ws (k vs)) :
    LeavesWritten s i ws (s.withElems b n fun vs => k (vs.map (BitVec.ofNat w))) := by
  rcases s.withElems_cases b n fun vs => k (vs.map (BitVec.ofNat w)) with
    ⟨vs, hl, hread, heq⟩ | ⟨j, -, -, heq⟩ <;> rw [heq]
  · refine h _ (by simpa using hl) fun j hj => ?_
    rw [hread j (by simpa using hj), List.getElem_map, Option.map_some]
  · exact .fault _ _

theorem LeavesWritten.withBytes {n : Nat} {k : List Byte → Result}
    (h : ∀ bs, bs.length = n → (∀ j (hj : j < bs.length), s.byteAt j = some bs[j]) →
      LeavesWritten s i ws (k bs)) : LeavesWritten s i ws (s.withBytes n k) :=
  .withElems h

theorem LeavesWritten.withWords {n : Nat} {k : List Word → Result}
    (h : ∀ vs, vs.length = n → (∀ j (hj : j < vs.length), s.wordAt j = some vs[j]) →
      LeavesWritten s i ws (k vs)) : LeavesWritten s i ws (s.withWords n k) :=
  .withElems h

theorem LeavesWritten.withF64s {b : Buffer} {n : Nat} {k : List F64 → Result}
    (h : ∀ ds, ds.length = n → (∀ j (hj : j < ds.length), s.f64At b j = some ds[j]) →
      LeavesWritten s i ws (k ds)) : LeavesWritten s i ws (s.withF64s b n k) :=
  .withElems h

/-- A command that writes values into the first elements of one binary64 buffer. -/
theorem LeavesWritten.setF64s {b : Buffer} {vs : List F64} {n : Nat} (hl : vs.length = n) :
    LeavesWritten s i [(b, n)] (finishOk (s.setF64s b vs)) :=
  .done [(b, vs.map BitVec.toNat)] rfl (by simp [prefixesOf, hl]) fun _ => rfl

/-- The three transforms write as many values as the length they were given asks for. -/
theorem leavesWritten_transform {m : BitVec 8} {b : Buffer} {f : List F64 → List F64} {n : Nat}
    (hf : ∀ d, d.length = argLength m → (f d).length = n) :
    LeavesWritten s i (unlessError (checkLength m) [(b, n)])
      (checked (checkLength m) s <| s.withF64s .data (argLength m) fun d =>
        finishOk (s.setF64s b (f d))) :=
  .checked fun _ => .withF64s fun d hd _ => .setF64s (hf d hd)

/-- Writes of binary64 values as writes of their patterns. -/
def patternsOf (writes : List (Buffer × List F64)) : List (Buffer × List Nat) :=
  writes.map fun w => (w.1, w.2.map BitVec.toNat)

theorem State.setAll_mem (s : State) (writes : List (Buffer × List F64)) :
    (s.setAll writes).mem = Memory.writeAll s.mem (patternsOf writes) := by
  induction writes generalizing s with
  | nil => rfl
  | cons w writes ih => exact ih (s.setF64s w.1 w.2)

theorem leavesWritten_setModel (kind : ModelKind) {words : List Word} {taps params : List F64}
    (hl : words.length = 141) (hf : scaleRecord words = taps ++ params) (ht : taps.length = 128)
    (hp : params.length = 13) :
    LeavesWritten s i modelPrefixes (finishOk (s.setModel kind words)) := by
  refine .done ((.words, words.map BitVec.toNat) :: patternsOf (modelWrites kind taps params)) ?_ ?_
    fun _ => s.setModel_len kind words
  · rw [State.setModel_eq_setAll hf ht]
    exact State.setAll_mem (s.setWords words) _
  · simp [prefixesOf, patternsOf, modelWrites, modelPrefixes, hl, ht, hp, recordWords, tapCount,
      paramCount, fftMax, magCount]

theorem leavesWritten_decodeBody (kind : ModelKind) :
    LeavesWritten s i (unlessError (checkRecord s.lenBytes) modelPrefixes) (decodeBody kind s) := by
  refine .checked fun _ => .withBytes fun bs hl _ => ?_
  simp only [recordBytes] at hl
  obtain ⟨ws, hws, hwl, -⟩ := (decode24_spec bs).1 (by rw [hl])
  have hwords : ws.length = 141 := by omega
  rw [hws]
  exact leavesWritten_setModel kind hwords (List.take_append_drop tapCount _).symm
    (by simp [hwords, tapCount]) (by simp [hwords, tapCount])

end

/-- A prefix that holds these values holds a NaN exactly when one of them is. -/
theorem State.anyNaN_of_read {s : State} {b : Buffer} {n : Nat} {xs : List F64} (hl : xs.length = n)
    (h : ∀ j (hj : j < xs.length), s.f64At b j = some xs[j]) : s.anyNaN b n = xs.any fIsNaN := by
  subst hl
  rw [State.anyNaN, Bool.eq_iff_iff, List.any_eq_true, List.any_eq_true]
  constructor
  · rintro ⟨j, hj, hnan⟩
    rw [List.mem_range] at hj
    rw [h j hj, Option.any_some] at hnan
    exact ⟨_, List.getElem_mem hj, hnan⟩
  · rintro ⟨x, hx, hnan⟩
    obtain ⟨j, hj, rfl⟩ := List.mem_iff_getElem.1 hx
    exact ⟨j, List.mem_range.2 hj, by rw [h j hj, Option.any_some, hnan]⟩

/-- With all operands read, the check for a NaN decides the write set (60_exceptions.md R246). -/
theorem State.writeSet_encodeModel_of_read {s : State} {taps params : List F64}
    (ht : taps.length = tapCount) (hp : params.length = paramCount)
    (htaps : ∀ j (hj : j < taps.length), s.f64At .tap j = some taps[j])
    (hparams : ∀ j (hj : j < params.length), s.f64At .param j = some params[j]) :
    s.writeSet .encodeModel = unlessError (checkNaN (taps ++ params)) recordPrefixes := by
  rw [State.writeSet_encodeModel, State.anyNaN_of_read ht htaps, State.anyNaN_of_read hp hparams,
    ← List.any_append, checkNaN]
  split <;> rfl

theorem leavesWritten_encodeModel (s : State) :
    LeavesWritten s .encodeModel (s.writeSet .encodeModel) (execEncodeModel s) := by
  refine .withF64s fun taps ht htaps => .withF64s fun params hp hparams => ?_
  rw [State.writeSet_encodeModel_of_read ht hp htaps hparams]
  refine .checked fun _ => ?_
  have hl : (taps ++ params).length = 141 := by rw [List.length_append, ht, hp]; rfl
  refine .done [(.words, (modelWords (taps ++ params)).map BitVec.toNat),
    (.bytes, (encode24 (modelWords (taps ++ params))).map BitVec.toNat)] rfl ?_ fun h => nomatch h
  simp only [prefixesOf, List.map_cons, List.map_nil, List.length_map, encode24_modelWords_length hl,
    modelWords_length, hl, min_self, recordPrefixes, recordWords, recordBytes]

/-- Every command that completes has written its write set, whole and alone (70_reset_and_hazards.md
R272). -/
theorem exec_leavesWritten (i : Instr) (s : State) :
    LeavesWritten s i (s.writeSet i) (exec i s) := by
  cases i with
  | nop => exact .done [] rfl rfl fun _ => rfl
  | enc24 c =>
    rw [State.writeSet_enc24]
    refine .checked fun _ => .withWords fun vs hl _ =>
      .done [(.bytes, (encode24 vs).map BitVec.toNat)] rfl ?_ fun h => nomatch h
    simp [prefixesOf, hl]
  | dec24 =>
    rw [State.writeSet_dec24]
    refine .checked fun hc => .withBytes fun bs hl _ => ?_
    obtain ⟨vs, hvs, hvl, -⟩ := (decode24_spec bs).1 (hl ▸ (le_of_checkStream hc).2)
    rw [hvs]
    refine .done [(.words, vs.map BitVec.toNat)] rfl ?_ fun _ => rfl
    have hcount : vs.length = s.lenBytes / 3 := by omega
    simp [prefixesOf, hcount]
  | fft m =>
    rw [State.writeSet_fft]
    exact leavesWritten_transform fun d hd => by rw [rfft_length, hd]
  | leakf h =>
    rw [State.writeSet_leakf]
    exact .checked fun _ => .setF64s (leakageFilter_length ..)
  | untangle m =>
    rw [State.writeSet_untangle]
    exact leavesWritten_transform fun d _ => untangle_length ..
  | untangleLeak m =>
    rw [State.writeSet_untangleLeak]
    exact leavesWritten_transform fun d _ => untangleLeakage_length ..
  | decodeModelImp =>
    rw [State.writeSet_decodeModelImp]
    exact leavesWritten_decodeBody .impedance
  | decodeModelExc =>
    rw [State.writeSet_decodeModelExc]
    exact leavesWritten_decodeBody .excursion
  | encodeModel => exact leavesWritten_encodeModel s

theorem writesLen_eq_false {i : Instr} (henc : ∀ c, i ≠ .enc24 c) (hmodel : i ≠ .encodeModel) :
    writesLen i = false := by
  cases i with
  | enc24 c => exact absurd rfl (henc c)
  | encodeModel => exact absurd rfl hmodel
  | nop | dec24 | fft _ | leakf _ | untangle _ | untangleLeak _ | decodeModelImp | decodeModelExc => rfl

/-! ### The statements on write sets -/

/-- Settles O12: a completed command wrote the prefixes of its write set, which reach nothing else and leave
their elements written. -/
theorem commandsWriteOnlyTheirWriteSet : Obligations.CommandsWriteOnlyTheirWriteSet := by
  intro i s t ht
  obtain ⟨-, hcontrol⟩ := (ht ▸ exec_ends i s).completion
  obtain ⟨⟨writes, hmem, hws⟩, hlen, -⟩ := (ht ▸ exec_leavesWritten i s).next
  have hfit := s.prefixesFit_writeSet i
  rw [← hws] at hfit ⊢
  refine ⟨hcontrol, fun henc hmodel => hlen (writesLen_eq_false henc hmodel), fun a ha => ?_,
    fun b k hin => ?_⟩
  · rw [hmem, Memory.read_writeAll_outside ha]
  · rw [State.written, hmem, Memory.isSome_readElem_writeAll hfit (hfit.lt_count hin), hin,
      Bool.true_or]

/-- Settles O44: a soft reset forgets the write set, which is empty for a command that ends with an error. -/
theorem softResetForgetsTheCancelledWriteSet : Obligations.SoftResetForgetsTheCancelledWriteSet := by
  intro s hb
  refine ⟨fun i hd b k hk => ?_, fun hillegal => ?_, fun i t hd ht herr => ?_⟩
  · rw [State.softReset_mem, State.cancelCommand_of_decode hb hd]
    exact Memory.readElem_forgetAll (s.prefixesFit_writeSet i) hk
  · obtain ⟨e, hd⟩ := (illegalWord_iff_rejected _).1 hillegal
    rw [State.softReset_mem, State.cancelCommand_of_illegal hd]
  · obtain ⟨-, -, hempty⟩ := (ht ▸ exec_leavesWritten i s).next
    rw [State.softReset_mem, State.cancelCommand_of_decode hb hd, hempty herr]
    rfl

end Sys2Proof.Machine
end

section
/-! PROOFS. The end of an accepted command (70_reset_and_hazards.md R276): each access that a busy block
performs uses up an entry of the agenda, and the sequencer's turn ends the command. -/

namespace Sys2Proof.Machine

/-! ### The agenda -/

theorem State.softReset_agenda (s : State) : s.softReset.agenda = s.agenda := by
  rw [State.softReset, State.resetRegisters_agenda, State.cancelCommand]
  split
  · rw [State.cancel_eq]
  · rfl

theorem State.writeSlot_agenda (s : State) (v : Word) (slot : Slot) :
    (s.writeSlot v slot).agenda = s.agenda := by
  cases slot with
  | id | status | len | leakageLo | leakageHi | elem _ _ _ | reserved => rfl
  | cmd =>
    rw [State.writeSlot, State.submit]
    split <;> rfl
  | ctrl =>
    rw [State.writeSlot, State.writeCtrl]
    split
    · exact State.softReset_agenda _
    · rfl

theorem hostAccess_keeps_agenda {op : BusOp} {s t : State} (ht : hostAccess op s = .next t) :
    t.agenda = s.agenda := by
  rcases hostAccess_cases op s with ⟨-, heq⟩ | ⟨_, _, v, -, -, -, heq⟩ |
    ⟨_, _, b, i, -, -, -, -, heq⟩ | ⟨_, off, v, -, -, heq⟩ <;> cases heq.symm.trans ht
  · rfl
  · rfl
  · exact s.writeSlot_agenda v _

/-! ### Runs -/

section
variable {M : Host.Core} {s : M.State}

theorem run_succ_of_next {t : M.State} (hs : M.step s = .next t) (k : Nat) :
    M.run (k + 1) s = M.run k t := by
  rw [Host.Core.run, hs]

theorem run_succ_of_fault {f : M.Fault} (hs : M.step s = .fault f) (k : Nat) :
    M.run (k + 1) s = .fault f := by
  rw [Host.Core.run, hs]

end

/-- Within n steps the block is IDLE or has stopped at an unwritten element. -/
def State.EndsWithin (s : State) (n : Nat) : Prop :=
  ∃ k, k ≤ n ∧ ((∃ t : State, Sys2Proof.core.run k s = .next t ∧ t.seq = .idle) ∨
    ∃ b j, Sys2Proof.core.run k s = .fault (Fault.unwritten b j))

section
variable {s t : State} {n : Nat}

theorem State.endsWithin_of_idle (h : s.seq = .idle) (n : Nat) : s.EndsWithin n :=
  ⟨0, n.zero_le, .inl ⟨s, rfl, h⟩⟩

theorem State.EndsWithin.step_next (h : t.EndsWithin n) (hs : step s = .next t) :
    s.EndsWithin (n + 1) := by
  obtain ⟨k, hk, hend⟩ := h
  refine ⟨k + 1, Nat.succ_le_succ hk, ?_⟩
  rwa [run_succ_of_next (M := Sys2Proof.core) hs]

theorem State.endsWithin_of_fault {b : Buffer} {j : Nat} (hs : step s = .fault (.unwritten b j))
    (n : Nat) : s.EndsWithin (n + 1) :=
  ⟨1, Nat.le_add_left 1 n, .inr ⟨b, j, run_succ_of_fault (M := Sys2Proof.core) hs 0⟩⟩

/-- The sequencer's turn leaves the block IDLE or stops. -/
theorem State.endsWithin_of_turn {u : State} (hb : u.seq = .busy) (hs : step s = sequencerTurn u)
    (n : Nat) : s.EndsWithin (n + 1) := by
  rcases sequencerTurn_nextOrUnwritten u with ⟨t, ht⟩ | ⟨b, j, hf, -⟩
  · obtain ⟨hidle, -⟩ := completion_of_sequencerTurn hb ht
    exact (State.endsWithin_of_idle hidle n).step_next (hs.trans ht)
  · exact State.endsWithin_of_fault (hs.trans hf) n

end

theorem State.endsWithin_agenda (s : State) : s.EndsWithin (s.agenda.length + 1) := by
  induction hn : s.agenda.length generalizing s with
  | zero =>
    cases hseq : s.seq with
    | idle => exact State.endsWithin_of_idle hseq _
    | busy =>
      exact State.endsWithin_of_turn hseq (by rw [step, List.length_eq_zero_iff.1 hn]) _
  | succ n ih =>
    cases hseq : s.seq with
    | idle => exact State.endsWithin_of_idle hseq _
    | busy =>
      rcases step_cases s with
        ⟨-, hs⟩ | ⟨rest, -, hs⟩ | ⟨op, rest, -, -, hs⟩ | ⟨op, rest, -, -, hs⟩
      · exact State.endsWithin_of_turn hseq hs _
      · exact State.endsWithin_of_turn (u := s.popTurn) hseq hs _
      · exact State.endsWithin_of_turn hseq hs _
      · rcases hostAccess_nextOrUnwritten op s.popTurn with ⟨t, ht⟩ | ⟨b, j, hf, -⟩
        · have hagenda : t.agenda.length = n := by
            rw [hostAccess_keeps_agenda ht, State.popTurn_agenda, List.length_tail, hn,
              Nat.add_sub_cancel]
          exact (ih t hagenda).step_next (hs.trans ht)
        · exact State.endsWithin_of_fault (hs.trans hf) _

/-- Settles O14: by the length of the agenda. -/
theorem acceptedCommandEnds : Obligations.AcceptedCommandEnds := fun s _ => s.endsWithin_agenda

end Sys2Proof.Machine
end
